-- ==== Sys2Proof/Word.lean ====
section
/-! DEFINITION. The word types of JOATH-ENGINE and the names a field of a command word stands for
(00_scope.md R11, R16; 30_encoding.md R101). -/

namespace Sys2Proof

/-- A byte is 8 bits (R16). -/
abbrev Byte := BitVec 8

/-- A 32-bit register or command word. -/
abbrev Word := BitVec 32

/-- A 64-bit register. -/
abbrev DWord := BitVec 64

/-- The three hash functions of the block (R3, R150). -/
inductive HashAlg
  | sha1
  | sha256
  | sha512
  deriving DecidableEq, Repr

/-- What the two-bit field `ALG` of a command word selects (R101): a hash, or the reserved value 3. -/
inductive HashSel
  /-- `ALG` 0, 1, 2. -/
  | use (a : HashAlg)
  /-- `ALG` 3: a legal word whose command fails with `CRYPTO_ERROR` (R106, R194). -/
  | reserved
  deriving DecidableEq, Repr

end Sys2Proof
end

