-- ==== Sys2Proof/Syntax.lean ====
section
/-! DEFINITION. The six commands, one constructor per row of the opcode table, with the immediates the command
word carries (30_encoding.md R100, R102). All other operands are implicit registers and buffers. -/

namespace Sys2Proof

/-- A command of the block (R100). -/
inductive Instr
  /-- `NOP` (R138). -/
  | nop
  /-- `HMAC alg` (R195). -/
  | hmac (alg : HashSel)
  /-- `HOTP.GEN digits` or `HOTP.GEN digits, CHK` (R225). -/
  | hotpGen (digits : Nat) (chk : Bool)
  /-- `HOTP.VAL` or `HOTP.VAL CHK` (R253). -/
  | hotpVal (chk : Bool)
  /-- `TOTP.GEN alg, digits` (R227). -/
  | totpGen (alg : HashSel) (digits : Nat)
  /-- `TOTP.VAL alg` (R258). -/
  | totpVal (alg : HashSel)
  deriving DecidableEq, Repr

end Sys2Proof
end

