-- ==== Sys2Proof/WellFormed.lean ====
section
/-! DEFINITION. Which commands a command word can carry: the `DIGITS` field has four bits (30_encoding.md R101, R102).
A digit count outside 6 to 8 is well formed: its command fails with `INVALID_DIGITS` (R106). -/

namespace Sys2Proof

/-- The immediates of the command fit their fields. -/
def Instr.wf : Instr → Bool
  | .nop => true
  | .hmac _ => true
  | .hotpGen digits _ => decide (digits < 16)
  | .hotpVal _ => true
  | .totpGen _ digits => decide (digits < 16)
  | .totpVal _ => true

end Sys2Proof
end

