-- ==== Sys2Proof/Decode.lean ====
section
/-! DEFINITION. Big-endian byte order, the command word, its decoder (total, rejecting by name) and its encoder
(20_memory.md R71; 30_encoding.md R101 to R105). -/

namespace Sys2Proof

/-! ## Byte order (R71, R76) -/

/-- The unsigned integer whose bytes, most significant first, are `bs` (R76). -/
def beValue (bs : List Byte) : Nat := bs.foldl (fun v b => 256 * v + b.toNat) 0

/-- The low `n` bytes of `v`, most significant first: byte `i` is `floor(v / 256^(n-1-i)) mod 256` (R77, R210). -/
def beBytes (n v : Nat) : List Byte :=
  (List.range n).map fun i => BitVec.ofNat 8 (v / 256 ^ (n - 1 - i))

/-! ## The fields of a command word (R101) -/

/-- `OP`, bits 3:0. -/
def fieldOp (w : Word) : Nat := w.toNat % 16

/-- `ALG`, bits 5:4. -/
def fieldAlg (w : Word) : Nat := w.toNat / 16 % 4

/-- `RSV1`, bits 7:6. -/
def fieldRsv1 (w : Word) : Nat := w.toNat / 64 % 4

/-- `DIGITS`, bits 11:8. -/
def fieldDigits (w : Word) : Nat := w.toNat / 256 % 16

/-- `CHK`, bit 12. -/
def fieldChk (w : Word) : Nat := w.toNat / 4096 % 2

/-- `RSV2`, bits 31:13. -/
def fieldRsv2 (w : Word) : Nat := w.toNat / 8192

/-- The hash an `ALG` field selects: 0 `SHA1`, 1 `SHA256`, 2 `SHA512`, 3 reserved (R101, R176). -/
def HashSel.ofField : Nat → HashSel
  | 0 => .use .sha1
  | 1 => .use .sha256
  | 2 => .use .sha512
  | _ => .reserved

/-- The `ALG` field of a selector. -/
def HashSel.field : HashSel → Nat
  | .use .sha1 => 0
  | .use .sha256 => 1
  | .use .sha512 => 2
  | .reserved => 3

/-! ## The decoder (R104, R105) -/

/-- A row of R104: a word belongs to it when `(word and mask) = pattern`. -/
structure CommandRow where
  pattern : Word
  mask : Word
  deriving DecidableEq, Repr

/-- R104, row `NOP`. -/
def rowNop : CommandRow := ⟨0x00000000#32, 0xFFFFFFFF#32⟩
/-- R104, row `HMAC`. -/
def rowHmac : CommandRow := ⟨0x00000001#32, 0xFFFFFFCF#32⟩
/-- R104, row `HOTP.GEN`. -/
def rowHotpGen : CommandRow := ⟨0x00000002#32, 0xFFFFE0FF#32⟩
/-- R104, row `HOTP.VAL`. -/
def rowHotpVal : CommandRow := ⟨0x00000003#32, 0xFFFFEFFF#32⟩
/-- R104, row `TOTP.GEN`. -/
def rowTotpGen : CommandRow := ⟨0x00000004#32, 0xFFFFF0CF#32⟩
/-- R104, row `TOTP.VAL`. -/
def rowTotpVal : CommandRow := ⟨0x00000005#32, 0xFFFFFFCF#32⟩

/-- The rows of R104. -/
def commandRows : List CommandRow := [rowNop, rowHmac, rowHotpGen, rowHotpVal, rowTotpGen, rowTotpVal]

/-- `(w and mask) = pattern`. -/
def CommandRow.hits (r : CommandRow) (w : Word) : Bool := w &&& r.mask == r.pattern

/-- The row a command's word stands in. -/
def rowOf : Instr → CommandRow
  | .nop => rowNop
  | .hmac _ => rowHmac
  | .hotpGen _ _ => rowHotpGen
  | .hotpVal _ => rowHotpVal
  | .totpGen _ _ => rowTotpGen
  | .totpVal _ => rowTotpVal

/-- Why a word is no legal command (R105). -/
inductive DecodeReject
  /-- The command word is not four bytes (R107). -/
  | notFourBytes
  /-- `RSV2` or `RSV1` is not zero. -/
  | reservedBitSet
  /-- `OP` is 6 to 15. -/
  | reservedOp
  /-- A field the command does not use is not zero. -/
  | unusedFieldSet
  deriving DecidableEq, Repr

/-- The name of the rejection of a word that no row of R104 matches (R105). -/
def rejectReason (w : Word) : DecodeReject :=
  if fieldRsv1 w ≠ 0 ∨ fieldRsv2 w ≠ 0 then .reservedBitSet
  else if 5 < fieldOp w then .reservedOp
  else .unusedFieldSet

/-- The decoder of command words (R104): total, every word that matches no row is rejected (R105). -/
def decodeWord (w : Word) : Except DecodeReject Instr :=
  if rowNop.hits w then .ok .nop
  else if rowHmac.hits w then .ok (.hmac (.ofField (fieldAlg w)))
  else if rowHotpGen.hits w then .ok (.hotpGen (fieldDigits w) (fieldChk w == 1))
  else if rowHotpVal.hits w then .ok (.hotpVal (fieldChk w == 1))
  else if rowTotpGen.hits w then .ok (.totpGen (.ofField (fieldAlg w)) (fieldDigits w))
  else if rowTotpVal.hits w then .ok (.totpVal (.ofField (fieldAlg w)))
  else .error (rejectReason w)

/-- The decoder on the four bytes of a command word as they lie on the big-endian bus (R101). -/
def decodeBytes (bs : List Byte) : Except DecodeReject Instr :=
  if bs.length = 4 then decodeWord (BitVec.ofNat 32 (beValue bs)) else .error .notFourBytes

/-! ## The encoder (R101) -/

/-- `CHK * 0x1000 + DIGITS * 0x100 + ALG * 0x10 + OP`, reserved fields zero (R101). -/
def commandWord (chk digits alg op : Nat) : Word :=
  BitVec.ofNat 32 (chk * 0x1000 + digits * 0x100 + alg * 0x10 + op)

/-- The word of a command (R100, R101, R104). -/
def encode : Instr → Word
  | .nop => commandWord 0 0 0 0
  | .hmac alg => commandWord 0 0 alg.field 1
  | .hotpGen digits chk => commandWord chk.toNat digits 0 2
  | .hotpVal chk => commandWord chk.toNat 0 0 3
  | .totpGen alg digits => commandWord 0 digits alg.field 4
  | .totpVal alg => commandWord 0 0 alg.field 5

/-- The four bytes of a command's word in bus order (R71, R101). -/
def encodeBytes (i : Instr) : List Byte := beBytes 4 (encode i).toNat

/-- The instruction the decoder reads from the `nbits`-bit table word `w`: the word's four bytes as the bus
carries them, bits above `nbits` zero. -/
def decodeTableWord (nbits w : Nat) : Option Instr :=
  (decodeBytes (beBytes 4 (w % 2 ^ nbits))).toOption

end Sys2Proof
end

