-- ==== Sys2Proof/Config.lean ====
section
/-! DEFINITION. The `OPEN` parameters of the block (00_scope.md R10). They are plain data, so that a state carries
the parameters of the block it is a state of and every statement ranges over all of them (log 2). -/

namespace Sys2Proof

/-- The three parameters R10 leaves `OPEN`. -/
structure Config where
  /-- `KEY_MAX`, the capacity of `KEY` in bytes. -/
  keyMax : Nat
  /-- `MSG_MAX`, the capacity of `MSG` in bytes. -/
  msgMax : Nat
  /-- `VERSION_NUM`, the value read from `VERSION`. -/
  versionNum : Word
  deriving DecidableEq, Repr

/-- The constraints R10 puts on the parameters. -/
abbrev Config.wf (c : Config) : Prop :=
  c.keyMax % 8 = 0 ∧ 128 ≤ c.keyMax ∧ c.keyMax ≤ 65536 ∧
  c.msgMax % 8 = 0 ∧ 8 ≤ c.msgMax ∧ c.msgMax ≤ 65536

/-- The default of each parameter (R10), which the test vectors assume. -/
def Config.default : Config := { keyMax := 256, msgMax := 256, versionNum := 0#32 }

end Sys2Proof
end

