-- ==== Sys2Proof/Machine/State.lean ====
section
/-! DEFINITION. The architectural state of the block as plain data (10_state.md R20: "There is nothing else"), the host
side the model carries beside it (log 1), the reasons a step can stop, and the state after reset
(70_reset_and_hazards.md R311). -/

namespace Sys2Proof.Machine

/-- The contents of a byte buffer: (index, byte) pairs, indices strictly rising, no pair that holds the byte an
unlisted index reads as. The key is the index in the buffer; the buffer's base is in the address map (R72). -/
abbrev Memory := List Host.Cell

/-- What an index that is not listed reads as: every byte of every buffer is `0x00` after reset (R311). -/
def Memory.unlisted : Byte := 0x00#8

/-- The canonical form of a buffer's contents. -/
abbrev Memory.wf (m : Memory) : Prop :=
  m.Pairwise (fun a b => a.1 < b.1) ∧ ∀ c ∈ m, c.2 ≠ Memory.unlisted

/-- The nine operand registers (R20, R30 to R38). -/
structure Operands where
  /-- `CTR`, the HOTP counter (R30). -/
  ctr : DWord
  /-- `NOW`, two's complement (R31). -/
  now : DWord
  /-- `START`, two's complement (R32). -/
  start : DWord
  /-- `STEP` (R33). -/
  step : Word
  /-- `WINDOW` (R34). -/
  window : DWord
  /-- `TRUNC`, two's complement (R35). -/
  trunc : DWord
  /-- `KEYLEN` (R36). -/
  keyLen : Word
  /-- `MSGLEN` (R37). -/
  msgLen : Word
  /-- `SUBLEN` (R38). -/
  subLen : Word
  deriving DecidableEq, Repr

/-- The eight result registers and the two result buffers (R20, R45 to R54). -/
structure Results where
  /-- `POS`, two's complement (R45). -/
  pos : DWord
  /-- `MATCHCTR` (R46). -/
  matchCtr : DWord
  /-- `TCTR` (R47). -/
  tctr : DWord
  /-- `BINCODE` (R48). -/
  binCode : Word
  /-- `OTPVAL` (R49). -/
  otpVal : Word
  /-- `OFFSET` (R50). -/
  offset : Word
  /-- `OTPLEN` (R51). -/
  otpLen : Word
  /-- `TAGLEN` (R53). -/
  tagLen : Word
  /-- `OTP`, 16 bytes (R52). -/
  otp : Memory
  /-- `TAG`, 64 bytes (R54). -/
  tag : Memory
  deriving DecidableEq, Repr

/-- Every result register zero and every result byte `0x00` (R134). -/
def Results.zero : Results :=
  { pos := 0, matchCtr := 0, tctr := 0, binCode := 0, otpVal := 0, offset := 0, otpLen := 0, tagLen := 0,
    otp := [], tag := [] }

/-- One action of a host program (R73, R108). -/
inductive HostAction
  /-- A bus write of the bytes `data`, first byte at `addr`: `MemWrite(addr, n, v)` with `n` the number of bytes and
  `v` their big-endian value (R77). Its size is not restricted here: an illegal size is refused by the bus (R74). -/
  | write (addr : Nat) (data : List Byte)
  /-- A bus read of `n` bytes: `MemRead(addr, n)` (R76). -/
  | read (addr n : Nat)
  /-- Assert and release reset (R310). -/
  | reset
  deriving DecidableEq, Repr

/-- What the bus answers to an access. -/
inductive BusResponse
  /-- The write was accepted (R74, R77). -/
  | written
  /-- The read was accepted and returned this unsigned integer (R76). -/
  | data (value : Nat)
  /-- The access was refused; a refused read has no data (R75). -/
  | busError
  deriving DecidableEq, Repr

/-- The state of the block, and beside it the parameters of the block (`params`, log 2) and the host's side of the bus
(`pending`, `responses`, log 1). `VERSION` has no field of its own: it is `params.versionNum` at all times (R26). -/
structure State where
  /-- The parameters of R10; no step changes them. -/
  params : Config
  /-- `CMD` (R23). -/
  cmd : Word
  /-- `STATUS` (R24). -/
  status : Word
  /-- `RC`, two's complement (R25). -/
  rc : Word
  /-- The operand registers. -/
  ops : Operands
  /-- `KEY`, `KEY_MAX` bytes (R40). -/
  key : Memory
  /-- `MSG`, `MSG_MAX` bytes (R41). -/
  msg : Memory
  /-- `SUB`, 16 bytes (R42). -/
  sub : Memory
  /-- The result registers and buffers. -/
  res : Results
  /-- The host accesses still to come, oldest first (R80, R108). -/
  pending : List HostAction
  /-- The answers to the accesses made so far, newest first. -/
  responses : List BusResponse
  deriving DecidableEq, Repr

/-- Reasons to stop with a fault. There are none: the block has no trap (R14, R287), an illegal word and a length
refusal are sticky bits of `STATUS` (R132, R133), and every command goes on to a next state (log 3). -/
inductive Fault
  deriving DecidableEq, Repr

/-- Reasons to give an instruction no meaning. -/
inductive Refusal
  /-- An instruction without a meaning in this model, by its mnemonic; raised by no arm of `exec` (safe). -/
  | notModelled (mnemonic : String)
  deriving DecidableEq, Repr

/-- The outcome of a step or a command. -/
abbrev Outcome := Host.Outcome State Fault Refusal

/-- The operand registers after reset (R311): zero but for `STEP` = 30 and `TRUNC` = all ones. -/
def Operands.reset : Operands :=
  { ctr := 0, now := 0, start := 0, step := 30, window := 0, trunc := 0xFFFFFFFFFFFFFFFF#64,
    keyLen := 0, msgLen := 0, subLen := 0 }

/-- A block with parameters `c` right after reset (R311), no host access pending and none answered. -/
def State.resetWith (c : Config) : State :=
  { params := c, cmd := 0, status := 0, rc := 0, ops := Operands.reset, key := [], msg := [], sub := [],
    res := Results.zero, pending := [], responses := [] }

/-- The block with the default parameters of R10 right after reset (R311). -/
def State.reset : State := State.resetWith Config.default

end Sys2Proof.Machine
end

