-- ==== Sys2Proof/Machine/Flags.lean ====
section
/-! DEFINITION. The only flags of the block: the sticky bits `ILLCMD` and `ILLLEN` of `STATUS` (10_state.md R24, R27).
Nothing here clears one: only reset does. -/

namespace Sys2Proof.Machine

/-- `STATUS.ILLCMD <- 1` (R132). -/
def State.setIllCmd (s : State) : State := { s with status := s.status ||| 1#32 }

/-- `STATUS.ILLLEN <- 1` (R133). -/
def State.setIllLen (s : State) : State := { s with status := s.status ||| 2#32 }

/-- `STATUS.ILLCMD`, bit 0 (R24). -/
def State.illCmd (s : State) : Bool := s.status.getLsbD 0

/-- `STATUS.ILLLEN`, bit 1 (R24). -/
def State.illLen (s : State) : Bool := s.status.getLsbD 1

end Sys2Proof.Machine
end

