-- ==== Sys2Proof/Machine/Ops.lean ====
section
/-! DEFINITION. The shared operations: reading and writing the bytes of a buffer, the error kinds with their codes,
ending a command by `raise E` or by completing it, and the frame every command runs in (40_command_frame.md R131 to
R134; 60_exceptions.md R280, R281). `raise` is what stands for an exception here: it saves nothing and transfers
control nowhere, and there is no return (R287, R288). -/

namespace Sys2Proof.Machine

/-! ## Bytes of a buffer -/

/-- The byte at index `a`. -/
def Memory.read : Memory → Nat → Byte
  | [], _ => Memory.unlisted
  | c :: m, a => if c.1 = a then c.2 else Memory.read m a

/-- The contents with byte `b` at index `a`, in canonical form again. -/
def Memory.write : Memory → Nat → Byte → Memory
  | [], a, b => if b = Memory.unlisted then [] else [(a, b)]
  | c :: m, a, b =>
    if a < c.1 then (if b = Memory.unlisted then c :: m else (a, b) :: c :: m)
    else if a = c.1 then (if b = Memory.unlisted then m else (a, b) :: m)
    else c :: Memory.write m a b

/-- `BUF[a .. a + len(bs) - 1] <- bs` (R18). -/
def Memory.store (m : Memory) (a : Nat) : List Byte → Memory
  | [] => m
  | b :: bs => Memory.store (m.write a b) (a + 1) bs

/-- The contents of a cleared buffer after `BUF[0 .. len(bs) - 1] <- bs`. -/
def Memory.ofBytes (bs : List Byte) : Memory := Memory.store [] 0 bs

/-- `BUF[0 .. n-1]`, lowest index first (R85). -/
def Memory.slice (m : Memory) (n : Nat) : List Byte := (List.range n).map m.read

/-! ## Error kinds (R281) -/

/-- The closed taxonomy of outcome codes (R281). -/
inductive ErrorKind
  | ok
  | cryptoError
  | invalidDigits
  | printfError
  | invalidHex
  | tooSmallBuffer
  | invalidOtp
  | badPassword
  | invalidCounter
  | invalidTimestamp
  | invalidBase32
  | base32Overflow
  | mallocError
  deriving DecidableEq, Repr

/-- `code(E)` (R281). -/
def ErrorKind.code : ErrorKind → Int
  | .ok => 0
  | .cryptoError => -1
  | .invalidDigits => -2
  | .printfError => -3
  | .invalidHex => -4
  | .tooSmallBuffer => -5
  | .invalidOtp => -6
  | .badPassword => -8
  | .invalidCounter => -9
  | .invalidTimestamp => -10
  | .invalidBase32 => -20
  | .base32Overflow => -21
  | .mallocError => -22

/-- The bits of `RC` that hold `code(E)`: 32 bits, two's complement (R25). -/
def ErrorKind.rcBits (e : ErrorKind) : Word := BitVec.ofInt 32 e.code

/-! ## Ending a command (R134) -/

/-- `clear_results()`: `RC` and every result zero (R134). -/
def State.clearResults (s : State) : State := { s with rc := 0, res := Results.zero }

/-- `raise E`, applied to a state whose results are cleared: `RC <- code(E)` and nothing else (R134, R280). -/
def State.raiseError (e : ErrorKind) (s : State) : State := { s with rc := e.rcBits }

/-- A command that completes has written the results it defines and `RC <- 0` (R134). -/
def State.complete (r : Results) (s : State) : State := { s with res := r, rc := 0 }

/-! ## The frame (R131) -/

/-- `length_refused` of a command that is not `NOP`; `readsMsg` holds for `HMAC` (R133). -/
def lengthRefused (readsMsg : Bool) (s : State) : Bool :=
  decide (s.params.keyMax < s.ops.keyLen.toNat) || (readsMsg && decide (s.params.msgMax < s.ops.msgLen.toNat))

/-- The frame from the length check on (R131): refuse, or clear the results and execute. `body` computes, from the
cleared state, either the results of a command that completes or the error it raises; results are written after the
last possible `raise`, so they are all or nothing (R134). -/
def commandFrame (readsMsg : Bool) (body : State → Except ErrorKind Results) (s : State) : Outcome :=
  if lengthRefused readsMsg s then .next s.setIllLen
  else
    match body s.clearResults with
    | .error e => .next (s.clearResults.raiseError e)
    | .ok r => .next (s.clearResults.complete r)

end Sys2Proof.Machine
end

