-- ==== Sys2Proof/Machine/Bus.lean ====
section
/-! DEFINITION. The register space and the host's accesses to it: the address map, which accesses are accepted,
`MemRead` and `MemWrite` (20_memory.md R71 to R78). -/

namespace Sys2Proof.Machine

/-! ## The address map (R72) -/

/-- The registers of the map. -/
inductive Reg
  | cmd | status | rc | version
  | ctr | now | start | step | window | trunc | keyLen | msgLen | subLen
  | pos | matchCtr | tctr | binCode | otpVal | offset | otpLen | tagLen
  deriving DecidableEq, Repr

/-- The buffers of the map. -/
inductive Buf
  | otp | sub | tag | msg | key
  deriving DecidableEq, Repr

/-- What stands at a range of addresses. -/
inductive Place
  | reg (r : Reg)
  | buf (b : Buf)
  deriving DecidableEq, Repr

/-- The access column of R72. `CMD` is read-write; that it is written by 4 bytes only is condition (e) of R74. -/
inductive Access
  | readWrite
  | readOnly
  | writeOnly
  deriving DecidableEq, Repr

/-- A row of R72 that is not reserved. -/
structure Region where
  base : Nat
  size : Nat
  place : Place
  access : Access
  deriving DecidableEq, Repr

/-- The rows of R72, top to bottom; an address in none of them is reserved. -/
def memoryMap (c : Config) : List Region :=
  [ ⟨0x00000, 4, .reg .cmd, .readWrite⟩,
    ⟨0x00004, 4, .reg .status, .readOnly⟩,
    ⟨0x00008, 4, .reg .rc, .readOnly⟩,
    ⟨0x0000C, 4, .reg .version, .readOnly⟩,
    ⟨0x00010, 8, .reg .ctr, .readWrite⟩,
    ⟨0x00018, 8, .reg .now, .readWrite⟩,
    ⟨0x00020, 8, .reg .start, .readWrite⟩,
    ⟨0x00028, 4, .reg .step, .readWrite⟩,
    ⟨0x00030, 8, .reg .window, .readWrite⟩,
    ⟨0x00038, 8, .reg .trunc, .readWrite⟩,
    ⟨0x00040, 4, .reg .keyLen, .readWrite⟩,
    ⟨0x00044, 4, .reg .msgLen, .readWrite⟩,
    ⟨0x00048, 4, .reg .subLen, .readWrite⟩,
    ⟨0x00050, 8, .reg .pos, .readOnly⟩,
    ⟨0x00058, 8, .reg .matchCtr, .readOnly⟩,
    ⟨0x00060, 8, .reg .tctr, .readOnly⟩,
    ⟨0x00068, 4, .reg .binCode, .readOnly⟩,
    ⟨0x0006C, 4, .reg .otpVal, .readOnly⟩,
    ⟨0x00070, 4, .reg .offset, .readOnly⟩,
    ⟨0x00074, 4, .reg .otpLen, .readOnly⟩,
    ⟨0x00078, 4, .reg .tagLen, .readOnly⟩,
    ⟨0x00080, 16, .buf .otp, .readOnly⟩,
    ⟨0x00090, 16, .buf .sub, .readWrite⟩,
    ⟨0x000C0, 64, .buf .tag, .readOnly⟩,
    ⟨0x10000, c.msgMax, .buf .msg, .readWrite⟩,
    ⟨0x20000, c.keyMax, .buf .key, .writeOnly⟩ ]

/-- Does the address lie in the region. -/
def Region.holds (r : Region) (a : Nat) : Bool := decide (r.base ≤ a ∧ a < r.base + r.size)

/-- The region of an address; none when it is reserved or outside the space (R72). -/
def regionAt (c : Config) (a : Nat) : Option Region := (memoryMap c).find? (·.holds a)

/-! ## Which accesses are accepted (R73, R74) -/

/-- A bus access is a read or a write (R73). -/
inductive AccessKind
  | read
  | write
  deriving DecidableEq, Repr

/-- Conditions (a), (b) and (c) of R74: a legal size, natural alignment, inside the 18-bit space. -/
def shapeOk (addr n : Nat) : Bool :=
  decide ((n = 1 ∨ n = 2 ∨ n = 4 ∨ n = 8) ∧ addr % n = 0 ∧ addr + n - 1 ≤ 0x3FFFF)

/-- Condition (e) of R74 for an access that starts in region `r`. -/
def cmdWriteOk (kind : AccessKind) (r : Region) (addr n : Nat) : Bool :=
  decide (kind = .write ∧ r.place = .reg .cmd → addr = 0x00000 ∧ n = 4)

/-- The region an accepted access lies in; none when the access is refused (R74). -/
def acceptedRegion (c : Config) (kind : AccessKind) (addr n : Nat) : Option Region :=
  if shapeOk addr n then
    match regionAt c addr with
    | none => none
    | some r => if addr + n ≤ r.base + r.size ∧ cmdWriteOk kind r addr n then some r else none
  else none

/-! ## Contents (R71) -/

/-- The unsigned value of a register (R17). -/
def State.regValue (s : State) : Reg → Nat
  | .cmd => s.cmd.toNat
  | .status => s.status.toNat
  | .rc => s.rc.toNat
  | .version => s.params.versionNum.toNat
  | .ctr => s.ops.ctr.toNat
  | .now => s.ops.now.toNat
  | .start => s.ops.start.toNat
  | .step => s.ops.step.toNat
  | .window => s.ops.window.toNat
  | .trunc => s.ops.trunc.toNat
  | .keyLen => s.ops.keyLen.toNat
  | .msgLen => s.ops.msgLen.toNat
  | .subLen => s.ops.subLen.toNat
  | .pos => s.res.pos.toNat
  | .matchCtr => s.res.matchCtr.toNat
  | .tctr => s.res.tctr.toNat
  | .binCode => s.res.binCode.toNat
  | .otpVal => s.res.otpVal.toNat
  | .offset => s.res.offset.toNat
  | .otpLen => s.res.otpLen.toNat
  | .tagLen => s.res.tagLen.toNat

/-- The state with value `v` in a register the host can write; the others are read-only and stay (R72, R77). -/
def State.setReg (s : State) (r : Reg) (v : Nat) : State :=
  match r with
  | .cmd => { s with cmd := BitVec.ofNat 32 v }
  | .ctr => { s with ops := { s.ops with ctr := BitVec.ofNat 64 v } }
  | .now => { s with ops := { s.ops with now := BitVec.ofNat 64 v } }
  | .start => { s with ops := { s.ops with start := BitVec.ofNat 64 v } }
  | .step => { s with ops := { s.ops with step := BitVec.ofNat 32 v } }
  | .window => { s with ops := { s.ops with window := BitVec.ofNat 64 v } }
  | .trunc => { s with ops := { s.ops with trunc := BitVec.ofNat 64 v } }
  | .keyLen => { s with ops := { s.ops with keyLen := BitVec.ofNat 32 v } }
  | .msgLen => { s with ops := { s.ops with msgLen := BitVec.ofNat 32 v } }
  | .subLen => { s with ops := { s.ops with subLen := BitVec.ofNat 32 v } }
  | .status => s
  | .rc => s
  | .version => s
  | .pos => s
  | .matchCtr => s
  | .tctr => s
  | .binCode => s
  | .otpVal => s
  | .offset => s
  | .otpLen => s
  | .tagLen => s

/-- The contents of a buffer. -/
def State.buffer (s : State) : Buf → Memory
  | .otp => s.res.otp
  | .sub => s.sub
  | .tag => s.res.tag
  | .msg => s.msg
  | .key => s.key

/-- The state with contents `m` in a buffer the host can write; `OTP` and `TAG` are read-only and stay (R72, R77). -/
def State.setBuffer (s : State) (b : Buf) (m : Memory) : State :=
  match b with
  | .otp => s
  | .tag => s
  | .sub => { s with sub := m }
  | .msg => { s with msg := m }
  | .key => { s with key := m }

/-- The content of byte `i` of a region: registers most significant byte first (R71). -/
def State.regionByte (s : State) (r : Region) (i : Nat) : Byte :=
  match r.place with
  | .reg g => (beBytes r.size (s.regValue g)).getD i 0
  | .buf b => (s.buffer b).read i

/-- `byte(a)`, the current content of the byte at address `a`; none at a reserved address (R72, R76). It is what is
stored, also in `KEY`; what a bus read shows is `State.busByte`. -/
def State.contentAt (s : State) (a : Nat) : Option Byte :=
  (regionAt s.params a).map fun r => s.regionByte r (a - r.base)

/-! ## `MemRead` and `MemWrite` (R76, R77, R78) -/

/-- What a bus read shows of byte `i` of a region: its content, or `0x00` where the region is write-only (R78). -/
def State.busByte (s : State) (r : Region) (i : Nat) : Byte :=
  match r.access with
  | .writeOnly => 0x00#8
  | .readWrite => s.regionByte r i
  | .readOnly => s.regionByte r i

/-- The value an accepted read of `n` bytes at `addr` in region `r` returns (R76). -/
def State.memRead (s : State) (r : Region) (addr n : Nat) : Nat :=
  beValue ((List.range n).map fun i => s.busByte r (addr - r.base + i))

/-- `bs` with the bytes from index `k` on replaced by `data`. -/
def splice (k : Nat) (data bs : List Byte) : List Byte := bs.take k ++ data ++ bs.drop (k + data.length)

/-- Region `r` with the bytes from index `k` on replaced by `data` (R77: exactly the bytes covered). -/
def State.storeRegion (s : State) (r : Region) (k : Nat) (data : List Byte) : State :=
  match r.place with
  | .reg g => s.setReg g (beValue (splice k data (beBytes r.size (s.regValue g))))
  | .buf b => s.setBuffer b ((s.buffer b).store k data)

/-- An accepted write of `data` at `addr` in region `r`; a write to a read-only region is ignored (R77). -/
def State.memWrite (s : State) (r : Region) (addr : Nat) (data : List Byte) : State :=
  match r.access with
  | .readOnly => s
  | .readWrite => s.storeRegion r (addr - r.base) data
  | .writeOnly => s.storeRegion r (addr - r.base) data

/-- The state with one more answer on the host's side of the bus. -/
def State.respond (s : State) (r : BusResponse) : State := { s with responses := r :: s.responses }

end Sys2Proof.Machine
end

