-- ==== Sys2Proof/Machine/Operands.lean ====
section
/-! DEFINITION. The operands as the commands read them: the byte sequences of the buffers, the signed timestamps, the
time-step derivation, and the parse of the submitted string (10_state.md R30 to R42; 20_memory.md R85;
43_otp_generate.md R219; 44_otp_validate.md R250, R251). -/

namespace Sys2Proof.Machine

/-- The secret, `KEY[0 .. KEYLEN-1]` (R36). -/
def State.secret (s : State) : List Byte := s.key.slice s.ops.keyLen.toNat

/-- The message of `HMAC`, `MSG[0 .. MSGLEN-1]` (R37). -/
def State.message (s : State) : List Byte := s.msg.slice s.ops.msgLen.toNat

/-- The submitted string, `SUB[0 .. SUBLEN-1]` (R38). -/
def State.submitted (s : State) : List Byte := s.sub.slice s.ops.subLen.toNat

/-- The timestamp condition that raises `INVALID_TIMESTAMP`: `STEP = 0` or `NOW < START`, signed (R219). -/
def timestampInvalid (s : State) : Bool :=
  decide (s.ops.step = 0 ∨ s.ops.now.toInt < s.ops.start.toInt)

/-- `floor((NOW - START) / STEP)` over the integers; used only when the timestamp is valid (R219). -/
def timeCounter (s : State) : Nat :=
  ((s.ops.now.toInt - s.ops.start.toInt) / (s.ops.step.toNat : Int)).toNat

/-- The window condition that raises `INVALID_COUNTER`: `WINDOW >= 2^63` (R251). -/
def windowTooLarge (s : State) : Bool := decide (2 ^ 63 ≤ s.ops.window.toNat)

/-- Is the byte an ASCII digit, `0x30 .. 0x39` (R250). -/
def isDigit (b : Byte) : Bool := decide (0x30 ≤ b.toNat ∧ b.toNat ≤ 0x39)

/-- `digits = SUBLEN - chk` over the integers; it may be negative (R250). -/
def submittedDigits (chk : Bool) (s : State) : Int := (s.ops.subLen.toNat : Int) - (chk.toNat : Int)

/-- The digit count and the submitted string, or the error their parse raises (R250). `SUB` is read only when the
digit count is 6 to 8. -/
def parseSubmitted (chk : Bool) (s : State) : Except ErrorKind (Nat × List Byte) :=
  if submittedDigits chk s < 6 ∨ 8 < submittedDigits chk s then .error .invalidDigits
  else if s.submitted.all isDigit then .ok ((submittedDigits chk s).toNat, s.submitted)
  else .error .invalidOtp

end Sys2Proof.Machine
end

