-- ==== Sys2Proof/Machine/Sha.lean ====
section
/-! DEFINITION. SHA-1, SHA-256 and SHA-512 as total functions on byte sequences (41_sha.md R150 to R176). -/

namespace Sys2Proof.Machine

/-- `L(alg)`, the output length in bytes (R150, R176). -/
def hashLen : HashAlg → Nat
  | .sha1 => 20
  | .sha256 => 32
  | .sha512 => 64

/-- `B(alg)`, the block size in bytes (R150, R176). -/
def hashBlock : HashAlg → Nat
  | .sha1 => 64
  | .sha256 => 64
  | .sha512 => 128

/-! ## Word operations and padding (R151, R152) -/

/-- `ROTL_W(x, n)` (R151). -/
def rotl {w : Nat} (x : BitVec w) (n : Nat) : BitVec w := (x <<< n) ||| (x >>> (w - n))

/-- `ROTR_W(x, n)` (R151). -/
def rotr {w : Nat} (x : BitVec w) (n : Nat) : BitVec w := (x >>> n) ||| (x <<< (w - n))

/-- `z = (B - F - 1 - l) mod B`, the number of zero bytes of the padding (R152). -/
def padZeros (B F l : Nat) : Nat := (((B : Int) - F - 1 - l) % B).toNat

/-- `pad(M)` for block size `B` and a length field of `F` bytes (R152). -/
def padMessage (B F : Nat) (m : List Byte) : List Byte :=
  m ++ [0x80#8] ++ List.replicate (padZeros B F m.length) 0x00#8 ++ beBytes F (8 * m.length)

/-- The first `n` consecutive pieces of `k` bytes of a sequence. -/
def pieces (k : Nat) : Nat → List Byte → List (List Byte)
  | 0, _ => []
  | n + 1, bs => bs.take k :: pieces k n (bs.drop k)

/-- The blocks of `B` bytes of the padded message, in order (R152). -/
def blocksOf (B F : Nat) (m : List Byte) : List (List Byte) :=
  pieces B ((padMessage B F m).length / B) (padMessage B F m)

/-- The sixteen big-endian words of `k` bytes of a block (R157, R163, R173). -/
def blockWords (w k : Nat) (block : List Byte) : List (BitVec w) :=
  (pieces k 16 block).map fun bs => BitVec.ofNat w (beValue bs)

/-- The message schedule, newest word first: `n` more words, each from the words before it. -/
def extendSchedule {w : Nat} (next : List (BitVec w) → BitVec w) : Nat → List (BitVec w) → List (BitVec w)
  | 0, ws => ws
  | n + 1, ws => extendSchedule next n (next ws :: ws)

/-- `W[t-k]` when the newest word `W[t-1]` stands first. -/
def back {w : Nat} (ws : List (BitVec w)) (k : Nat) : BitVec w := ws.getD (k - 1) 0

/-! ## SHA-1 (R155 to R157) -/

/-- The five words of the SHA-1 state. -/
structure Sha1State where
  (a b c d e : BitVec 32)
  deriving DecidableEq, Repr

/-- The initial state (R155). -/
def sha1Init : Sha1State :=
  ⟨0x67452301#32, 0xEFCDAB89#32, 0x98BADCFE#32, 0x10325476#32, 0xC3D2E1F0#32⟩

/-- `f_t(b, c, d)` (R156). -/
def sha1F (t : Nat) (b c d : BitVec 32) : BitVec 32 :=
  if t < 20 then (b &&& c) ||| (~~~b &&& d)
  else if t < 40 then b ^^^ c ^^^ d
  else if t < 60 then (b &&& c) ||| (b &&& d) ||| (c &&& d)
  else b ^^^ c ^^^ d

/-- `K_t` (R156). -/
def sha1K (t : Nat) : BitVec 32 :=
  if t < 20 then 0x5A827999#32
  else if t < 40 then 0x6ED9EBA1#32
  else if t < 60 then 0x8F1BBCDC#32
  else 0xCA62C1D6#32

/-- `W[t]` for `t` from 16 on (R157). -/
def sha1Next (ws : List (BitVec 32)) : BitVec 32 :=
  rotl (back ws 3 ^^^ back ws 8 ^^^ back ws 14 ^^^ back ws 16) 1

/-- `W[0..79]` of a block (R157). -/
def sha1Schedule (block : List Byte) : List (BitVec 32) :=
  (extendSchedule sha1Next 64 (blockWords 32 4 block).reverse).reverse

/-- Round `t` with schedule word `w` (R157). -/
def sha1Round (t : Nat) (w : BitVec 32) (s : Sha1State) : Sha1State :=
  { a := rotl s.a 5 + sha1F t s.b s.c s.d + s.e + sha1K t + w
    b := s.a
    c := rotl s.b 30
    d := s.c
    e := s.d }

/-- The rounds from `t` on, one per schedule word (R157). -/
def sha1Rounds : Nat → List (BitVec 32) → Sha1State → Sha1State
  | _, [], s => s
  | t, w :: ws, s => sha1Rounds (t + 1) ws (sha1Round t w s)

/-- One block step (R157). -/
def sha1Block (h : Sha1State) (block : List Byte) : Sha1State :=
  let s := sha1Rounds 0 (sha1Schedule block) h
  ⟨h.a + s.a, h.b + s.b, h.c + s.c, h.d + s.d, h.e + s.e⟩

/-- `SHA1(M)` (R157). -/
def sha1 (m : List Byte) : List Byte :=
  let h := (blocksOf 64 8 m).foldl sha1Block sha1Init
  [h.a, h.b, h.c, h.d, h.e].flatMap fun x => beBytes 4 x.toNat

/-! ## What SHA-256 and SHA-512 share, on words of either width (R162, R163, R172, R173) -/

/-- The eight words of a SHA-2 state. -/
structure Sha2State (w : Nat) where
  (a b c d e f g h : BitVec w)
  deriving DecidableEq, Repr

/-- `Ch(x, y, z)` (R162). -/
def sha2Ch {w : Nat} (x y z : BitVec w) : BitVec w := (x &&& y) ^^^ (~~~x &&& z)

/-- `Maj(x, y, z)` (R162). -/
def sha2Maj {w : Nat} (x y z : BitVec w) : BitVec w := (x &&& y) ^^^ (x &&& z) ^^^ (y &&& z)

/-- The `n` words of a table line written as one numeral, the leftmost word most significant. -/
def tableRow (w n line : Nat) : List (BitVec w) :=
  (List.range n).map fun j => BitVec.ofNat w (line >>> (w * (n - 1 - j)))

/-- The four mixing functions of one of the two hashes. -/
structure Sha2Fns (w : Nat) where
  (bsig0 bsig1 ssig0 ssig1 : BitVec w → BitVec w)

/-- `W[t]` for `t` from 16 on (R163, R173). -/
def sha2Next {w : Nat} (fn : Sha2Fns w) (ws : List (BitVec w)) : BitVec w :=
  fn.ssig1 (back ws 2) + back ws 7 + fn.ssig0 (back ws 15) + back ws 16

/-- One round with constant `k` and schedule word `x` (R163, R173). -/
def sha2Round {w : Nat} (fn : Sha2Fns w) (k x : BitVec w) (s : Sha2State w) : Sha2State w :=
  let t1 := s.h + fn.bsig1 s.e + sha2Ch s.e s.f s.g + k + x
  let t2 := fn.bsig0 s.a + sha2Maj s.a s.b s.c
  { a := t1 + t2, b := s.a, c := s.b, d := s.c, e := s.d + t1, f := s.e, g := s.f, h := s.g }

/-- The rounds, one per constant and schedule word (R163, R173). -/
def sha2Rounds {w : Nat} (fn : Sha2Fns w) : List (BitVec w) → List (BitVec w) → Sha2State w → Sha2State w
  | k :: ks, x :: xs, s => sha2Rounds fn ks xs (sha2Round fn k x s)
  | _, _, s => s

/-- One block step from a block's first sixteen words (R163, R173): the schedule has as many words as there are
round constants. -/
def sha2Block {w : Nat} (fn : Sha2Fns w) (ks : List (BitVec w)) (h : Sha2State w) (ws : List (BitVec w)) :
    Sha2State w :=
  let s := sha2Rounds fn ks (extendSchedule (sha2Next fn) (ks.length - 16) ws.reverse).reverse h
  ⟨h.a + s.a, h.b + s.b, h.c + s.c, h.d + s.d, h.e + s.e, h.f + s.f, h.g + s.g, h.h + s.h⟩

/-- `H0 || ... || H7`, each word as `k` big-endian bytes (R163, R173). -/
def Sha2State.bytes {w : Nat} (k : Nat) (s : Sha2State w) : List Byte :=
  [s.a, s.b, s.c, s.d, s.e, s.f, s.g, s.h].flatMap fun x => beBytes k x.toNat

/-! ## SHA-256 (R160 to R163) -/

/-- The initial state (R160). -/
def sha256Init : Sha2State 32 :=
  ⟨0x6a09e667#32, 0xbb67ae85#32, 0x3c6ef372#32, 0xa54ff53a#32,
   0x510e527f#32, 0x9b05688c#32, 0x1f83d9ab#32, 0x5be0cd19#32⟩

/-- The round constants, a numeral per line of the rule's table (R161). -/
def sha256K : List (BitVec 32) :=
  ([ 0x428a2f98_71374491_b5c0fbcf_e9b5dba5_3956c25b_59f111f1_923f82a4_ab1c5ed5,
     0xd807aa98_12835b01_243185be_550c7dc3_72be5d74_80deb1fe_9bdc06a7_c19bf174,
     0xe49b69c1_efbe4786_0fc19dc6_240ca1cc_2de92c6f_4a7484aa_5cb0a9dc_76f988da,
     0x983e5152_a831c66d_b00327c8_bf597fc7_c6e00bf3_d5a79147_06ca6351_14292967,
     0x27b70a85_2e1b2138_4d2c6dfc_53380d13_650a7354_766a0abb_81c2c92e_92722c85,
     0xa2bfe8a1_a81a664b_c24b8b70_c76c51a3_d192e819_d6990624_f40e3585_106aa070,
     0x19a4c116_1e376c08_2748774c_34b0bcb5_391c0cb3_4ed8aa4a_5b9cca4f_682e6ff3,
     0x748f82ee_78a5636f_84c87814_8cc70208_90befffa_a4506ceb_bef9a3f7_c67178f2 ] : List Nat).flatMap (tableRow 32 8)

/-- The mixing functions on 32-bit words (R162). -/
def sha256Fns : Sha2Fns 32 where
  bsig0 x := rotr x 2 ^^^ rotr x 13 ^^^ rotr x 22
  bsig1 x := rotr x 6 ^^^ rotr x 11 ^^^ rotr x 25
  ssig0 x := rotr x 7 ^^^ rotr x 18 ^^^ (x >>> 3)
  ssig1 x := rotr x 17 ^^^ rotr x 19 ^^^ (x >>> 10)

/-- `SHA256(M)` (R163). -/
def sha256 (m : List Byte) : List Byte :=
  ((blocksOf 64 8 m).foldl (fun h b => sha2Block sha256Fns sha256K h (blockWords 32 4 b)) sha256Init).bytes 4

/-! ## SHA-512 (R170 to R173) -/

/-- The initial state (R170). -/
def sha512Init : Sha2State 64 :=
  ⟨0x6a09e667f3bcc908#64, 0xbb67ae8584caa73b#64, 0x3c6ef372fe94f82b#64, 0xa54ff53a5f1d36f1#64,
   0x510e527fade682d1#64, 0x9b05688c2b3e6c1f#64, 0x1f83d9abfb41bd6b#64, 0x5be0cd19137e2179#64⟩

/-- The round constants, a numeral per line of the rule's table (R171). -/
def sha512K : List (BitVec 64) :=
  ([ 0x428a2f98d728ae22_7137449123ef65cd_b5c0fbcfec4d3b2f_e9b5dba58189dbbc,
     0x3956c25bf348b538_59f111f1b605d019_923f82a4af194f9b_ab1c5ed5da6d8118,
     0xd807aa98a3030242_12835b0145706fbe_243185be4ee4b28c_550c7dc3d5ffb4e2,
     0x72be5d74f27b896f_80deb1fe3b1696b1_9bdc06a725c71235_c19bf174cf692694,
     0xe49b69c19ef14ad2_efbe4786384f25e3_0fc19dc68b8cd5b5_240ca1cc77ac9c65,
     0x2de92c6f592b0275_4a7484aa6ea6e483_5cb0a9dcbd41fbd4_76f988da831153b5,
     0x983e5152ee66dfab_a831c66d2db43210_b00327c898fb213f_bf597fc7beef0ee4,
     0xc6e00bf33da88fc2_d5a79147930aa725_06ca6351e003826f_142929670a0e6e70,
     0x27b70a8546d22ffc_2e1b21385c26c926_4d2c6dfc5ac42aed_53380d139d95b3df,
     0x650a73548baf63de_766a0abb3c77b2a8_81c2c92e47edaee6_92722c851482353b,
     0xa2bfe8a14cf10364_a81a664bbc423001_c24b8b70d0f89791_c76c51a30654be30,
     0xd192e819d6ef5218_d69906245565a910_f40e35855771202a_106aa07032bbd1b8,
     0x19a4c116b8d2d0c8_1e376c085141ab53_2748774cdf8eeb99_34b0bcb5e19b48a8,
     0x391c0cb3c5c95a63_4ed8aa4ae3418acb_5b9cca4f7763e373_682e6ff3d6b2b8a3,
     0x748f82ee5defb2fc_78a5636f43172f60_84c87814a1f0ab72_8cc702081a6439ec,
     0x90befffa23631e28_a4506cebde82bde9_bef9a3f7b2c67915_c67178f2e372532b,
     0xca273eceea26619c_d186b8c721c0c207_eada7dd6cde0eb1e_f57d4f7fee6ed178,
     0x06f067aa72176fba_0a637dc5a2c898a6_113f9804bef90dae_1b710b35131c471b,
     0x28db77f523047d84_32caab7b40c72493_3c9ebe0a15c9bebc_431d67c49c100d4c,
     0x4cc5d4becb3e42b6_597f299cfc657e2a_5fcb6fab3ad6faec_6c44198c4a475817 ] : List Nat).flatMap (tableRow 64 4)

/-- The mixing functions on 64-bit words (R172). -/
def sha512Fns : Sha2Fns 64 where
  bsig0 x := rotr x 28 ^^^ rotr x 34 ^^^ rotr x 39
  bsig1 x := rotr x 14 ^^^ rotr x 18 ^^^ rotr x 41
  ssig0 x := rotr x 1 ^^^ rotr x 8 ^^^ (x >>> 7)
  ssig1 x := rotr x 19 ^^^ rotr x 61 ^^^ (x >>> 6)

/-- `SHA512(M)` (R173). -/
def sha512 (m : List Byte) : List Byte :=
  ((blocksOf 128 16 m).foldl (fun h b => sha2Block sha512Fns sha512K h (blockWords 64 8 b)) sha512Init).bytes 8

/-! ## Selection (R176) -/

/-- `HASH(alg, M)` (R176). -/
def hash : HashAlg → List Byte → List Byte
  | .sha1 => sha1
  | .sha256 => sha256
  | .sha512 => sha512

end Sys2Proof.Machine
end

