-- ==== Sys2Proof/Machine/Hmac.lean ====
section
/-! DEFINITION. The HMAC composition and the command `HMAC` (42_hmac.md R190 to R195). -/

namespace Sys2Proof.Machine

/-- `K0`: a key longer than the block is hashed, and the result is zero-padded to the block (R191). -/
def keyBlock (a : HashAlg) (key : List Byte) : List Byte :=
  let k := if hashBlock a < key.length then hash a key else key
  k ++ List.replicate (hashBlock a - k.length) 0x00#8

/-- `xor` of every byte with one pad byte (R192). -/
def maskWith (pad : Byte) (bs : List Byte) : List Byte := bs.map (· ^^^ pad)

/-- `inner`, the inner digest (R192). -/
def hmacInner (a : HashAlg) (key msg : List Byte) : List Byte :=
  hash a (maskWith 0x36#8 (keyBlock a key) ++ msg)

/-- `HMAC(alg, K, M)` (R192). -/
def hmac (a : HashAlg) (key msg : List Byte) : List Byte :=
  hash a (maskWith 0x5C#8 (keyBlock a key) ++ hmacInner a key msg)

/-- The results of `HMAC` (R195); `ALG = 3` raises `CRYPTO_ERROR` (R194). -/
def hmacBody (alg : HashSel) (s : State) : Except ErrorKind Results :=
  match alg with
  | .reserved => .error .cryptoError
  | .use a =>
    .ok { Results.zero with
          tag := Memory.ofBytes (hmac a s.secret s.message)
          tagLen := BitVec.ofNat 32 (hashLen a) }

/-- `HMAC` (R195). -/
def execHmac (alg : HashSel) (s : State) : Outcome := commandFrame true (hmacBody alg) s

end Sys2Proof.Machine
end

