-- ==== Sys2Proof/Machine/Otp.lean ====
section
/-! DEFINITION. The pure datapath from a counter to an OTP string: counter serialisation, offset selection, truncation,
modulo, decimal digits, Luhn check digit (43_otp_generate.md R210 to R218, R220). -/

namespace Sys2Proof.Machine

/-- `be8(c)`: the counter as eight bytes, most significant first (R210). -/
def be8 (c : Nat) : List Byte := beBytes 8 c

/-- The dynamic offset: the low nibble of the tag's last byte (R212). -/
def dynamicOffset (tag : List Byte) : Nat := (tag.getD (tag.length - 1) 0 &&& 0x0F#8).toNat

/-- Offset selection (R212). `none` is "dynamic", for the commands that have no truncation operand. -/
def selectOffset (tag : List Byte) : Option DWord → Nat
  | none => dynamicOffset tag
  | some tr => if tr.toInt < 0 ∨ 16 ≤ tr.toInt then dynamicOffset tag else tr.toNat

/-- `binCode`: four tag bytes, most significant first, without the top bit (R213). -/
def extractBinCode (tag : List Byte) (offset : Nat) : Nat :=
  (tag.getD offset 0 &&& 0x7F#8).toNat * 2 ^ 24 + (tag.getD (offset + 1) 0).toNat * 2 ^ 16 +
    (tag.getD (offset + 2) 0).toNat * 2 ^ 8 + (tag.getD (offset + 3) 0).toNat

/-- The ASCII byte of a decimal digit (R19, R216). -/
def digitByte (d : Nat) : Byte := BitVec.ofNat 8 (0x30 + d)

/-- `dec(v, n)`: the `n` ASCII digits of `v`, leading zeros kept (R216). -/
def decimal (v n : Nat) : List Byte :=
  (List.range n).map fun j => digitByte (v / 10 ^ (n - 1 - j) % 10)

/-- What digit `j` of `v`, counted from the least significant, adds to the Luhn total (R218). -/
def luhnTerm (v j : Nat) : Nat :=
  let x := v / 10 ^ j % 10
  if j % 2 = 0 then (if 9 < 2 * x then 2 * x - 9 else 2 * x) else x

/-- The Luhn total over the `n` digits of `v` (R218). -/
def luhnTotal (v n : Nat) : Nat := ((List.range n).map (luhnTerm v)).sum

/-- `LUHN(v, n)` (R218). -/
def luhn (v n : Nat) : Nat := (10 - luhnTotal v n % 10) % 10

/-- The OTP string (R217). -/
def otpString (otp digits : Nat) (chk : Bool) : List Byte :=
  if chk then decimal otp digits ++ decimal (luhn otp digits) 1 else decimal otp digits

/-- What `OTPGEN` returns (R220). -/
structure Generated where
  tag : List Byte
  offset : Nat
  binCode : Nat
  otp : Nat
  str : List Byte
  deriving DecidableEq, Repr

/-- `OTPGEN(alg, K, c, tr, digits, chk)` (R220). -/
def otpGen (a : HashAlg) (key : List Byte) (c : Nat) (tr : Option DWord) (digits : Nat) (chk : Bool) : Generated :=
  let tag := hmac a key (be8 c)
  let offset := selectOffset tag tr
  let binCode := extractBinCode tag offset
  let otp := binCode % 10 ^ digits
  { tag := tag, offset := offset, binCode := binCode, otp := otp, str := otpString otp digits chk }

end Sys2Proof.Machine
end

