-- ==== Sys2Proof/Machine/Generate.lean ====
section
/-! DEFINITION. The generation commands `HOTP.GEN` and `TOTP.GEN` (43_otp_generate.md R221, R225, R227). -/

namespace Sys2Proof.Machine

/-- The results a generation command writes from what `OTPGEN` returned (R225, R227); `TCTR` is the caller's. -/
def Generated.results (g : Generated) : Results :=
  { Results.zero with
    tag := Memory.ofBytes g.tag
    tagLen := BitVec.ofNat 32 g.tag.length
    offset := BitVec.ofNat 32 g.offset
    binCode := BitVec.ofNat 32 g.binCode
    otpVal := BitVec.ofNat 32 g.otp
    otp := Memory.ofBytes g.str
    otpLen := BitVec.ofNat 32 g.str.length }

/-- The results of `HOTP.GEN` or the error it raises (R225). -/
def hotpGenBody (digits : Nat) (chk : Bool) (s : State) : Except ErrorKind Results :=
  if digits < 6 ∨ 8 < digits then .error .invalidDigits
  else .ok (otpGen .sha1 s.secret s.ops.ctr.toNat (some s.ops.trunc) digits chk).results

/-- `HOTP.GEN` (R225). -/
def execHotpGen (digits : Nat) (chk : Bool) (s : State) : Outcome := commandFrame false (hotpGenBody digits chk) s

/-- The results of `TOTP.GEN` or the error it raises, its checks in the order of R227. -/
def totpGenBody (alg : HashSel) (digits : Nat) (s : State) : Except ErrorKind Results :=
  if digits < 6 ∨ 8 < digits then .error .invalidDigits
  else if timestampInvalid s then .error .invalidTimestamp
  else
    match alg with
    | .reserved => .error .cryptoError
    | .use a =>
      .ok { (otpGen a s.secret (timeCounter s) none digits false).results with
            tctr := BitVec.ofNat 64 (timeCounter s) }

/-- `TOTP.GEN` (R227). -/
def execTotpGen (alg : HashSel) (digits : Nat) (s : State) : Outcome := commandFrame false (totpGenBody alg digits) s

end Sys2Proof.Machine
end

