-- ==== Sys2Proof/Machine/Nop.lean ====
section
/-! DEFINITION. The command `NOP` (40_command_frame.md R138): the frame stops before the length check and before
`clear_results`. -/

namespace Sys2Proof.Machine

/-- `NOP` (R138): `CMD` holds the word already (the frame's first line), and nothing else changes. -/
def execNop (s : State) : Outcome := .next s

end Sys2Proof.Machine
end

