-- ==== Sys2Proof/Machine/Validate.lean ====
section
/-! DEFINITION. The validation commands `HOTP.VAL` and `TOTP.VAL` and their searches (44_otp_validate.md R250 to R258).
A search recurses on the number of candidates still allowed, which `WINDOW` bounds (R325). -/

namespace Sys2Proof.Machine

/-- The largest counter, `2^64 - 1`. -/
def maxCounter : Nat := 2 ^ 64 - 1

/-- Does candidate `c` generate the submitted string; truncation is always dynamic (R252). -/
def candidateMatches (a : HashAlg) (key : List Byte) (digits : Nat) (chk : Bool) (sub : List Byte) (c : Nat) : Bool :=
  (otpGen a key c none digits chk).str == sub

/-! ## HOTP.VAL (R253, R254) -/

/-- The candidates `start + i`, `start + i + 1`, ... while any of the `n` left remain: the first match as index and
counter, `INVALID_COUNTER` when a candidate beyond `2^64 - 1` is reached (R254), `INVALID_OTP` when none matches. -/
def hotpSearch (hit : Nat → Bool) (start : Nat) : Nat → Nat → Except ErrorKind (Nat × Nat)
  | 0, _ => .error .invalidOtp
  | n + 1, i =>
    if maxCounter < start + i then .error .invalidCounter
    else if hit (start + i) then .ok (i, start + i)
    else hotpSearch hit start n (i + 1)

/-- The results of a successful `HOTP.VAL` (R253). -/
def hotpValResults (m : Nat × Nat) : Results :=
  { Results.zero with pos := BitVec.ofNat 64 m.1, matchCtr := BitVec.ofNat 64 m.2 }

/-- The results of `HOTP.VAL` or the error it raises (R253); the window is inclusive, `WINDOW + 1` candidates. -/
def hotpValBody (chk : Bool) (s : State) : Except ErrorKind Results :=
  match parseSubmitted chk s with
  | .error e => .error e
  | .ok (digits, sub) =>
    if windowTooLarge s then .error .invalidCounter
    else
      match hotpSearch (candidateMatches .sha1 s.secret digits chk sub) s.ops.ctr.toNat
          (s.ops.window.toNat + 1) 0 with
      | .error e => .error e
      | .ok m => .ok (hotpValResults m)

/-- `HOTP.VAL` (R253). -/
def execHotpVal (chk : Bool) (s : State) : Outcome := commandFrame false (hotpValBody chk) s

/-! ## TOTP.VAL (R257, R258) -/

/-- The candidate at signed offset `p` from the centre, when it is a counter and matches; a candidate below 0 or above
`2^64 - 1` is skipped (R257). -/
def totpTry (hit : Nat → Bool) (center : Nat) (p : Int) : Option (Int × Nat) :=
  if 0 ≤ (center : Int) + p ∧ (center : Int) + p ≤ (maxCounter : Int) then
    if hit ((center : Int) + p).toNat then some (p, ((center : Int) + p).toNat) else none
  else none

/-- The offsets `+k`, `-k`, `+(k+1)`, `-(k+1)`, ... for the `n` distances left (R257). -/
def totpSearchFrom (hit : Nat → Bool) (center : Nat) : Nat → Nat → Option (Int × Nat)
  | 0, _ => none
  | n + 1, k =>
    match totpTry hit center (k : Int) with
    | some m => some m
    | none =>
      match totpTry hit center (-(k : Int)) with
      | some m => some m
      | none => totpSearchFrom hit center n (k + 1)

/-- The search of `TOTP.VAL`: offset 0 first, then each distance from 1 to the window, plus before minus (R257). -/
def totpSearch (hit : Nat → Bool) (center window : Nat) : Option (Int × Nat) :=
  match totpTry hit center 0 with
  | some m => some m
  | none => totpSearchFrom hit center window 1

/-- The results of a successful `TOTP.VAL` (R258): `POS` is the signed offset in two's complement. -/
def totpValResults (center : Nat) (m : Int × Nat) : Results :=
  { Results.zero with
    pos := BitVec.ofInt 64 m.1, matchCtr := BitVec.ofNat 64 m.2, tctr := BitVec.ofNat 64 center }

/-- The results of `TOTP.VAL` or the error it raises, its checks in the order of R258. -/
def totpValBody (alg : HashSel) (s : State) : Except ErrorKind Results :=
  match parseSubmitted false s with
  | .error e => .error e
  | .ok (digits, sub) =>
    if timestampInvalid s then .error .invalidTimestamp
    else if windowTooLarge s then .error .invalidCounter
    else
      match alg with
      | .reserved => .error .cryptoError
      | .use a =>
        match totpSearch (candidateMatches a s.secret digits false sub) (timeCounter s) s.ops.window.toNat with
        | none => .error .invalidOtp
        | some m => .ok (totpValResults (timeCounter s) m)

/-- `TOTP.VAL` (R258). -/
def execTotpVal (alg : HashSel) (s : State) : Outcome := commandFrame false (totpValBody alg) s

end Sys2Proof.Machine
end

