-- ==== Sys2Proof/Machine/Dispatch.lean ====
section
/-! DEFINITION. One arm per command: the frame of 40_command_frame.md R131 from a decoded word on. -/

namespace Sys2Proof.Machine

def exec (i : Instr) (s : State) : Host.Outcome State Fault Refusal :=
  match i with
  | .nop => Sys2Proof.Machine.execNop s
  | .hmac alg => Sys2Proof.Machine.execHmac alg s
  | .hotpGen digits chk => Sys2Proof.Machine.execHotpGen digits chk s
  | .hotpVal chk => Sys2Proof.Machine.execHotpVal chk s
  | .totpGen alg digits => Sys2Proof.Machine.execTotpGen alg digits s
  | .totpVal alg => Sys2Proof.Machine.execTotpVal alg s

end Sys2Proof.Machine
end

