-- ==== Sys2Proof/Machine/Port.lean ====
section
/-! DEFINITION. What one action of the host does: reset, a read, a write, and the command that a write to `CMD` runs
before it is complete (20_memory.md R75 to R80; 40_command_frame.md R130 to R132; 70_reset_and_hazards.md R310). -/

namespace Sys2Proof.Machine

/-- The frame of the word that `CMD` holds (R131): an illegal word sets `STATUS.ILLCMD` and stops (R132). -/
def runCommand (s : State) : Outcome :=
  match decodeWord s.cmd with
  | .error _ => .next s.setIllCmd
  | .ok i => exec i s

/-- `RESET`: every piece of the block's state to its reset value (R310, R311). The parameters are no state, and the
host keeps its program and the answers it has had. -/
def hostReset (s : State) : State :=
  { State.resetWith s.params with pending := s.pending, responses := s.responses }

/-- `MemRead(addr, n)` (R76), or a bus error with no data (R75). -/
def hostRead (addr n : Nat) (s : State) : State :=
  match acceptedRegion s.params .read addr n with
  | none => s.respond .busError
  | some r => s.respond (.data (s.memRead r addr n))

/-- `MemWrite(addr, n, v)` (R77), or a bus error that changes nothing and starts no command (R75). A write to `CMD`
runs the command frame once the word is stored. -/
def hostWrite (addr : Nat) (data : List Byte) (s : State) : Outcome :=
  match acceptedRegion s.params .write addr data.length with
  | none => .next (s.respond .busError)
  | some r =>
    if r.place = .reg .cmd then runCommand ((s.memWrite r addr data).respond .written)
    else .next ((s.memWrite r addr data).respond .written)

/-- One action of the host. -/
def hostAction (a : HostAction) (s : State) : Outcome :=
  match a with
  | .reset => .next (hostReset s)
  | .read addr n => .next (hostRead addr n s)
  | .write addr data => hostWrite addr data s

/-- The action `WR4 CMD, w` (R109). -/
def commandAction (w : Word) : HostAction := .write 0x00000 (beBytes 4 w.toNat)

end Sys2Proof.Machine
end

