-- ==== Sys2Proof/Machine/Step.lean ====
section
/-! DEFINITION. One step of the machine: the next access of the host, with the command it starts (20_memory.md R80;
40_command_frame.md R130). -/

namespace Sys2Proof.Machine

/-- The oldest pending host action takes effect; with none pending the engine is idle (R292) and nothing changes. -/
def step (s : State) : Host.Outcome State Fault Refusal :=
  match s.pending with
  | [] => .next s
  | a :: rest => hostAction a { s with pending := rest }

/-- `s` with the write of the command word `w` to `CMD` as the host's next action, so that the next step runs it. The
block fetches nothing (R83): the word is the data of that write (log 1). Bits above `nbits` are zero. -/
def State.withFetchWord (s : State) (nbits w : Nat) : State :=
  { s with pending := commandAction (BitVec.ofNat 32 (w % 2 ^ nbits)) :: s.pending }

end Sys2Proof.Machine
end

