-- ==== Sys2Proof/Machine/HostProgram.lean ====
section
/-! DEFINITION. The assembler syntax of host programs: each action and pseudo-instruction as the bus accesses it stands
for (30_encoding.md R108, R109), and loading a program as the host's pending accesses (log 1). -/

namespace Sys2Proof.Machine

/-- A host program is a list of host actions (R108). -/
abbrev HostProgram := List HostAction

/-- `WRn a, v`: `MemWrite(a, n, v)` (R108). -/
def wr (n a v : Nat) : HostAction := .write a (beBytes n v)

/-- `RDn a`: `MemRead(a, n)` (R108). -/
def rd (n a : Nat) : HostAction := .read a n

/-- A command mnemonic: `WR4 CMD, word` (R109). -/
def command (i : Instr) : HostAction := commandAction (encode i)

/-- `WRX buf, hh hh ...`: one `WR1` per byte (R109). -/
def wrx (buf : Nat) : List Byte → HostProgram
  | [] => []
  | b :: bs => .write buf [b] :: wrx (buf + 1) bs

/-- The ASCII bytes of a text (R19). -/
def ascii (text : List Char) : List Byte := text.map fun c => BitVec.ofNat 8 c.toNat

/-- `WRS buf, "text"`: one `WR1` per character (R109). -/
def wrs (buf : Nat) (text : List Char) : HostProgram := wrx buf (ascii text)

/-- `SETKEY "text"`: `WRS KEY, "text"` then `WR4 KEYLEN, len(text)` (R109). -/
def setKey (text : List Char) : HostProgram := wrs 0x20000 text ++ [wr 4 0x00040 text.length]

/-- `s` with the program `p` as the host's accesses still to come (R322: a run is the sequence of its accesses). -/
def State.load (s : State) (p : HostProgram) : State := { s with pending := p }

end Sys2Proof.Machine
end

