-- ==== Sys2Proof/Safety.lean ====
section
/-! DEFINITION. What a good run is (70_reset_and_hazards.md R322), and the invariant of the block: what every register
and buffer may hold (10_state.md R24, R25, R40 to R54; 40_command_frame.md R134). -/

namespace Sys2Proof.Machine

/-! ## Runs (R322) -/

/-- The state after the accesses of `p`, from `s` with no answers recorded yet: the run ends after the last access. -/
def runProgram (s : State) (p : HostProgram) : Outcome :=
  Sys2Proof.core.run p.length { s.load p with responses := [] }

/-- A run is good when no access was refused and `STATUS = 0` at the end (R322). -/
def GoodRun (s : State) (p : HostProgram) : Prop :=
  ∃ t, runProgram s p = .next t ∧ BusResponse.busError ∉ t.responses ∧ t.status = 0

/-! ## The invariant -/

/-- Every listed index of a buffer is below `n`. -/
def Memory.Within (n : Nat) (m : Memory) : Prop := ∀ c ∈ m, c.1 < n

/-- The values the block writes to `RC` (R25, R281). -/
def legalRc : List Word :=
  [0x00000000#32, 0xFFFFFFFF#32, 0xFFFFFFFE#32, 0xFFFFFFFA#32, 0xFFFFFFF7#32, 0xFFFFFFF6#32]

/-- What the result registers and buffers may hold (R48 to R54). -/
structure Results.Legal (r : Results) : Prop where
  /-- Bit 31 of `BINCODE` is zero (R48). -/
  binCode : r.binCode.toNat < 2 ^ 31
  /-- `OTPVAL < 10^8` (R49). -/
  otpVal : r.otpVal.toNat < 10 ^ 8
  /-- `OFFSET` is 0 to 15 (R50). -/
  offset : r.offset.toNat < 16
  /-- `OTPLEN` is zero, or 6 to 9 (R51). -/
  otpLen : r.otpLen.toNat = 0 ∨ (6 ≤ r.otpLen.toNat ∧ r.otpLen.toNat ≤ 9)
  /-- `TAGLEN` is zero, 20, 32 or 64 (R53). -/
  tagLen : r.tagLen.toNat = 0 ∨ r.tagLen.toNat = 20 ∨ r.tagLen.toNat = 32 ∨ r.tagLen.toNat = 64
  otpWf : r.otp.wf
  tagWf : r.tag.wf
  /-- `OTP[OTPLEN .. 15]` are `0x00` (R52). -/
  otpWithin : r.otp.Within r.otpLen.toNat
  /-- `TAG[TAGLEN .. 63]` are `0x00` (R54). -/
  tagWithin : r.tag.Within r.tagLen.toNat
  /-- `OTP[0 .. OTPLEN-1]` are ASCII digits (R52). -/
  otpDigits : ∀ j < r.otpLen.toNat, isDigit (r.otp.read j) = true

/-- The invariant of the block. -/
structure State.Inv (s : State) : Prop where
  /-- The parameters meet the constraints of R10. -/
  params : s.params.wf
  /-- `STATUS[31:2]` is zero (R24). -/
  status : s.status.toNat < 4
  /-- `RC` holds a code the block writes (R25). -/
  rc : s.rc ∈ legalRc
  /-- After a failed command every result is zero (R134). -/
  failed : s.rc ≠ 0 → s.res = Results.zero
  keyWf : s.key.wf
  msgWf : s.msg.wf
  subWf : s.sub.wf
  /-- `KEY` has `KEY_MAX` bytes (R40). -/
  keyWithin : s.key.Within s.params.keyMax
  /-- `MSG` has `MSG_MAX` bytes (R41). -/
  msgWithin : s.msg.Within s.params.msgMax
  /-- `SUB` has 16 bytes (R42). -/
  subWithin : s.sub.Within 16
  results : s.res.Legal

end Sys2Proof.Machine
end

