-- ==== Sys2Proof/Certificates/Slice0/Obligations.lean ====
section
/-! DEFINITION. The statements about the block, from the numbered rules of the spec. Each says which rules it states.
The accesses of the host and the answers of the bus are rules of the spec (R74 to R77); that they stand in the state, as
`pending` and `responses`, is the model's choice (log 1). -/

namespace Sys2Proof.Machine

/-! ## Words the statements share -/

/-- `length_refused`, from the words of R133: a command that is not `NOP` with `KEYLEN > KEY_MAX`, or `HMAC` with
`MSGLEN > MSG_MAX`. -/
def LengthRefusedFor (i : Instr) (s : State) : Prop :=
  (i ≠ .nop ∧ s.params.keyMax < s.ops.keyLen.toNat) ∨
  ((∃ alg, i = .hmac alg) ∧ s.params.msgMax < s.ops.msgLen.toNat)

/-- The host's next action is the 4-byte write of `w` to `CMD`, and `rest` follows it. -/
def NextIsCommand (s : State) (w : Word) (rest : List HostAction) : Prop :=
  s.pending = .write 0x00000 (beBytes 4 w.toNat) :: rest

/-- The state in which the frame of `w` starts: the word is in `CMD` and its write has been answered. -/
def withCommand (s : State) (w : Word) (rest : List HostAction) : State :=
  { s with cmd := w, pending := rest, responses := .written :: s.responses }

/-- `s` after a command that ended with `RC = rc` and results `r`: nothing else changed. -/
def withOutcome (s : State) (rc : Word) (r : Results) : State := { s with rc := rc, res := r }

/-- `b` holds exactly the bytes `bs` from index 0 on, and `0x00` beyond. -/
def HoldsBytes (b : Memory) (bs : List Byte) : Prop := ∀ j, b.read j = bs.getD j 0x00#8

/-- Which results a command that completes leaves zero, by the table of R136. -/
def UnwrittenResultsZero (i : Instr) (r : Results) : Prop :=
  match i with
  | .nop => True
  | .hmac _ => r.offset = 0 ∧ r.binCode = 0 ∧ r.otpVal = 0 ∧ r.otp = [] ∧ r.otpLen = 0 ∧ r.tctr = 0 ∧ r.pos = 0 ∧ r.matchCtr = 0
  | .hotpGen _ _ => r.tctr = 0 ∧ r.pos = 0 ∧ r.matchCtr = 0
  | .totpGen _ _ => r.pos = 0 ∧ r.matchCtr = 0
  | .hotpVal _ =>
    r.tag = [] ∧ r.tagLen = 0 ∧ r.offset = 0 ∧ r.binCode = 0 ∧ r.otpVal = 0 ∧ r.otp = [] ∧ r.otpLen = 0 ∧ r.tctr = 0
  | .totpVal _ =>
    r.tag = [] ∧ r.tagLen = 0 ∧ r.offset = 0 ∧ r.binCode = 0 ∧ r.otpVal = 0 ∧ r.otp = [] ∧ r.otpLen = 0

/-- The access is accepted, from the words of R74 (a) to (e). -/
def AcceptedByRule (c : Config) (kind : AccessKind) (addr n : Nat) : Prop :=
  (n = 1 ∨ n = 2 ∨ n = 4 ∨ n = 8) ∧ addr % n = 0 ∧ addr + n - 1 ≤ 0x3FFFF ∧
  (∃ r ∈ memoryMap c, ∀ i < n, r.base ≤ addr + i ∧ addr + i < r.base + r.size) ∧
  (kind = .write → (∃ i < n, addr + i < 4) → addr = 0x00000 ∧ n = 4)

/-- What a bus read shows at address `a`: `0x00` in `KEY`, else the content (R76, R78). -/
def shownAt (s : State) (a : Nat) : Byte := if 0x20000 ≤ a then 0x00#8 else (s.contentAt a).getD 0x00#8

/-- The byte at `a` belongs to a register or buffer the host can write. -/
def WritableAt (c : Config) (a : Nat) : Prop := ∃ r, regionAt c a = some r ∧ r.access ≠ .readOnly

/-- The string the candidate `c` generates in a validation: dynamic truncation (R252). -/
def candidateString (a : HashAlg) (s : State) (digits : Nat) (chk : Bool) (c : Nat) : List Byte :=
  (otpGen a s.secret c none digits chk).str

/-- The submitted string is 6 to 8 digits long, plus the check digit, and all its characters are digits (R250). -/
def SubmittedOk (chk : Bool) (s : State) : Prop :=
  6 + chk.toNat ≤ s.ops.subLen.toNat ∧ s.ops.subLen.toNat ≤ 8 + chk.toNat ∧
  ∀ j < s.ops.subLen.toNat, 0x30 ≤ (s.sub.read j).toNat ∧ (s.sub.read j).toNat ≤ 0x39

/-- `STEP` and the timestamps are valid (R219). -/
def TimestampOk (s : State) : Prop := s.ops.step ≠ 0 ∧ s.ops.start.toInt ≤ s.ops.now.toInt

/-- The time-derived counter, `floor((NOW - START) / STEP)` (R219). -/
def centerOf (s : State) : Int := (s.ops.now.toInt - s.ops.start.toInt) / (s.ops.step.toNat : Int)

/-- The signed offset `p` gives a counter, and that counter's string is the submitted one (R257, R258). -/
def TotpHit (a : HashAlg) (s : State) (p : Int) : Prop :=
  0 ≤ centerOf s + p ∧ centerOf s + p < 2 ^ 64 ∧
  candidateString a s s.ops.subLen.toNat false (centerOf s + p).toNat = s.submitted

/-- The place of offset `p` in the order 0, +1, -1, +2, -2, ... (R257). -/
def searchRank (p : Int) : Int := if 0 < p then 2 * p - 1 else -2 * p

/-- The offsets in the order of R257: `0, +1, -1, ..., +w, -w`. -/
def offsetsInOrder (w : Nat) : List Int :=
  0 :: (List.range w).flatMap fun k => [((k + 1 : Nat) : Int), -((k + 1 : Nat) : Int)]

/-- The usual Luhn sum of the `n` digits of `v`: from the right, every second digit doubled, the rightmost not. -/
def luhnTestSum (v n : Nat) : Nat :=
  ((List.range n).map fun j =>
    if j % 2 = 1 then (if 9 < 2 * (v / 10 ^ j % 10) then 2 * (v / 10 ^ j % 10) - 9 else 2 * (v / 10 ^ j % 10))
    else v / 10 ^ j % 10).sum

/-- `r` holds what `OTPGEN(a, K, c, tr, digits, chk)` returns, each value in the register or buffer that is named for it
(R225, R227). -/
def HoldsGenerated (r : Results) (a : HashAlg) (s : State) (c : Nat) (tr : Option DWord) (digits : Nat) (chk : Bool) : Prop :=
  let g := otpGen a s.secret c tr digits chk
  HoldsBytes r.tag g.tag ∧ r.tagLen.toNat = hashLen a ∧ r.offset.toNat = g.offset ∧ r.binCode.toNat = g.binCode ∧
  r.otpVal.toNat = g.otp ∧ HoldsBytes r.otp g.str ∧ r.otpLen.toNat = digits + chk.toNat

/-- What the results a completed command defines hold, in terms of its inputs: the `w` entries of the table of R136, with
the values of the command rules. -/
def DefinedResultsWritten (i : Instr) (s : State) (r : Results) : Prop :=
  match i with
  | .nop => True
  | .hmac alg => ∃ a, alg = .use a ∧ HoldsBytes r.tag (hmac a s.secret s.message) ∧ r.tagLen.toNat = hashLen a
  | .hotpGen digits chk => HoldsGenerated r .sha1 s s.ops.ctr.toNat (some s.ops.trunc) digits chk
  | .hotpVal chk =>
    candidateString .sha1 s (s.ops.subLen.toNat - chk.toNat) chk r.matchCtr.toNat = s.submitted ∧
    r.matchCtr.toNat = s.ops.ctr.toNat + r.pos.toNat ∧ r.pos.toNat ≤ s.ops.window.toNat
  | .totpGen alg digits =>
    ∃ a, alg = .use a ∧ (r.tctr.toNat : Int) = centerOf s ∧ HoldsGenerated r a s r.tctr.toNat none digits false
  | .totpVal alg =>
    ∃ a, alg = .use a ∧ candidateString a s s.ops.subLen.toNat false r.matchCtr.toNat = s.submitted ∧
      (r.tctr.toNat : Int) = centerOf s ∧ (r.matchCtr.toNat : Int) = r.tctr.toNat + r.pos.toInt ∧
      r.pos.toInt.natAbs ≤ s.ops.window.toNat

/-- The rows of the table of R72 that are not reserved, in its order: address, bytes, name, bus access. -/
def rowsOfR72 (c : Config) : List Region :=
  let row (base size : Nat) (place : Place) (access : Access) : Region := { base, size, place, access }
  [ row 0x00000 4 (.reg .cmd) .readWrite, row 0x00004 4 (.reg .status) .readOnly, row 0x00008 4 (.reg .rc) .readOnly,
    row 0x0000C 4 (.reg .version) .readOnly, row 0x00010 8 (.reg .ctr) .readWrite, row 0x00018 8 (.reg .now) .readWrite,
    row 0x00020 8 (.reg .start) .readWrite, row 0x00028 4 (.reg .step) .readWrite, row 0x00030 8 (.reg .window) .readWrite,
    row 0x00038 8 (.reg .trunc) .readWrite, row 0x00040 4 (.reg .keyLen) .readWrite, row 0x00044 4 (.reg .msgLen) .readWrite,
    row 0x00048 4 (.reg .subLen) .readWrite, row 0x00050 8 (.reg .pos) .readOnly, row 0x00058 8 (.reg .matchCtr) .readOnly,
    row 0x00060 8 (.reg .tctr) .readOnly, row 0x00068 4 (.reg .binCode) .readOnly, row 0x0006C 4 (.reg .otpVal) .readOnly,
    row 0x00070 4 (.reg .offset) .readOnly, row 0x00074 4 (.reg .otpLen) .readOnly, row 0x00078 4 (.reg .tagLen) .readOnly,
    row 0x00080 16 (.buf .otp) .readOnly, row 0x00090 16 (.buf .sub) .readWrite, row 0x000C0 64 (.buf .tag) .readOnly,
    row 0x10000 c.msgMax (.buf .msg) .readWrite, row 0x20000 c.keyMax (.buf .key) .writeOnly ]

/-- The addresses the table of R72 calls reserved, and those beyond the 18-bit space. -/
def ReservedByR72 (c : Config) (a : Nat) : Prop :=
  (0x0002C ≤ a ∧ a < 0x00030) ∨ (0x0004C ≤ a ∧ a < 0x00050) ∨ (0x0007C ≤ a ∧ a < 0x00080) ∨ (0x000A0 ≤ a ∧ a ≤ 0x000BF) ∨
  (0x00100 ≤ a ∧ a ≤ 0x0FFFF) ∨ (0x10000 + c.msgMax ≤ a ∧ a ≤ 0x1FFFF) ∨ 0x20000 + c.keyMax ≤ a

/-- The `n` bytes at address `a` are those of the `n`-byte register with content `v`, most significant first. -/
def RegisterAt (s : State) (a n v : Nat) : Prop :=
  ∀ i < n, s.contentAt (a + i) = some (BitVec.ofNat 8 (v / 256 ^ (n - 1 - i) % 256))

/-- The `n` bytes at address `a` are the first `n` of the buffer contents `m`. -/
def BufferAt (s : State) (a n : Nat) (m : Memory) : Prop := ∀ i < n, s.contentAt (a + i) = some (m.read i)

/-- The first 20 bytes of `KEY` are the vector secret `"12345678901234567890"` and `KEYLEN` is 20. -/
def keyK20 : Memory :=
  Memory.ofBytes (ascii ['1','2','3','4','5','6','7','8','9','0','1','2','3','4','5','6','7','8','9','0'])

/-- The reset state with that secret. -/
def stateK20 : State :=
  { State.reset with key := keyK20, ops := { Operands.reset with keyLen := 20 } }

end Sys2Proof.Machine

open Sys2Proof Sys2Proof.Machine

/-! ## Encoding (30_encoding.md) -/

/-- Words written out from R101 decode to the commands they stand for, and the illegal words of R110 are rejected by
name. Rests on R101, R104, R105, R110. -/
def Obligations.SpecWordsDecodeAsListed : Prop :=
  decodeWord 0b00000000000000000000000000000000#32 = .ok .nop ∧
  decodeWord 0b00000000000000000000000000100001#32 = .ok (.hmac (.use .sha512)) ∧
  decodeWord 0b00000000000000000000000000110001#32 = .ok (.hmac .reserved) ∧
  decodeWord 0b00000000000000000000011000000010#32 = .ok (.hotpGen 6 false) ∧
  decodeWord 0b00000000000000000001100000000010#32 = .ok (.hotpGen 8 true) ∧
  decodeWord 0b00000000000000000001000000000011#32 = .ok (.hotpVal true) ∧
  decodeWord 0b00000000000000000000100000010100#32 = .ok (.totpGen (.use .sha256) 8) ∧
  decodeWord 0b00000000000000000000000000000101#32 = .ok (.totpVal (.use .sha1)) ∧
  decodeWord 0x00000006#32 = .error .reservedOp ∧
  decodeWord 0x00002002#32 = .error .reservedBitSet ∧
  decodeWord 0x00000042#32 = .error .reservedBitSet ∧
  decodeWord 0x00000010#32 = .error .unusedFieldSet

/-- Decoding the word, or the bytes, of any well-formed command gives the command back. Rests on R101, R104. -/
def Obligations.DecodeOfEncodeIsTheCommand : Prop :=
  ∀ i : Instr, i.wf = true → decodeWord (encode i) = .ok i ∧ decodeBytes (encodeBytes i) = .ok i

/-- A word that decodes is the word of the well-formed command it decodes to: every legal word has one meaning and
every bit of it is accounted for. Rests on R101, R104, R105. -/
def Obligations.EncodeOfDecodeIsTheWord : Prop :=
  ∀ (w : Word) (i : Instr), decodeWord w = .ok i → i.wf = true ∧ encode i = w

/-- R104: which words are legal, by their fields; each row's words decode as its command; there are 107. -/
def Obligations.LegalWordsAreThoseOfTheTable : Prop :=
  (∀ w : Word, (∃ i, decodeWord w = .ok i) ↔
    w.extractLsb' 6 2 = 0 ∧ w.extractLsb' 13 19 = 0 ∧
    ((w.extractLsb' 0 4 = 0 ∧ w.extractLsb' 4 2 = 0 ∧ w.extractLsb' 8 4 = 0 ∧ w.extractLsb' 12 1 = 0) ∨
     (w.extractLsb' 0 4 = 1 ∧ w.extractLsb' 8 4 = 0 ∧ w.extractLsb' 12 1 = 0) ∨
     (w.extractLsb' 0 4 = 2 ∧ w.extractLsb' 4 2 = 0) ∨
     (w.extractLsb' 0 4 = 3 ∧ w.extractLsb' 4 2 = 0 ∧ w.extractLsb' 8 4 = 0) ∨
     (w.extractLsb' 0 4 = 4 ∧ w.extractLsb' 12 1 = 0) ∨
     (w.extractLsb' 0 4 = 5 ∧ w.extractLsb' 8 4 = 0 ∧ w.extractLsb' 12 1 = 0))) ∧
  (∀ w : Word,
    (w &&& 0xFFFFFFFF#32 = 0x00000000#32 ↔ decodeWord w = .ok .nop) ∧
    (w &&& 0xFFFFFFCF#32 = 0x00000001#32 ↔ ∃ alg, decodeWord w = .ok (.hmac alg)) ∧
    (w &&& 0xFFFFE0FF#32 = 0x00000002#32 ↔ ∃ d c, decodeWord w = .ok (.hotpGen d c)) ∧
    (w &&& 0xFFFFEFFF#32 = 0x00000003#32 ↔ ∃ c, decodeWord w = .ok (.hotpVal c)) ∧
    (w &&& 0xFFFFF0CF#32 = 0x00000004#32 ↔ ∃ alg d, decodeWord w = .ok (.totpGen alg d)) ∧
    (w &&& 0xFFFFFFCF#32 = 0x00000005#32 ↔ ∃ alg, decodeWord w = .ok (.totpVal alg))) ∧
  ∃ legal : List Word, legal.Nodup ∧ legal.length = 107 ∧ ∀ w, w ∈ legal ↔ ∃ i, decodeWord w = .ok i

/-! ## The command frame (40_command_frame.md) -/

/-- When the host's next action writes to `CMD` a word that decodes to a command, the step is `exec` of that command in
the state that holds the word, with the write answered (log 1). Rests on R130, R131; that the host's accesses stand in
the state is the model's choice (log 1). -/
def Obligations.StepOfACommandWriteRunsTheDecodedCommand : Prop :=
  (∀ (s : State) (w : Word) (rest : List HostAction) (i : Instr),
    NextIsCommand s w rest → decodeWord w = .ok i → step s = exec i (withCommand s w rest)) ∧
  (∀ (s : State) (w : Word) (i : Instr),
    decodeWord w = .ok i → step (s.withFetchWord 32 w.toNat) = exec i (withCommand s w s.pending))

/-- R132: an illegal word sets `STATUS.ILLCMD`, stays in `CMD`, and nothing else changes. -/
def Obligations.IllegalWordSetsIllcmdAndNothingElse : Prop :=
  ∀ (s : State) (w : Word) (rest : List HostAction), NextIsCommand s w rest → (∀ i, decodeWord w ≠ .ok i) →
    step s = .next { withCommand s w rest with status := s.status ||| 1#32 }

/-- R133: exactly the commands the rule names are refused for a length; the refusal sets `STATUS.ILLLEN` and changes
nothing else, and a command that is not refused leaves `STATUS` alone. -/
def Obligations.LengthRefusalSetsIlllenAndNothingElse : Prop :=
  ∀ (i : Instr) (s : State),
    (LengthRefusedFor i s → exec i s = .next { s with status := s.status ||| 2#32 }) ∧
    (¬ LengthRefusedFor i s → ∀ t, exec i s = .next t → t.status = s.status)

/-- A command that is neither `NOP` nor refused either completes with `RC = 0`, every result it defines written with the
value its rule gives for its inputs and the others zero, or ends with a negative code and every result zero; nothing else
changes. Rests on R134, on the table of R136, which the spec marks as derived, and on the command rules for the values. -/
def Obligations.ResultsAreAllOrNothing : Prop :=
  ∀ (i : Instr) (s t : State), i ≠ .nop → ¬ LengthRefusedFor i s → exec i s = .next t →
    (∃ r, t = withOutcome s 0 r ∧ DefinedResultsWritten i s r ∧ UnwrittenResultsZero i r) ∨
    (∃ e : ErrorKind, e.code < 0 ∧ t = withOutcome s (BitVec.ofInt 32 e.code) Results.zero)

/-- R135, with the frame over the whole register space: no command changes `CMD`, an operand register, `KEY`, `MSG`,
`SUB`, `VERSION` or the host's side, nor the byte at any address but those of `STATUS`, `RC` and the results; past the
refusal checks `STATUS` is unchanged too. -/
def Obligations.CommandsNeverChangeTheirInputs : Prop :=
  ∀ (i : Instr) (s t : State), exec i s = .next t →
    t.cmd = s.cmd ∧ t.ops = s.ops ∧ t.key = s.key ∧ t.msg = s.msg ∧ t.sub = s.sub ∧ t.params = s.params ∧
    t.pending = s.pending ∧ t.responses = s.responses ∧
    (¬ LengthRefusedFor i s → t.status = s.status) ∧
    (∀ a, a < 0x4 ∨ (0xC ≤ a ∧ a < 0x50) ∨ (0x90 ≤ a ∧ a < 0xC0) ∨ 0x10000 ≤ a → t.contentAt a = s.contentAt a)

/-- R138: `NOP` changes nothing but `CMD`, whatever the lengths; its only word is zero; from reset every register stays
at its reset value. -/
def Obligations.NopChangesNothingButCmd : Prop :=
  (∀ s : State, exec .nop s = .next s) ∧
  (∀ w : Word, decodeWord w = .ok .nop ↔ w = 0x00000000#32) ∧
  (∀ (s : State) (rest : List HostAction), NextIsCommand s 0#32 rest → step s = .next (withCommand s 0#32 rest)) ∧
  (∀ c : Config, step ((State.resetWith c).withFetchWord 32 0) = .next { State.resetWith c with responses := [.written] })

/-- The order of the checks: the return code of each command, first failure first. Rests on R137, R282, R286. -/
def Obligations.FirstFailingCheckIsReported : Prop :=
  ∀ (s t : State),
    (∀ alg, ¬ LengthRefusedFor (.hmac alg) s → exec (.hmac alg) s = .next t →
      t.rc.toInt = if alg = .reserved then -1 else 0) ∧
    (∀ d c, ¬ LengthRefusedFor (.hotpGen d c) s → exec (.hotpGen d c) s = .next t →
      t.rc.toInt = if d < 6 ∨ 8 < d then -2 else 0) ∧
    (∀ alg d, ¬ LengthRefusedFor (.totpGen alg d) s → exec (.totpGen alg d) s = .next t →
      t.rc.toInt =
        if d < 6 ∨ 8 < d then -2
        else if s.ops.step = 0 ∨ s.ops.now.toInt < s.ops.start.toInt then -10
        else if alg = .reserved then -1
        else 0) ∧
    (∀ c, ¬ LengthRefusedFor (.hotpVal c) s → exec (.hotpVal c) s = .next t →
      if s.ops.subLen.toNat < 6 + c.toNat ∨ 8 + c.toNat < s.ops.subLen.toNat then t.rc.toInt = -2
      else if ∃ j < s.ops.subLen.toNat, (s.sub.read j).toNat < 0x30 ∨ 0x39 < (s.sub.read j).toNat then t.rc.toInt = -6
      else if 2 ^ 63 ≤ s.ops.window.toNat then t.rc.toInt = -9
      else t.rc.toInt = -9 ∨ t.rc.toInt = 0 ∨ t.rc.toInt = -6) ∧
    (∀ alg, ¬ LengthRefusedFor (.totpVal alg) s → exec (.totpVal alg) s = .next t →
      if s.ops.subLen.toNat < 6 ∨ 8 < s.ops.subLen.toNat then t.rc.toInt = -2
      else if ∃ j < s.ops.subLen.toNat, (s.sub.read j).toNat < 0x30 ∨ 0x39 < (s.sub.read j).toNat then t.rc.toInt = -6
      else if s.ops.step = 0 ∨ s.ops.now.toInt < s.ops.start.toInt then t.rc.toInt = -10
      else if 2 ^ 63 ≤ s.ops.window.toNat then t.rc.toInt = -9
      else if alg = .reserved then t.rc.toInt = -1
      else t.rc.toInt = 0 ∨ t.rc.toInt = -6)

/-- The outcome of a command depends only on the operands the table of R136 marks as read, and on the bytes of `KEY`,
`MSG` and `SUB` below the lengths. Rests on R136, R58, R40, R41, R42 (U10). -/
def Obligations.OutcomeDependsOnlyOnTheOperandsRead : Prop :=
  ∀ (i : Instr) (s u t v : State), i ≠ .nop → ¬ LengthRefusedFor i s → ¬ LengthRefusedFor i u →
    s.ops.keyLen = u.ops.keyLen → (∀ k < s.ops.keyLen.toNat, s.key.read k = u.key.read k) →
    (match i with
     | .nop => True
     | .hmac _ => s.ops.msgLen = u.ops.msgLen ∧ ∀ k < s.ops.msgLen.toNat, s.msg.read k = u.msg.read k
     | .hotpGen _ _ => s.ops.ctr = u.ops.ctr ∧ s.ops.trunc = u.ops.trunc
     | .hotpVal _ =>
       s.ops.ctr = u.ops.ctr ∧ s.ops.window = u.ops.window ∧ s.ops.subLen = u.ops.subLen ∧
         ∀ k < 9, k < s.ops.subLen.toNat → s.sub.read k = u.sub.read k
     | .totpGen _ _ => s.ops.now = u.ops.now ∧ s.ops.start = u.ops.start ∧ s.ops.step = u.ops.step
     | .totpVal _ =>
       s.ops.now = u.ops.now ∧ s.ops.start = u.ops.start ∧ s.ops.step = u.ops.step ∧
         s.ops.window = u.ops.window ∧ s.ops.subLen = u.ops.subLen ∧
         ∀ k < 9, k < s.ops.subLen.toNat → s.sub.read k = u.sub.read k) →
    exec i s = .next t → exec i u = .next v → t.rc = v.rc ∧ t.res = v.res

/-! ## The hashes and HMAC (41_sha.md, 42_hmac.md) -/

/-- The three hashes give 20, 32 and 64 bytes for a message of any length, and their block sizes. Rests on R150, whose
block sizes the spec marks as general knowledge. -/
def Obligations.HashOutputLengths : Prop :=
  (∀ m : List Byte, (sha1 m).length = 20 ∧ (sha256 m).length = 32 ∧ (sha512 m).length = 64) ∧
  (∀ m : List Byte, hash .sha1 m = sha1 m ∧ hash .sha256 m = sha256 m ∧ hash .sha512 m = sha512 m) ∧
  (hashLen .sha1 = 20 ∧ hashLen .sha256 = 32 ∧ hashLen .sha512 = 64) ∧
  (hashBlock .sha1 = 64 ∧ hashBlock .sha256 = 64 ∧ hashBlock .sha512 = 128)

/-- The padding has the least number of zero bytes that fills the last block, ends with the bit length, and the blocks
are the padded message cut in order. Rests on R152, which the spec marks as general knowledge. -/
def Obligations.PaddingFillsWholeBlocks : Prop :=
  (∀ (B F : Nat) (m : List Byte), (B = 64 ∧ F = 8) ∨ (B = 128 ∧ F = 16) →
    (∃ z, padMessage B F m = m ++ [0x80#8] ++ List.replicate z 0x00#8 ++ beBytes F (8 * m.length) ∧
      (z : Int) = ((B : Int) - F - 1 - m.length) % B ∧
      (padMessage B F m).length % B = 0 ∧ ∀ y < z, (m.length + 1 + y + F) % B ≠ 0) ∧
    (blocksOf B F m).flatten = padMessage B F m ∧
    ∀ b ∈ blocksOf B F m, b.length = B) ∧
  padMessage 64 8 [] = 0x80#8 :: List.replicate 63 0x00#8

/-- `K0` has exactly the block size: a longer key is hashed, a key up to the block size is used as it is, and zeros
fill the rest. Rests on R191. -/
def Obligations.KeyBlockHasTheBlockSize : Prop :=
  ∀ (a : HashAlg) (k : List Byte),
    (keyBlock a k).length = hashBlock a ∧
    (hashBlock a < k.length → keyBlock a k = hash a k ++ List.replicate (hashBlock a - hashLen a) 0x00#8) ∧
    (k.length ≤ hashBlock a → keyBlock a k = k ++ List.replicate (hashBlock a - k.length) 0x00#8)

/-- The tag is the outer hash over the opad-masked key block and the inner hash, untruncated. Rests on R192, whose
nesting the spec marks as general knowledge. -/
def Obligations.HmacIsTheNestedHash : Prop :=
  ∀ (a : HashAlg) (k m : List Byte),
    hmac a k m =
      hash a ((List.range (hashBlock a)).map (fun i => (keyBlock a k).getD i 0 ^^^ 0x5C#8) ++
        hash a ((List.range (hashBlock a)).map (fun i => (keyBlock a k).getD i 0 ^^^ 0x36#8) ++ m)) ∧
    (hmac a k m).length = hashLen a

/-- R195: `HMAC` writes the tag of the key and message, its length and `RC = 0`, and leaves every other result zero;
`ALG = 3` ends with `CRYPTO_ERROR`; the rule's example. -/
def Obligations.HmacCommandWritesTheTag : Prop :=
  (∀ (a : HashAlg) (s : State), ¬ LengthRefusedFor (.hmac (.use a)) s →
    ∃ r, exec (.hmac (.use a)) s = .next (withOutcome s 0 r) ∧
      HoldsBytes r.tag (hmac a ((List.range s.ops.keyLen.toNat).map s.key.read) ((List.range s.ops.msgLen.toNat).map s.msg.read)) ∧
      r.tagLen.toNat = hashLen a ∧ { r with tag := [], tagLen := 0 } = Results.zero) ∧
  (∀ s : State, ¬ LengthRefusedFor (.hmac .reserved) s →
    exec (.hmac .reserved) s = .next (withOutcome s 0xFFFFFFFF#32 Results.zero)) ∧
  (∀ alg : HashSel, encode (.hmac alg) = 0x00000001#32 + 0x10#32 * BitVec.ofNat 32 alg.field) ∧
  hmac .sha1 (List.replicate 20 0x0B#8) (ascii ['H', 'i', ' ', 'T', 'h', 'e', 'r', 'e']) =
    beBytes 20 0xb617318655057264e28bc0b6fb378c8ef146be00

/-! ## Generation (43_otp_generate.md) -/

/-- R210: `be8(c)` is eight bytes, most significant first, and determines the counter; generating at `c` is generating
from the tag of those bytes; the rule's examples. -/
def Obligations.CounterIsSerialisedBigEndian : Prop :=
  (∀ c < 2 ^ 64, (be8 c).length = 8 ∧ (∀ i < 8, ((be8 c).getD i 0).toNat = c / 256 ^ (7 - i) % 256) ∧ beValue (be8 c) = c) ∧
  (∀ (a : HashAlg) (k : List Byte) (c : Nat) (tr : Option DWord) (digits : Nat) (chk : Bool),
    (otpGen a k c tr digits chk).tag = hmac a k (be8 c)) ∧
  be8 0 = List.replicate 8 0x00#8 ∧ be8 1 = List.replicate 7 0x00#8 ++ [0x01#8] ∧
  be8 0x0123456789ABCDEF = [0x01#8, 0x23#8, 0x45#8, 0x67#8, 0x89#8, 0xAB#8, 0xCD#8, 0xEF#8] ∧
  be8 (2 ^ 64 - 1) = List.replicate 8 0xFF#8

/-- Signed truncation operands 0 to 15 fix the offset, every other value, and the commands without the operand, take the
low nibble of the tag's last byte; equivalently on the unsigned content; nothing is raised. Rests on R212, whose
equivalence on the unsigned content the spec marks as derived from R17. -/
def Obligations.OffsetIsFixedOrTheLastNibble : Prop :=
  ∀ (tag : List Byte) (tr : DWord),
    (tr.toInt < 0 ∨ 16 ≤ tr.toInt → selectOffset tag (some tr) = (tag.getD (tag.length - 1) 0).toNat % 16) ∧
    (0 ≤ tr.toInt → tr.toInt < 16 → (selectOffset tag (some tr) : Int) = tr.toInt) ∧
    (tr.toNat < 16 → selectOffset tag (some tr) = tr.toNat) ∧
    (16 ≤ tr.toNat → selectOffset tag (some tr) = (tag.getD (tag.length - 1) 0).toNat % 16) ∧
    selectOffset tag none = (tag.getD (tag.length - 1) 0).toNat % 16

/-- R213: `binCode` is four tag bytes, most significant first, without the top bit, so at most `2^31 - 1`; the rule's
example. -/
def Obligations.BinCodeIsFourBytesWithoutTheTopBit : Prop :=
  (∀ (tag : List Byte) (offset : Nat),
    extractBinCode tag offset =
      (tag.getD offset 0).toNat % 128 * 2 ^ 24 + (tag.getD (offset + 1) 0).toNat * 2 ^ 16 +
        (tag.getD (offset + 2) 0).toNat * 2 ^ 8 + (tag.getD (offset + 3) 0).toNat ∧
    extractBinCode tag offset ≤ 2 ^ 31 - 1) ∧
  extractBinCode [0xcc#8, 0x93#8, 0xcf#8, 0x18#8] 0 = 1284755224

/-- The four bytes of `binCode` lie inside every tag, whatever offset is selected. Rests on R214. -/
def Obligations.SelectedBytesLieInsideTheTag : Prop :=
  ∀ (a : HashAlg) (k m : List Byte) (tr : Option DWord),
    selectOffset (hmac a k m) tr ≤ 15 ∧ selectOffset (hmac a k m) tr + 3 < (hmac a k m).length

/-- `dec(v, n)` is the `n` decimal digits of `v` in ASCII, most significant first, leading zeros kept; the rule's
example. Rests on R216, whose byte `0x30` the spec marks as general knowledge. -/
def Obligations.DecimalDigitsAreTheValue : Prop :=
  (∀ v n : Nat, v < 10 ^ n →
    (decimal v n).length = n ∧
    (∀ j < n, ((decimal v n).getD j 0).toNat = 0x30 + v / 10 ^ (n - 1 - j) % 10) ∧
    (decimal v n).foldl (fun x b => 10 * x + (b.toNat - 0x30)) 0 = v) ∧
  decimal 26920 6 = [0x30#8, 0x32#8, 0x36#8, 0x39#8, 0x32#8, 0x30#8]

/-- The value with its check digit appended passes the usual Luhn test; the example of R218. Rests on R218. -/
def Obligations.LuhnDigitPassesTheLuhnTest : Prop :=
  (∀ v n : Nat, luhn v n < 10 ∧ luhnTestSum (10 * v + luhn v n) (n + 1) % 10 = 0) ∧
  luhn 755224 6 = 3 ∧ luhnTotal 755224 6 = 27 ∧ luhnTestSum 7552243 7 = 30 ∧
  otpString 755224 6 true = ascii ['7', '5', '5', '2', '2', '4', '3']

/-- With a valid timestamp the counter is the floor of the quotient over the integers and a legal counter; when `STEP =
0` or `NOW < START`, and only then, `TOTP.GEN` with a legal digit count raises `INVALID_TIMESTAMP`; the rule's examples.
Rests on R219, whose bound of the counter the spec marks as derived from R17. -/
def Obligations.TimeStepIsTheFlooredQuotient : Prop :=
  (∀ s : State, TimestampOk s →
    ((timeCounter s : Int) * s.ops.step.toNat ≤ s.ops.now.toInt - s.ops.start.toInt ∧
      s.ops.now.toInt - s.ops.start.toInt < ((timeCounter s : Int) + 1) * s.ops.step.toNat) ∧
    timeCounter s ≤ 2 ^ 64 - 1) ∧
  (∀ (s t : State) (alg : HashSel) (d : Nat), ¬ LengthRefusedFor (.totpGen alg d) s → 6 ≤ d → d ≤ 8 →
    exec (.totpGen alg d) s = .next t → (t.rc = 0xFFFFFFF6#32 ↔ s.ops.step = 0 ∨ s.ops.now.toInt < s.ops.start.toInt)) ∧
  (∀ s : State, s.ops.step = 30 →
    (s.ops.start.toInt = 0 → s.ops.now.toInt = 59 → timeCounter s = 1) ∧
    (s.ops.start.toInt = 0 → s.ops.now.toInt = 29 → timeCounter s = 0) ∧
    (s.ops.start.toInt = 0 → s.ops.now.toInt = 30 → timeCounter s = 1) ∧
    (s.ops.start.toInt = -100 → s.ops.now.toInt = -50 → timeCounter s = 1)) ∧
  (∀ s : State, s.ops.step = 1 → s.ops.start.toInt = -2 ^ 63 → s.ops.now.toInt = 2 ^ 63 - 1 → timeCounter s = 2 ^ 64 - 1)

/-- R225: `HOTP.GEN` with 6 to 8 digits writes the tag of the counter, the offset, `binCode`, the value and the string
it emits, and `RC = 0`; the other results are zero; any other digit count ends with `INVALID_DIGITS`; the rule's
encoding and example. -/
def Obligations.HotpGenWritesTheOtp : Prop :=
  (∀ (s : State) (digits : Nat) (chk : Bool), ¬ LengthRefusedFor (.hotpGen digits chk) s → 6 ≤ digits → digits ≤ 8 →
    let tag := hmac .sha1 s.secret (be8 s.ops.ctr.toNat)
    let offset := if s.ops.trunc.toNat < 16 then s.ops.trunc.toNat else (tag.getD 19 0).toNat % 16
    let binCode := (tag.getD offset 0).toNat % 128 * 2 ^ 24 + (tag.getD (offset + 1) 0).toNat * 2 ^ 16 +
      (tag.getD (offset + 2) 0).toNat * 2 ^ 8 + (tag.getD (offset + 3) 0).toNat
    let otp := binCode % 10 ^ digits
    ∃ r, exec (.hotpGen digits chk) s = .next (withOutcome s 0 r) ∧
      HoldsBytes r.tag tag ∧ r.tagLen = 20 ∧ r.offset.toNat = offset ∧ r.binCode.toNat = binCode ∧ r.otpVal.toNat = otp ∧
      HoldsBytes r.otp (decimal otp digits ++ if chk then decimal (luhn otp digits) 1 else []) ∧
      r.otpLen.toNat = digits + chk.toNat ∧ r.pos = 0 ∧ r.matchCtr = 0 ∧ r.tctr = 0) ∧
  (∀ (s : State) (digits : Nat) (chk : Bool), ¬ LengthRefusedFor (.hotpGen digits chk) s → digits < 6 ∨ 8 < digits →
    exec (.hotpGen digits chk) s = .next (withOutcome s 0xFFFFFFFE#32 Results.zero)) ∧
  (∀ (digits : Nat) (chk : Bool), digits < 16 →
    (encode (.hotpGen digits chk)).toNat = 0x00000002 + 0x100 * digits + 0x1000 * chk.toNat) ∧
  (∃ r, exec (.hotpGen 6 false) stateK20 = .next (withOutcome stateK20 0 r) ∧
    HoldsBytes r.tag (beBytes 20 0xcc93cf18508d94934c64b65d8ba7667fb7cde4b0) ∧ r.offset = 0 ∧ r.binCode = 0x4C93CF18#32 ∧
    r.otpVal = 755224 ∧ HoldsBytes r.otp (ascii ['7', '5', '5', '2', '2', '4']) ∧ r.otpLen = 6)

/-- R227: `TOTP.GEN` with 6 to 8 digits, a valid timestamp and a hash writes what the time-derived counter generates
with dynamic truncation and no check digit, `TCTR`, and `RC = 0`; the other results are zero; its three errors in
order; the rule's encoding and example. -/
def Obligations.TotpGenWritesTheOtp : Prop :=
  (∀ (s : State) (a : HashAlg) (digits : Nat), ¬ LengthRefusedFor (.totpGen (.use a) digits) s → 6 ≤ digits → digits ≤ 8 →
    TimestampOk s →
    let tag := hmac a s.secret (be8 (centerOf s).toNat)
    let offset := (tag.getD (hashLen a - 1) 0).toNat % 16
    let binCode := (tag.getD offset 0).toNat % 128 * 2 ^ 24 + (tag.getD (offset + 1) 0).toNat * 2 ^ 16 +
      (tag.getD (offset + 2) 0).toNat * 2 ^ 8 + (tag.getD (offset + 3) 0).toNat
    let otp := binCode % 10 ^ digits
    ∃ r, exec (.totpGen (.use a) digits) s = .next (withOutcome s 0 r) ∧
      (r.tctr.toNat : Int) = centerOf s ∧ HoldsBytes r.tag tag ∧ r.tagLen.toNat = hashLen a ∧ r.offset.toNat = offset ∧
      r.binCode.toNat = binCode ∧ r.otpVal.toNat = otp ∧ HoldsBytes r.otp (decimal otp digits) ∧
      r.otpLen.toNat = digits ∧ r.pos = 0 ∧ r.matchCtr = 0) ∧
  (∀ (s : State) (alg : HashSel) (digits : Nat), ¬ LengthRefusedFor (.totpGen alg digits) s →
    (digits < 6 ∨ 8 < digits → exec (.totpGen alg digits) s = .next (withOutcome s 0xFFFFFFFE#32 Results.zero)) ∧
    (6 ≤ digits → digits ≤ 8 → ¬ TimestampOk s →
      exec (.totpGen alg digits) s = .next (withOutcome s 0xFFFFFFF6#32 Results.zero)) ∧
    (6 ≤ digits → digits ≤ 8 → TimestampOk s → alg = .reserved →
      exec (.totpGen alg digits) s = .next (withOutcome s 0xFFFFFFFF#32 Results.zero))) ∧
  (∀ (alg : HashSel) (digits : Nat), digits < 16 →
    (encode (.totpGen alg digits)).toNat = 0x00000004 + 0x10 * alg.field + 0x100 * digits) ∧
  (∃ r, exec (.totpGen (.use .sha1) 8) { stateK20 with ops := { stateK20.ops with now := 59 } } =
      .next (withOutcome { stateK20 with ops := { stateK20.ops with now := 59 } } 0 r) ∧
    r.tctr = 1 ∧ r.offset = 11 ∧ r.binCode = 1094287082 ∧ HoldsBytes r.otp (ascii ['9', '4', '2', '8', '7', '0', '8', '2']))

/-- `TOTP.GEN` with `SHA1` is `HOTP.GEN` at the time-derived counter with dynamic truncation and no check digit, but
for `TCTR` ("HOTP with counter derived from wall-clock time"). Rests on R227, R225. -/
def Obligations.TotpGenIsHotpGenAtTheTimeCounter : Prop :=
  ∀ (s t u : State) (digits : Nat), ¬ LengthRefusedFor (.totpGen (.use .sha1) digits) s → TimestampOk s →
    exec (.totpGen (.use .sha1) digits) s = .next t →
    exec (.hotpGen digits false)
      { s with ops := { s.ops with ctr := BitVec.ofInt 64 (centerOf s), trunc := 0xFFFFFFFFFFFFFFFF#64 } } = .next u →
    t.rc = u.rc ∧ { t.res with tctr := 0 } = u.res

/-- The tag of `HOTP.GEN` at counter `C` is the tag of `HMAC SHA1` over the eight big-endian bytes of `C` (property Q8
of 95_test_vectors.md). Rests on R210, R211, R225, R195. -/
def Obligations.HotpGenTagIsHmacOfTheCounterBytes : Prop :=
  ∀ (s t u v : State) (digits : Nat) (chk : Bool), 6 ≤ digits → digits ≤ 8 → ¬ LengthRefusedFor (.hmac (.use .sha1)) u →
    u.key = s.key → u.ops.keyLen = s.ops.keyLen → u.params = s.params → u.ops.msgLen = 8 →
    (∀ i < 8, (u.msg.read i).toNat = s.ops.ctr.toNat / 256 ^ (7 - i) % 256) →
    exec (.hotpGen digits chk) s = .next t → exec (.hmac (.use .sha1)) u = .next v →
    t.res.tag = v.res.tag ∧ t.res.tagLen = v.res.tagLen

/-! ## Validation (44_otp_validate.md) -/

/-- R250: for both validation commands, a digit count outside 6 to 8 (the check digit not counted, no wrap below zero)
ends with `INVALID_DIGITS`; then a character that is no digit ends with `INVALID_OTP`. -/
def Obligations.SubmittedStringIsParsedFirst : Prop :=
  (∀ (s : State) (chk : Bool), ¬ LengthRefusedFor (.hotpVal chk) s →
    ((s.ops.subLen.toNat : Int) - chk.toNat < 6 ∨ 8 < (s.ops.subLen.toNat : Int) - chk.toNat →
      exec (.hotpVal chk) s = .next (withOutcome s 0xFFFFFFFE#32 Results.zero)) ∧
    (6 ≤ (s.ops.subLen.toNat : Int) - chk.toNat → (s.ops.subLen.toNat : Int) - chk.toNat ≤ 8 →
      (∃ j < s.ops.subLen.toNat, (s.sub.read j).toNat < 0x30 ∨ 0x39 < (s.sub.read j).toNat) →
      exec (.hotpVal chk) s = .next (withOutcome s 0xFFFFFFFA#32 Results.zero)) ∧
    (SubmittedOk chk s → ∀ t, exec (.hotpVal chk) s = .next t → t.rc ≠ 0xFFFFFFFE#32)) ∧
  (∀ (s : State) (alg : HashSel), ¬ LengthRefusedFor (.totpVal alg) s →
    (s.ops.subLen.toNat < 6 ∨ 8 < s.ops.subLen.toNat →
      exec (.totpVal alg) s = .next (withOutcome s 0xFFFFFFFE#32 Results.zero)) ∧
    (6 ≤ s.ops.subLen.toNat → s.ops.subLen.toNat ≤ 8 →
      (∃ j < s.ops.subLen.toNat, (s.sub.read j).toNat < 0x30 ∨ 0x39 < (s.sub.read j).toNat) →
      exec (.totpVal alg) s = .next (withOutcome s 0xFFFFFFFA#32 Results.zero)) ∧
    (SubmittedOk false s → ∀ t, exec (.totpVal alg) s = .next t → t.rc ≠ 0xFFFFFFFE#32))

/-- R251: past the parse (and for `TOTP.VAL` the timestamp), `WINDOW >= 2^63` ends with `INVALID_COUNTER`; a window of
zero is legal and tries one candidate. -/
def Obligations.WindowIsLimitedToTheSignedRange : Prop :=
  (∀ (s : State) (chk : Bool), ¬ LengthRefusedFor (.hotpVal chk) s → SubmittedOk chk s →
    (2 ^ 63 ≤ s.ops.window.toNat → exec (.hotpVal chk) s = .next (withOutcome s 0xFFFFFFF7#32 Results.zero)) ∧
    (s.ops.window = 0 →
      exec (.hotpVal chk) s = .next
        (if candidateString .sha1 s (s.ops.subLen.toNat - chk.toNat) chk s.ops.ctr.toNat = s.submitted
         then withOutcome s 0 { Results.zero with matchCtr := s.ops.ctr } else withOutcome s 0xFFFFFFFA#32 Results.zero))) ∧
  (∀ (s : State) (a : HashAlg), ¬ LengthRefusedFor (.totpVal (.use a)) s → SubmittedOk false s → TimestampOk s →
    (2 ^ 63 ≤ s.ops.window.toNat → exec (.totpVal (.use a)) s = .next (withOutcome s 0xFFFFFFF7#32 Results.zero)) ∧
    (s.ops.window = 0 → ∀ t, exec (.totpVal (.use a)) s = .next t →
      (t.rc = 0 ↔ TotpHit a s 0) ∧ (t.rc = 0xFFFFFFFA#32 ↔ ¬ TotpHit a s 0))) ∧
  (∀ s : State, ¬ LengthRefusedFor (.totpVal .reserved) s → SubmittedOk false s → TimestampOk s →
    2 ^ 63 ≤ s.ops.window.toNat → exec (.totpVal .reserved) s = .next (withOutcome s 0xFFFFFFF7#32 Results.zero))

/-- R253 and R254: `HOTP.VAL` reports the first matching candidate of `CTR .. CTR + WINDOW`; without an earlier match a
candidate beyond `2^64 - 1` ends with `INVALID_COUNTER`, and a window without a match with `INVALID_OTP`; its other
errors in order; the encoding and the rule's example. -/
def Obligations.HotpValReportsTheFirstMatch : Prop :=
  (∀ (s : State) (chk : Bool), ¬ LengthRefusedFor (.hotpVal chk) s → SubmittedOk chk s → s.ops.window.toNat < 2 ^ 63 →
    (∀ i ≤ s.ops.window.toNat, s.ops.ctr.toNat + i ≤ 2 ^ 64 - 1 →
      candidateString .sha1 s (s.ops.subLen.toNat - chk.toNat) chk (s.ops.ctr.toNat + i) = s.submitted →
      (∀ j < i, candidateString .sha1 s (s.ops.subLen.toNat - chk.toNat) chk (s.ops.ctr.toNat + j) ≠ s.submitted) →
      exec (.hotpVal chk) s = .next (withOutcome s 0
        { Results.zero with pos := BitVec.ofNat 64 i, matchCtr := BitVec.ofNat 64 (s.ops.ctr.toNat + i) })) ∧
    (s.ops.ctr.toNat + s.ops.window.toNat ≤ 2 ^ 64 - 1 →
      (∀ j ≤ s.ops.window.toNat,
        candidateString .sha1 s (s.ops.subLen.toNat - chk.toNat) chk (s.ops.ctr.toNat + j) ≠ s.submitted) →
      exec (.hotpVal chk) s = .next (withOutcome s 0xFFFFFFFA#32 Results.zero)) ∧
    (2 ^ 64 - 1 < s.ops.ctr.toNat + s.ops.window.toNat →
      (∀ j, s.ops.ctr.toNat + j ≤ 2 ^ 64 - 1 →
        candidateString .sha1 s (s.ops.subLen.toNat - chk.toNat) chk (s.ops.ctr.toNat + j) ≠ s.submitted) →
      exec (.hotpVal chk) s = .next (withOutcome s 0xFFFFFFF7#32 Results.zero))) ∧
  (∀ (s : State) (chk : Bool), ¬ LengthRefusedFor (.hotpVal chk) s →
    (s.ops.subLen.toNat < 6 + chk.toNat ∨ 8 + chk.toNat < s.ops.subLen.toNat →
      exec (.hotpVal chk) s = .next (withOutcome s 0xFFFFFFFE#32 Results.zero)) ∧
    (6 + chk.toNat ≤ s.ops.subLen.toNat → s.ops.subLen.toNat ≤ 8 + chk.toNat → ¬ SubmittedOk chk s →
      exec (.hotpVal chk) s = .next (withOutcome s 0xFFFFFFFA#32 Results.zero)) ∧
    (SubmittedOk chk s → 2 ^ 63 ≤ s.ops.window.toNat →
      exec (.hotpVal chk) s = .next (withOutcome s 0xFFFFFFF7#32 Results.zero))) ∧
  (∀ chk : Bool, (encode (.hotpVal chk)).toNat = 0x00000003 + 0x1000 * chk.toNat) ∧
  (∀ w : DWord, w = 9 ∨ w = 8 →
    let s := { stateK20 with
      sub := Memory.ofBytes (ascii ['5', '2', '0', '4', '8', '9'])
      ops := { stateK20.ops with window := w, subLen := 6 } }
    exec (.hotpVal false) s = .next
      (if w = 9 then withOutcome s 0 { Results.zero with pos := 9, matchCtr := 9 }
       else withOutcome s 0xFFFFFFFA#32 Results.zero))

/-- R257: the search of `TOTP.VAL` is the first match over the offsets `0, +1, -1, ..., +w, -w` in that order, where an
offset whose counter is below 0 or above `2^64 - 1` is skipped. -/
def Obligations.TotpSearchFollowsTheOrder : Prop :=
  ∀ (hit : Nat → Bool) (center w : Nat),
    totpSearch hit center w =
      (offsetsInOrder w).findSome? fun p =>
        if 0 ≤ (center : Int) + p ∧ (center : Int) + p ≤ 2 ^ 64 - 1 ∧ hit ((center : Int) + p).toNat = true
        then some (p, ((center : Int) + p).toNat) else none

/-- R258: `TOTP.VAL` reports the first offset of the search order whose counter generates the submitted string, that
counter and the centre; without one it ends with `INVALID_OTP`; its errors in order; the encoding and the rule's
example. -/
def Obligations.TotpValReportsTheFirstMatch : Prop :=
  (∀ (s : State) (a : HashAlg), ¬ LengthRefusedFor (.totpVal (.use a)) s → SubmittedOk false s → TimestampOk s →
    s.ops.window.toNat < 2 ^ 63 →
    (∀ p : Int, p.natAbs ≤ s.ops.window.toNat → TotpHit a s p →
      (∀ q : Int, q.natAbs ≤ s.ops.window.toNat → searchRank q < searchRank p → ¬ TotpHit a s q) →
      exec (.totpVal (.use a)) s = .next (withOutcome s 0
        { Results.zero with
          pos := BitVec.ofInt 64 p, matchCtr := BitVec.ofInt 64 (centerOf s + p), tctr := BitVec.ofInt 64 (centerOf s) })) ∧
    ((∀ q : Int, q.natAbs ≤ s.ops.window.toNat → ¬ TotpHit a s q) →
      exec (.totpVal (.use a)) s = .next (withOutcome s 0xFFFFFFFA#32 Results.zero))) ∧
  (∀ (s : State) (alg : HashSel), ¬ LengthRefusedFor (.totpVal alg) s →
    (s.ops.subLen.toNat < 6 ∨ 8 < s.ops.subLen.toNat →
      exec (.totpVal alg) s = .next (withOutcome s 0xFFFFFFFE#32 Results.zero)) ∧
    (6 ≤ s.ops.subLen.toNat → s.ops.subLen.toNat ≤ 8 → ¬ SubmittedOk false s →
      exec (.totpVal alg) s = .next (withOutcome s 0xFFFFFFFA#32 Results.zero)) ∧
    (SubmittedOk false s → ¬ TimestampOk s →
      exec (.totpVal alg) s = .next (withOutcome s 0xFFFFFFF6#32 Results.zero)) ∧
    (SubmittedOk false s → TimestampOk s → 2 ^ 63 ≤ s.ops.window.toNat →
      exec (.totpVal alg) s = .next (withOutcome s 0xFFFFFFF7#32 Results.zero)) ∧
    (SubmittedOk false s → TimestampOk s → s.ops.window.toNat < 2 ^ 63 → alg = .reserved →
      exec (.totpVal alg) s = .next (withOutcome s 0xFFFFFFFF#32 Results.zero))) ∧
  (∀ alg : HashSel, (encode (.totpVal alg)).toNat = 0x00000005 + 0x10 * alg.field) ∧
  (let s := { stateK20 with
      sub := Memory.ofBytes (ascii ['8', '4', '7', '5', '5', '2', '2', '4'])
      ops := { stateK20.ops with now := 59, window := 1, subLen := 8 } }
   exec (.totpVal (.use .sha1)) s = .next (withOutcome s 0 { Results.zero with pos := 0xFFFFFFFFFFFFFFFF#64, tctr := 1 }))

/-- R260: the OTP that `HOTP.GEN` emitted with dynamic truncation, copied to `SUB`, validates at the same counter with a
window of zero, at position 0; with a fixed offset it need not. -/
def Obligations.GeneratedOtpValidatesAtPositionZero : Prop :=
  (∀ (s t : State) (digits : Nat) (chk : Bool) (m : Memory), ¬ LengthRefusedFor (.hotpGen digits chk) s →
    16 ≤ s.ops.trunc.toNat → exec (.hotpGen digits chk) s = .next t → t.rc = 0 →
    (∀ j < t.res.otpLen.toNat, m.read j = t.res.otp.read j) →
    let u := { t with sub := m, ops := { t.ops with subLen := t.res.otpLen, window := 0 } }
    exec (.hotpVal chk) u = .next (withOutcome u 0 { Results.zero with matchCtr := s.ops.ctr })) ∧
  (∃ s t : State, s.ops.trunc = 4 ∧ exec (.hotpGen 6 false) s = .next t ∧ t.rc = 0 ∧
    let u := { t with sub := t.res.otp, ops := { t.ops with subLen := t.res.otpLen, window := 0 } }
    exec (.hotpVal false) u = .next (withOutcome u 0xFFFFFFFA#32 Results.zero))

/-- When `TOTP.VAL` succeeds at position `p`, it succeeds with any legal window of at least `|p|`, with the same
results. Rests on R261. -/
def Obligations.TotpWindowSymmetry : Prop :=
  ∀ (s t : State) (alg : HashSel) (w : DWord), ¬ LengthRefusedFor (.totpVal alg) s →
    exec (.totpVal alg) s = .next t → t.rc = 0 → t.res.pos.toInt.natAbs ≤ w.toNat → w.toNat ≤ 2 ^ 63 - 1 →
    exec (.totpVal alg) { s with ops := { s.ops with window := w } } = .next { t with ops := { s.ops with window := w } }

/-- A reported match is one: the counter in `MATCHCTR` generates the submitted string, and it stands at `POS` in the
window. Rests on R262. -/
def Obligations.ReportedMatchGeneratesTheSubmittedString : Prop :=
  (∀ (s t : State) (chk : Bool), ¬ LengthRefusedFor (.hotpVal chk) s → exec (.hotpVal chk) s = .next t → t.rc = 0 →
    candidateString .sha1 s (s.ops.subLen.toNat - chk.toNat) chk t.res.matchCtr.toNat = s.submitted ∧
    t.res.matchCtr.toNat = s.ops.ctr.toNat + t.res.pos.toNat ∧ t.res.pos.toNat ≤ s.ops.window.toNat) ∧
  (∀ (s t : State) (alg : HashSel), ¬ LengthRefusedFor (.totpVal alg) s → exec (.totpVal alg) s = .next t → t.rc = 0 →
    ∃ a, alg = .use a ∧ candidateString a s s.ops.subLen.toNat false t.res.matchCtr.toNat = s.submitted ∧
      (t.res.matchCtr.toNat : Int) = t.res.tctr.toNat + t.res.pos.toInt ∧ (t.res.tctr.toNat : Int) = centerOf s ∧
      t.res.pos.toInt.natAbs ≤ s.ops.window.toNat)

/-! ## The register space (20_memory.md) -/

/-- R72: every byte of every row of the table belongs to that row's register or buffer, with its address, size and bus
access, and to no other; every other address is reserved. `CMD` is written by 4 bytes only, and reads of `KEY` give zero.
Each row is inside the 18-bit space and aligned to its own size, or to 8 (the reason R74 gives for its condition (d)). -/
def Obligations.EveryByteHasAtMostOnePlace : Prop :=
  ∀ c : Config, c.wf →
    (∀ r ∈ rowsOfR72 c, ∀ a, r.base ≤ a → a < r.base + r.size → regionAt c a = some r) ∧
    (∀ a, regionAt c a = none ↔ ReservedByR72 c a) ∧
    (∀ a r, regionAt c a = some r → r ∈ rowsOfR72 c ∧ r.base ≤ a ∧ a < r.base + r.size) ∧
    (∀ addr n, addr < 4 → ((∃ r, acceptedRegion c .write addr n = some r) ↔ addr = 0x00000 ∧ n = 4)) ∧
    (∀ (s : State) (addr n : Nat) (r : Region), acceptedRegion c .read addr n = some r → 0x20000 ≤ addr →
      s.memRead r addr n = 0) ∧
    (∀ r₁ ∈ memoryMap c, ∀ r₂ ∈ memoryMap c, ∀ a, r₁.base ≤ a → a < r₁.base + r₁.size → r₂.base ≤ a →
      a < r₂.base + r₂.size → r₁ = r₂) ∧
    (∀ r ∈ memoryMap c, r.base + r.size ≤ 0x40000 ∧ r.base % min r.size 8 = 0 ∧ (r.size = 4 ∨ r.size % 8 = 0))

/-- R74 and R75: an access is accepted exactly when (a) to (e) hold; a refused one gets a bus error and changes nothing,
and a refused write to `CMD` starts no command; an accepted one never gets a bus error; a run with a refused access is
no good run. -/
def Obligations.RefusedAccessesChangeNothing : Prop :=
  (∀ (s t : State) (p : HostProgram), runProgram s p = .next t → .busError ∈ t.responses → ¬ GoodRun s p) ∧
  ∀ (s : State) (rest : List HostAction), s.params.wf →
    (∀ addr n, s.pending = .read addr n :: rest →
      (¬ AcceptedByRule s.params .read addr n →
        step s = .next { s with pending := rest, responses := .busError :: s.responses }) ∧
      (AcceptedByRule s.params .read addr n → ∃ t v, step s = .next t ∧ t.responses = .data v :: s.responses)) ∧
    (∀ addr data, s.pending = .write addr data :: rest →
      (¬ AcceptedByRule s.params .write addr data.length →
        step s = .next { s with pending := rest, responses := .busError :: s.responses }) ∧
      (AcceptedByRule s.params .write addr data.length →
        ∃ t, step s = .next t ∧ t.responses = .written :: s.responses))

/-- R76: an accepted read returns the big-endian value of the bytes it covers, those of `KEY` as `0x00`, and changes
nothing else. -/
def Obligations.ReadReturnsTheBigEndianValue : Prop :=
  ∀ (s : State) (rest : List HostAction) (addr n : Nat), s.params.wf → s.pending = .read addr n :: rest →
    AcceptedByRule s.params .read addr n →
    step s = .next
      { s with
        pending := rest
        responses :=
          .data ((List.range n).map fun i => (shownAt s (addr + i)).toNat * 256 ^ (n - 1 - i)).sum :: s.responses }

/-- R78: every byte of `KEY` reads as `0x00`, and no read can tell two contents of `KEY` apart. -/
def Obligations.KeyCannotBeReadBack : Prop :=
  (∀ (s : State) (rest : List HostAction) (addr n : Nat), s.params.wf → s.pending = .read addr n :: rest →
    AcceptedByRule s.params .read addr n → 0x20000 ≤ addr →
    step s = .next { s with pending := rest, responses := .data 0 :: s.responses }) ∧
  (∀ (s t u : State) (k : Memory) (rest : List HostAction) (addr n : Nat), s.pending = .read addr n :: rest →
    step s = .next t → step { s with key := k } = .next u → u = { t with key := k })

/-- R77: an accepted write outside `CMD` replaces exactly the bytes it covers that the host can write, big-endian, and
no other byte of the space; it touches no other state, and a write to a read-only place is ignored; the rule's
example; a 4-byte write to `CMD` stores the word and runs its frame before it is complete. -/
def Obligations.WriteReplacesExactlyTheBytesCovered : Prop :=
  (∀ (s : State) (rest : List HostAction) (addr n v : Nat), s.Inv → s.pending = .write addr (beBytes n v) :: rest →
    AcceptedByRule s.params .write addr n → 4 ≤ addr →
    ∃ t, step s = .next t ∧ t.pending = rest ∧ t.responses = .written :: s.responses ∧ t.params = s.params ∧
      t.cmd = s.cmd ∧ t.status = s.status ∧ t.rc = s.rc ∧ t.res = s.res ∧
      (∀ a, addr ≤ a → a < addr + n → WritableAt s.params a →
        t.contentAt a = some (BitVec.ofNat 8 (v / 256 ^ (n - 1 - (a - addr)) % 256))) ∧
      (∀ a, a < addr ∨ addr + n ≤ a ∨ ¬ WritableAt s.params a → t.contentAt a = s.contentAt a)) ∧
  (∀ (s : State) (rest : List HostAction), s.pending = .write 0x00017 [0x01#8] :: rest →
    step s = .next
      { s with
        pending := rest
        responses := .written :: s.responses
        ops := { s.ops with ctr := (s.ops.ctr &&& 0xFFFFFFFFFFFFFF00#64) ||| 0x01#64 } }) ∧
  (∀ (s : State) (rest : List HostAction) (v : Nat), s.pending = .write 0x00000 (beBytes 4 v) :: rest →
    step s = runCommand (withCommand s (BitVec.ofNat 32 v) rest) ∧
      ∃ t, step s = .next t ∧ t.cmd = BitVec.ofNat 32 v ∧ t.responses = .written :: s.responses)

/-- What is written to a readable and writable place outside `CMD` is what the next read of the same bytes returns.
Rests on R76, R77. -/
def Obligations.WrittenValueReadsBack : Prop :=
  ∀ (s : State) (rest : List HostAction) (addr n v : Nat), s.Inv → v < 256 ^ n →
    s.pending = .write addr (beBytes n v) :: .read addr n :: rest → AcceptedByRule s.params .write addr n → 4 ≤ addr →
    addr < 0x20000 → WritableAt s.params addr →
    ∃ t u, step s = .next t ∧ step t = .next u ∧ u.responses = .data v :: .written :: s.responses

/-- R71: a register of `n` bytes keeps its most significant byte at its address and its least significant last, a buffer
its byte `i` at base + `i`, first for every row of the map, then for every register and buffer by name at its address of
R72; reserved addresses hold nothing; the eight bytes of `CTR` are `be8(CTR)`. -/
def Obligations.RegisterSpaceIsBigEndian : Prop :=
  ∀ s : State, s.params.wf →
    (∀ r ∈ memoryMap s.params, ∀ i < r.size,
      (∀ g, r.place = .reg g →
        s.contentAt (r.base + i) = some (BitVec.ofNat 8 (s.regValue g / 256 ^ (r.size - 1 - i) % 256))) ∧
      (∀ b, r.place = .buf b → s.contentAt (r.base + i) = some ((s.buffer b).read i))) ∧
    (RegisterAt s 0x00000 4 s.cmd.toNat ∧ RegisterAt s 0x00004 4 s.status.toNat ∧ RegisterAt s 0x00008 4 s.rc.toNat ∧
      RegisterAt s 0x0000C 4 s.params.versionNum.toNat) ∧
    (RegisterAt s 0x00010 8 s.ops.ctr.toNat ∧ RegisterAt s 0x00018 8 s.ops.now.toNat ∧
      RegisterAt s 0x00020 8 s.ops.start.toNat ∧ RegisterAt s 0x00028 4 s.ops.step.toNat ∧
      RegisterAt s 0x00030 8 s.ops.window.toNat ∧ RegisterAt s 0x00038 8 s.ops.trunc.toNat ∧
      RegisterAt s 0x00040 4 s.ops.keyLen.toNat ∧ RegisterAt s 0x00044 4 s.ops.msgLen.toNat ∧
      RegisterAt s 0x00048 4 s.ops.subLen.toNat) ∧
    (RegisterAt s 0x00050 8 s.res.pos.toNat ∧ RegisterAt s 0x00058 8 s.res.matchCtr.toNat ∧
      RegisterAt s 0x00060 8 s.res.tctr.toNat ∧ RegisterAt s 0x00068 4 s.res.binCode.toNat ∧
      RegisterAt s 0x0006C 4 s.res.otpVal.toNat ∧ RegisterAt s 0x00070 4 s.res.offset.toNat ∧
      RegisterAt s 0x00074 4 s.res.otpLen.toNat ∧ RegisterAt s 0x00078 4 s.res.tagLen.toNat) ∧
    (BufferAt s 0x00080 16 s.res.otp ∧ BufferAt s 0x00090 16 s.sub ∧ BufferAt s 0x000C0 64 s.res.tag ∧
      BufferAt s 0x10000 s.params.msgMax s.msg ∧ BufferAt s 0x20000 s.params.keyMax s.key) ∧
    (∀ a, s.contentAt a = none ↔ ReservedByR72 s.params a) ∧
    (List.range 8).map (fun i => s.contentAt (0x00010 + i)) = (be8 s.ops.ctr.toNat).map some

/-- Results and operands persist: an access that runs no command changes no result, nor `CMD`, `STATUS` or `RC`, and a
command changes no operand. Rests on R321. -/
def Obligations.ResultsPersistUntilTheNextCommand : Prop :=
  ∀ (s t : State) (a : HostAction) (rest : List HostAction), s.pending = a :: rest → step s = .next t → a ≠ .reset →
    ((∀ w : Word, a ≠ .write 0x00000 (beBytes 4 w.toNat)) →
      t.res = s.res ∧ t.rc = s.rc ∧ t.cmd = s.cmd ∧ t.status = s.status) ∧
    (∀ w : Word, a = .write 0x00000 (beBytes 4 w.toNat) → t.ops = s.ops ∧ t.key = s.key ∧ t.msg = s.msg ∧ t.sub = s.sub)

/-! ## Error codes, status, reset, runs (60_exceptions.md, 10_state.md, 70_reset_and_hazards.md) -/

/-- R281: the code and the `RC` bits of every error kind, the six values a command can leave in `RC`, and which commands
raise which code, when. -/
def Obligations.ErrorCodesAreTheTaxonomy : Prop :=
  (ErrorKind.code .ok = 0 ∧ ErrorKind.code .cryptoError = -1 ∧ ErrorKind.code .invalidDigits = -2 ∧
   ErrorKind.code .printfError = -3 ∧ ErrorKind.code .invalidHex = -4 ∧ ErrorKind.code .tooSmallBuffer = -5 ∧
   ErrorKind.code .invalidOtp = -6 ∧ ErrorKind.code .badPassword = -8 ∧ ErrorKind.code .invalidCounter = -9 ∧
   ErrorKind.code .invalidTimestamp = -10 ∧ ErrorKind.code .invalidBase32 = -20 ∧
   ErrorKind.code .base32Overflow = -21 ∧ ErrorKind.code .mallocError = -22) ∧
  (∀ e : ErrorKind, e.rcBits.toInt = e.code) ∧
  (∀ (i : Instr) (s t : State), exec i s = .next t →
    t.rc = s.rc ∨ t.rc.toInt = 0 ∨ t.rc.toInt = -1 ∨ t.rc.toInt = -2 ∨ t.rc.toInt = -6 ∨ t.rc.toInt = -9 ∨ t.rc.toInt = -10) ∧
  (∀ (i : Instr) (s t : State), i ≠ .nop → ¬ LengthRefusedFor i s → exec i s = .next t →
    t.rc.toInt ∈ ([0, -1, -2, -6, -9, -10] : List Int) ∧
    (t.rc.toInt = -1 → i = .hmac .reserved ∨ (∃ d, i = .totpGen .reserved d) ∨ i = .totpVal .reserved) ∧
    (t.rc.toInt = -2 → ∀ alg, i ≠ .hmac alg) ∧
    (t.rc.toInt = -6 ∨ t.rc.toInt = -9 → (∃ c, i = .hotpVal c) ∨ ∃ alg, i = .totpVal alg) ∧
    (t.rc.toInt = -9 → ∀ alg, i = .totpVal alg → 2 ^ 63 ≤ s.ops.window.toNat) ∧
    (t.rc.toInt = -10 → ((∃ alg d, i = .totpGen alg d) ∨ ∃ alg, i = .totpVal alg) ∧
      (s.ops.step = 0 ∨ s.ops.now.toInt < s.ops.start.toInt)))

/-- R24: the flags of `STATUS` are sticky: only an illegal word written to `CMD` sets `ILLCMD`, only a length refusal
sets `ILLLEN`, nothing but reset clears either, no other bit ever changes, and the block executes commands whatever the
flags are. -/
def Obligations.StatusFlagsAreSticky : Prop :=
  (∀ (s t : State) (a : HostAction) (rest : List HostAction), s.pending = a :: rest → a ≠ .reset → step s = .next t →
    (s.status.getLsbD 0 = true → t.status.getLsbD 0 = true) ∧
    (s.status.getLsbD 1 = true → t.status.getLsbD 1 = true) ∧
    (∀ k, 2 ≤ k → t.status.getLsbD k = s.status.getLsbD k) ∧
    (s.status.getLsbD 0 = false → t.status.getLsbD 0 = true →
      ∃ w : Word, a = .write 0x00000 (beBytes 4 w.toNat) ∧ ∀ i, decodeWord w ≠ .ok i) ∧
    (s.status.getLsbD 1 = false → t.status.getLsbD 1 = true →
      ∃ (w : Word) (i : Instr), a = .write 0x00000 (beBytes 4 w.toNat) ∧ decodeWord w = .ok i ∧ LengthRefusedFor i s)) ∧
  (∀ (s t : State) (rest : List HostAction), s.pending = .reset :: rest → step s = .next t → t.status = 0) ∧
  (∀ (i : Instr) (s t : State) (x : Word), ¬ LengthRefusedFor i s → exec i s = .next t →
    exec i { s with status := x } = .next { t with status := x }) ∧
  ∀ c : Config, (State.resetWith c).status = 0

/-- R311: the reset value of every register and of every byte of every buffer, for all parameters. -/
def Obligations.ResetValuesAreThoseOfTheTable : Prop :=
  ∀ c : Config,
    let s := State.resetWith c
    s.params = c ∧ s.cmd = 0x00000000#32 ∧ s.status = 0x00000000#32 ∧ s.rc = 0x00000000#32 ∧
    s.regValue .version = c.versionNum.toNat ∧
    s.ops.ctr = 0 ∧ s.ops.now = 0 ∧ s.ops.start = 0 ∧ s.ops.step = 0x0000001E#32 ∧ s.ops.window = 0 ∧
    s.ops.trunc = 0xFFFFFFFFFFFFFFFF#64 ∧ s.ops.keyLen = 0 ∧ s.ops.msgLen = 0 ∧ s.ops.subLen = 0 ∧
    (∀ k, s.key.read k = 0x00#8 ∧ s.msg.read k = 0x00#8 ∧ s.sub.read k = 0x00#8) ∧
    s.res.pos = 0 ∧ s.res.matchCtr = 0 ∧ s.res.tctr = 0 ∧ s.res.binCode = 0 ∧ s.res.otpVal = 0 ∧ s.res.offset = 0 ∧
    s.res.otpLen = 0 ∧ s.res.tagLen = 0 ∧ (∀ k, s.res.otp.read k = 0x00#8 ∧ s.res.tag.read k = 0x00#8)

/-- A reset between accesses sets every piece of the block's state to its reset value, whatever it was; the parameters
stay, and so does the host's side (log 1). Rests on R310, R311, R312. -/
def Obligations.ResetActionGivesTheResetState : Prop :=
  ∀ (s : State) (rest : List HostAction), s.pending = .reset :: rest →
    step s = .next { State.resetWith s.params with pending := rest, responses := s.responses }

/-- R26: `VERSION` reads the parameter `VERSION_NUM` in every state, and no step changes it, or any parameter. -/
def Obligations.VersionIsConstant : Prop :=
  (∀ s : State, s.regValue .version = s.params.versionNum.toNat) ∧
  (∀ s t : State, step s = .next t → t.params = s.params ∧ t.regValue .version = s.regValue .version) ∧
  (∀ c : Config, (State.resetWith c).regValue .version = c.versionNum.toNat)

/-- The block has no trap: every step answers a next state. Rests on R14, R287, R288. -/
def Obligations.EveryStepAnswersNext : Prop :=
  (∀ s : State, ∃ t, step s = .next t) ∧ (∀ (i : Instr) (s : State), ∃ t, exec i s = .next t)

/-- The reset state meets the invariant, for all legal parameters. Rests on R311. -/
def Obligations.ResetMeetsTheInvariant : Prop :=
  (∀ c : Config, c.wf → (State.resetWith c).Inv) ∧ State.reset.Inv

/-- Every step keeps the invariant of the block: the reserved bits of `STATUS` are zero, `RC` is one of six codes, after
a failure every result is zero, every result register is in its range, `OTP` holds digits, and every buffer is in
canonical form inside its capacity. Rests on R24, R25, R40 to R54, R134. -/
def Obligations.EveryStepKeepsTheInvariant : Prop :=
  ∀ s t : State, s.Inv → step s = .next t → t.Inv

/-- Accesses take effect one at a time in the order of the program: a step takes the oldest one alone, whatever follows
it, and answers it, unless it is a reset, with one more answer; the run of `p ++ q` is the run of `q` from the end of
`p`; the run of one access is its step; a run answers each access but resets and ends after the last. Rests on R80, R322;
that the host's program and the answers stand in the state is the model's choice (log 1). -/
def Obligations.RunEndsAfterTheLastAccess : Prop :=
  (∀ (s t : State) (a : HostAction) (rest : List HostAction), s.pending = a :: rest → step s = .next t →
    t.pending = rest ∧ (a = .reset → t.responses = s.responses) ∧ (a ≠ .reset → ∃ r, t.responses = r :: s.responses) ∧
    ∀ other, step { s with pending := a :: other } = .next { t with pending := other }) ∧
  (∀ (s t u : State) (p q : HostProgram), runProgram s p = .next t → runProgram t q = .next u →
    runProgram s (p ++ q) = .next { u with responses := u.responses ++ t.responses }) ∧
  (∀ (s : State) (a : HostAction), runProgram s [a] = step { s with pending := [a], responses := [] }) ∧
  (∀ (s : State) (p : HostProgram), ∃ t, runProgram s p = .next t ∧ t.pending = [] ∧
    t.responses.length = (p.filter (· ≠ .reset)).length)
end

