-- ==== Sys2Proof/Laws/Bytes.lean ====
section
/-! SUPPORT. Big-endian byte sequences and the integers they stand for. -/

namespace Sys2Proof

@[simp] theorem beBytes_length (n v : Nat) : (beBytes n v).length = n := by simp [beBytes]

theorem beBytes_getD (n v i : Nat) (h : i < n) : (beBytes n v).getD i 0 = BitVec.ofNat 8 (v / 256 ^ (n - 1 - i)) := by
  simp [beBytes, List.getD_eq_getElem?_getD, h]

/-- The most significant byte, then the rest. -/
theorem beBytes_succ (n v : Nat) : beBytes (n + 1) v = BitVec.ofNat 8 (v / 256 ^ n) :: beBytes n v := by
  simp only [beBytes, List.range_succ_eq_map, List.map_cons, List.map_map]
  congr 1
  refine List.map_congr_left fun i _ => ?_
  simp [show n - (i + 1) = n - 1 - i by omega]

theorem foldl_bytes (bs : List Byte) (v : Nat) :
    bs.foldl (fun v b => 256 * v + b.toNat) v = 256 ^ bs.length * v + beValue bs := by
  induction bs generalizing v with
  | nil => simp [beValue]
  | cons b bs ih =>
    simp only [beValue, List.foldl_cons, List.length_cons, ih (256 * v + b.toNat), ih (256 * 0 + b.toNat)]
    ring

@[simp] theorem beValue_nil : beValue [] = 0 := rfl

theorem beValue_cons (b : Byte) (bs : List Byte) : beValue (b :: bs) = 256 ^ bs.length * b.toNat + beValue bs := by
  rw [beValue, List.foldl_cons, foldl_bytes]; simp

theorem beValue_append (as bs : List Byte) : beValue (as ++ bs) = 256 ^ bs.length * beValue as + beValue bs := by
  rw [beValue, List.foldl_append, foldl_bytes]; rfl

theorem beValue_lt (bs : List Byte) : beValue bs < 256 ^ bs.length := by
  induction bs with
  | nil => simp
  | cons b bs ih =>
    rw [beValue_cons, List.length_cons, pow_succ]
    have := b.isLt
    have : 256 ^ bs.length * b.toNat ≤ 256 ^ bs.length * 255 := Nat.mul_le_mul_left _ (by omega)
    omega

/-- The `n` bytes of `v` stand for `v mod 256^n`. -/
theorem beValue_beBytes (n v : Nat) : beValue (beBytes n v) = v % 256 ^ n := by
  induction n with
  | zero => simp [beBytes, Nat.mod_one]
  | succ n ih =>
    have h : v % 256 ^ (n + 1) = v % 256 ^ n + 256 ^ n * (v / 256 ^ n % 256) := by rw [pow_succ, Nat.mod_mul]
    rw [beBytes_succ, beValue_cons, ih, beBytes_length, BitVec.toNat_ofNat, h, Nat.add_comm]

/-- A byte sequence is the big-endian encoding of its value. -/
theorem beBytes_beValue (bs : List Byte) : beBytes bs.length (beValue bs) = bs := by
  induction bs with
  | nil => rfl
  | cons b bs ih =>
    have hlt := beValue_lt bs
    have hpos : 0 < 256 ^ bs.length := Nat.pow_pos (by decide)
    rw [List.length_cons, beBytes_succ, beValue_cons]
    congr 1
    · rw [Nat.mul_add_div hpos, Nat.div_eq_of_lt hlt]; simp
    · refine Eq.trans ?_ ih
      refine List.map_congr_left fun i hi => ?_
      have hi : i < bs.length := by simpa using hi
      apply BitVec.eq_of_toNat_eq
      simp only [BitVec.toNat_ofNat]
      obtain ⟨d, hd⟩ : ∃ d, bs.length = (bs.length - 1 - i) + 1 + d := ⟨i, by omega⟩
      generalize bs.length - 1 - i = e at hd ⊢
      rw [hd, show 256 ^ (e + 1 + d) * b.toNat = 256 ^ e * (256 * (256 ^ d * b.toNat)) by ring,
        Nat.mul_add_div (Nat.pow_pos (by decide))]
      omega

theorem beBytes_injective {n v w : Nat} (hv : v < 256 ^ n) (hw : w < 256 ^ n) (h : beBytes n v = beBytes n w) : v = w := by
  have := congrArg beValue h
  rwa [beValue_beBytes, beValue_beBytes, Nat.mod_eq_of_lt hv, Nat.mod_eq_of_lt hw] at this

/-- A command word is the value of its four bytes. -/
theorem word_of_bytes (w : Word) : BitVec.ofNat 32 (beValue (beBytes 4 w.toNat)) = w := by
  rw [beValue_beBytes, Nat.mod_eq_of_lt (by have := w.isLt; omega)]
  simp

theorem decodeBytes_word (w : Word) : decodeBytes (beBytes 4 w.toNat) = decodeWord w := by
  simp [decodeBytes, word_of_bytes]

end Sys2Proof
end

