-- ==== Sys2Proof/Laws/Memory.lean ====
section
/-! SUPPORT. Reading and writing the bytes of a buffer: read after write, the canonical form, and equality of
contents. -/

namespace Sys2Proof.Machine

@[simp] theorem Memory.read_nil (k : Nat) : Memory.read [] k = Memory.unlisted := rfl

theorem Memory.read_cons (c : Host.Cell) (m : Memory) (k : Nat) :
    Memory.read (c :: m) k = if c.1 = k then c.2 else Memory.read m k := rfl

/-- A byte below every listed index is not listed. -/
theorem Memory.read_of_lt (m : Memory) (k : Nat) (h : ∀ c ∈ m, k < c.1) : m.read k = Memory.unlisted := by
  induction m with
  | nil => rfl
  | cons c m ih =>
    rw [Memory.read_cons, if_neg (Nat.ne_of_gt (h c (by simp)))]
    exact ih fun d hd => h d (by simp [hd])

theorem Memory.wf_cons {c : Host.Cell} {m : Memory} (h : Memory.wf (c :: m)) :
    Memory.wf m ∧ c.2 ≠ Memory.unlisted ∧ ∀ d ∈ m, c.1 < d.1 := by
  obtain ⟨hp, hz⟩ := h
  rw [List.pairwise_cons] at hp
  exact ⟨⟨hp.2, fun d hd => hz d (by simp [hd])⟩, hz c (by simp), hp.1⟩

theorem Memory.wf_cons_of {c : Host.Cell} {m : Memory} (h : Memory.wf m) (hc : c.2 ≠ Memory.unlisted)
    (hlt : ∀ d ∈ m, c.1 < d.1) : Memory.wf (c :: m) :=
  ⟨List.pairwise_cons.2 ⟨hlt, h.1⟩, by simpa [hc] using h.2⟩

@[simp] theorem Memory.wf_nil : Memory.wf [] := by simp [Memory.wf]

/-- What is written is read; every other byte reads as before. -/
theorem Memory.read_write (m : Memory) (a k : Nat) (b : Byte) (h : m.wf) :
    (m.write a b).read k = if k = a then b else m.read k := by
  induction m with
  | nil =>
    by_cases hb : b = Memory.unlisted <;> by_cases hk : k = a
    · simp [Memory.write, hb]
    · simp [Memory.write, hb]
    · simp [Memory.write, Memory.read_cons, hb, hk]
    · simp [Memory.write, Memory.read_cons, hb, hk, Ne.symm hk]
  | cons c m ih =>
    obtain ⟨hm, _, hlt⟩ := Memory.wf_cons h
    have hbelow : ∀ j, j ≤ c.1 → Memory.read m j = Memory.unlisted := fun j hj =>
      Memory.read_of_lt m j fun d hd => lt_of_le_of_lt hj (hlt d hd)
    unfold Memory.write
    split
    · rename_i hac
      have hne : c.1 ≠ a := by omega
      split <;> by_cases hk : k = a
      · subst hk; rw [Memory.read_cons, if_neg hne, hbelow k hac.le, if_pos rfl]; simp [*]
      · simp [hk]
      · subst hk; simp [Memory.read_cons]
      · simp [Memory.read_cons, hk, Ne.symm hk]
    · split
      · rename_i _ hac
        subst hac
        split <;> by_cases hk : k = c.1
        · subst hk; simp [hbelow c.1 le_rfl, *]
        · simp [Memory.read_cons, hk, Ne.symm hk]
        · subst hk; simp [Memory.read_cons]
        · simp [Memory.read_cons, hk, Ne.symm hk]
      · rename_i hlt' hne
        by_cases hk : c.1 = k
        · subst hk; simp [Memory.read_cons, Ne.symm hne]
        · simp [Memory.read_cons, hk, ih hm]

/-- Every index listed after a write was listed before or is the one written. -/
theorem Memory.mem_write {m : Memory} {a : Nat} {b : Byte} {c : Host.Cell} (h : c ∈ Memory.write m a b) : c ∈ m ∨ c.1 = a := by
  induction m with
  | nil =>
    unfold Memory.write at h
    split at h <;> simp_all
  | cons d m ih =>
    unfold Memory.write at h
    split at h
    · split at h
      · exact .inl h
      · rcases List.mem_cons.1 h with rfl | h
        · exact .inr rfl
        · exact .inl h
    · split at h
      · split at h
        · exact .inl (List.mem_cons_of_mem _ h)
        · rcases List.mem_cons.1 h with rfl | h
          · exact .inr rfl
          · exact .inl (List.mem_cons_of_mem _ h)
      · rcases List.mem_cons.1 h with rfl | h
        · exact .inl (by simp)
        · exact (ih h).imp (List.mem_cons_of_mem _) id

/-- A write keeps the canonical form. -/
theorem Memory.write_wf (m : Memory) (a : Nat) (b : Byte) (h : m.wf) : (m.write a b).wf := by
  induction m with
  | nil => unfold Memory.write; split <;> simp_all [Memory.wf]
  | cons c m ih =>
    obtain ⟨hm, hc, hlt⟩ := Memory.wf_cons h
    unfold Memory.write
    split
    · rename_i hac
      split
      · exact h
      · rename_i hb
        refine Memory.wf_cons_of h hb fun d hd => ?_
        rcases List.mem_cons.1 hd with rfl | hd
        · exact hac
        · exact lt_trans hac (hlt d hd)
    · split
      · rename_i _ hac
        split
        · exact hm
        · rename_i hb
          exact Memory.wf_cons_of hm hb fun d hd => hac ▸ hlt d hd
      · refine Memory.wf_cons_of (ih hm) hc fun d hd => ?_
        rcases Memory.mem_write hd with hd | hd
        · exact hlt d hd
        · omega

@[simp] theorem Memory.store_nil (m : Memory) (a : Nat) : m.store a [] = m := rfl

theorem Memory.store_wf (m : Memory) (a : Nat) (bs : List Byte) (h : m.wf) : (m.store a bs).wf := by
  induction bs generalizing m a with
  | nil => exact h
  | cons b bs ih => exact ih _ _ (Memory.write_wf m a b h)

/-- Storing `bs` from `a` on: the bytes stored are read there, every other byte reads as before. -/
theorem Memory.read_store (m : Memory) (a k : Nat) (bs : List Byte) (h : m.wf) :
    (m.store a bs).read k = if a ≤ k ∧ k < a + bs.length then bs.getD (k - a) 0x00#8 else m.read k := by
  induction bs generalizing m a with
  | nil => simp only [Memory.store_nil, List.length_nil, Nat.add_zero]; rw [if_neg (by omega)]
  | cons b bs ih =>
    rw [Memory.store, ih _ _ (Memory.write_wf m a b h), Memory.read_write m a k b h]
    by_cases hk : k = a
    · subst hk
      rw [if_neg (by omega), if_pos rfl, if_pos (by simp)]
      simp
    · by_cases hr : a + 1 ≤ k ∧ k < a + 1 + bs.length
      · obtain ⟨j, rfl⟩ : ∃ j, k = a + 1 + j := ⟨k - (a + 1), by omega⟩
        rw [if_pos hr, if_pos (by simp; omega)]
        simp [show a + 1 + j - a = j + 1 by omega]
      · rw [if_neg hr, if_neg hk, if_neg (by simp; omega)]

/-- Every index listed after a store was listed before or is among those stored. -/
theorem Memory.mem_store {m : Memory} {a : Nat} {bs : List Byte} {c : Host.Cell} (h : c ∈ m.store a bs) :
    c ∈ m ∨ (a ≤ c.1 ∧ c.1 < a + bs.length) := by
  induction bs generalizing m a with
  | nil => exact .inl h
  | cons b bs ih =>
    rcases ih h with hc | hc
    · rcases Memory.mem_write hc with hc | hc
      · exact .inl hc
      · exact .inr (by simp; omega)
    · exact .inr (by simp; omega)

theorem Memory.ofBytes_wf (bs : List Byte) : (Memory.ofBytes bs).wf := Memory.store_wf [] 0 bs Memory.wf_nil

/-- A cleared buffer holding `bs` reads as `bs`, and as `0x00` beyond. -/
theorem Memory.read_ofBytes (bs : List Byte) (k : Nat) : (Memory.ofBytes bs).read k = bs.getD k 0x00#8 := by
  rw [Memory.ofBytes, Memory.read_store _ _ _ _ Memory.wf_nil]
  by_cases hk : k < bs.length
  · rw [if_pos ⟨Nat.zero_le _, by omega⟩, Nat.sub_zero]
  · rw [if_neg (by omega), List.getD_eq_default _ _ (by omega)]; rfl

theorem Memory.mem_ofBytes {bs : List Byte} {c : Host.Cell} (h : c ∈ Memory.ofBytes bs) : c.1 < bs.length := by
  rcases Memory.mem_store h with h | h
  · simp at h
  · omega

@[simp] theorem Memory.slice_length (m : Memory) (n : Nat) : (m.slice n).length = n := by simp [Memory.slice]

/-- Two buffers that agree below `n` give the same byte sequence. -/
theorem Memory.slice_congr (m m' : Memory) (n : Nat) (h : ∀ k < n, m.read k = m'.read k) : m.slice n = m'.slice n := by
  simpa [Memory.slice] using h

theorem Memory.mem_slice {m : Memory} {n : Nat} {b : Byte} : b ∈ m.slice n ↔ ∃ k < n, m.read k = b := by
  simp [Memory.slice]

end Sys2Proof.Machine
end

