-- ==== Sys2Proof/Laws/State.lean ====
section
/-! SUPPORT. What each named update of the state leaves in each field: one lemma per field per update, true by
definition, so that no later proof unfolds a record update. -/

namespace Sys2Proof.Machine

/-! ## `setIllCmd` -/

@[simp] theorem State.setIllCmd_params (s : State) : s.setIllCmd.params = s.params := rfl
@[simp] theorem State.setIllCmd_cmd (s : State) : s.setIllCmd.cmd = s.cmd := rfl
@[simp] theorem State.setIllCmd_status (s : State) : s.setIllCmd.status = s.status ||| 1#32 := rfl
@[simp] theorem State.setIllCmd_rc (s : State) : s.setIllCmd.rc = s.rc := rfl
@[simp] theorem State.setIllCmd_ops (s : State) : s.setIllCmd.ops = s.ops := rfl
@[simp] theorem State.setIllCmd_key (s : State) : s.setIllCmd.key = s.key := rfl
@[simp] theorem State.setIllCmd_msg (s : State) : s.setIllCmd.msg = s.msg := rfl
@[simp] theorem State.setIllCmd_sub (s : State) : s.setIllCmd.sub = s.sub := rfl
@[simp] theorem State.setIllCmd_res (s : State) : s.setIllCmd.res = s.res := rfl
@[simp] theorem State.setIllCmd_pending (s : State) : s.setIllCmd.pending = s.pending := rfl
@[simp] theorem State.setIllCmd_responses (s : State) : s.setIllCmd.responses = s.responses := rfl

/-! ## `setIllLen` -/

@[simp] theorem State.setIllLen_params (s : State) : s.setIllLen.params = s.params := rfl
@[simp] theorem State.setIllLen_cmd (s : State) : s.setIllLen.cmd = s.cmd := rfl
@[simp] theorem State.setIllLen_status (s : State) : s.setIllLen.status = s.status ||| 2#32 := rfl
@[simp] theorem State.setIllLen_rc (s : State) : s.setIllLen.rc = s.rc := rfl
@[simp] theorem State.setIllLen_ops (s : State) : s.setIllLen.ops = s.ops := rfl
@[simp] theorem State.setIllLen_key (s : State) : s.setIllLen.key = s.key := rfl
@[simp] theorem State.setIllLen_msg (s : State) : s.setIllLen.msg = s.msg := rfl
@[simp] theorem State.setIllLen_sub (s : State) : s.setIllLen.sub = s.sub := rfl
@[simp] theorem State.setIllLen_res (s : State) : s.setIllLen.res = s.res := rfl
@[simp] theorem State.setIllLen_pending (s : State) : s.setIllLen.pending = s.pending := rfl
@[simp] theorem State.setIllLen_responses (s : State) : s.setIllLen.responses = s.responses := rfl

/-! ## `clearResults` -/

@[simp] theorem State.clearResults_params (s : State) : s.clearResults.params = s.params := rfl
@[simp] theorem State.clearResults_cmd (s : State) : s.clearResults.cmd = s.cmd := rfl
@[simp] theorem State.clearResults_status (s : State) : s.clearResults.status = s.status := rfl
@[simp] theorem State.clearResults_rc (s : State) : s.clearResults.rc = 0 := rfl
@[simp] theorem State.clearResults_ops (s : State) : s.clearResults.ops = s.ops := rfl
@[simp] theorem State.clearResults_key (s : State) : s.clearResults.key = s.key := rfl
@[simp] theorem State.clearResults_msg (s : State) : s.clearResults.msg = s.msg := rfl
@[simp] theorem State.clearResults_sub (s : State) : s.clearResults.sub = s.sub := rfl
@[simp] theorem State.clearResults_res (s : State) : s.clearResults.res = Results.zero := rfl
@[simp] theorem State.clearResults_pending (s : State) : s.clearResults.pending = s.pending := rfl
@[simp] theorem State.clearResults_responses (s : State) : s.clearResults.responses = s.responses := rfl

/-! ## `raiseError` -/

@[simp] theorem State.raiseError_params (e : ErrorKind) (s : State) : (State.raiseError e s).params = s.params := rfl
@[simp] theorem State.raiseError_cmd (e : ErrorKind) (s : State) : (State.raiseError e s).cmd = s.cmd := rfl
@[simp] theorem State.raiseError_status (e : ErrorKind) (s : State) : (State.raiseError e s).status = s.status := rfl
@[simp] theorem State.raiseError_rc (e : ErrorKind) (s : State) : (State.raiseError e s).rc = e.rcBits := rfl
@[simp] theorem State.raiseError_ops (e : ErrorKind) (s : State) : (State.raiseError e s).ops = s.ops := rfl
@[simp] theorem State.raiseError_key (e : ErrorKind) (s : State) : (State.raiseError e s).key = s.key := rfl
@[simp] theorem State.raiseError_msg (e : ErrorKind) (s : State) : (State.raiseError e s).msg = s.msg := rfl
@[simp] theorem State.raiseError_sub (e : ErrorKind) (s : State) : (State.raiseError e s).sub = s.sub := rfl
@[simp] theorem State.raiseError_res (e : ErrorKind) (s : State) : (State.raiseError e s).res = s.res := rfl
@[simp] theorem State.raiseError_pending (e : ErrorKind) (s : State) : (State.raiseError e s).pending = s.pending := rfl
@[simp] theorem State.raiseError_responses (e : ErrorKind) (s : State) : (State.raiseError e s).responses = s.responses := rfl

/-! ## `complete` -/

@[simp] theorem State.complete_params (r : Results) (s : State) : (State.complete r s).params = s.params := rfl
@[simp] theorem State.complete_cmd (r : Results) (s : State) : (State.complete r s).cmd = s.cmd := rfl
@[simp] theorem State.complete_status (r : Results) (s : State) : (State.complete r s).status = s.status := rfl
@[simp] theorem State.complete_rc (r : Results) (s : State) : (State.complete r s).rc = 0 := rfl
@[simp] theorem State.complete_ops (r : Results) (s : State) : (State.complete r s).ops = s.ops := rfl
@[simp] theorem State.complete_key (r : Results) (s : State) : (State.complete r s).key = s.key := rfl
@[simp] theorem State.complete_msg (r : Results) (s : State) : (State.complete r s).msg = s.msg := rfl
@[simp] theorem State.complete_sub (r : Results) (s : State) : (State.complete r s).sub = s.sub := rfl
@[simp] theorem State.complete_res (r : Results) (s : State) : (State.complete r s).res = r := rfl
@[simp] theorem State.complete_pending (r : Results) (s : State) : (State.complete r s).pending = s.pending := rfl
@[simp] theorem State.complete_responses (r : Results) (s : State) : (State.complete r s).responses = s.responses := rfl

/-! ## `respond` -/

@[simp] theorem State.respond_params (s : State) (r : BusResponse) : (s.respond r).params = s.params := rfl
@[simp] theorem State.respond_cmd (s : State) (r : BusResponse) : (s.respond r).cmd = s.cmd := rfl
@[simp] theorem State.respond_status (s : State) (r : BusResponse) : (s.respond r).status = s.status := rfl
@[simp] theorem State.respond_rc (s : State) (r : BusResponse) : (s.respond r).rc = s.rc := rfl
@[simp] theorem State.respond_ops (s : State) (r : BusResponse) : (s.respond r).ops = s.ops := rfl
@[simp] theorem State.respond_key (s : State) (r : BusResponse) : (s.respond r).key = s.key := rfl
@[simp] theorem State.respond_msg (s : State) (r : BusResponse) : (s.respond r).msg = s.msg := rfl
@[simp] theorem State.respond_sub (s : State) (r : BusResponse) : (s.respond r).sub = s.sub := rfl
@[simp] theorem State.respond_res (s : State) (r : BusResponse) : (s.respond r).res = s.res := rfl
@[simp] theorem State.respond_pending (s : State) (r : BusResponse) : (s.respond r).pending = s.pending := rfl
@[simp] theorem State.respond_responses (s : State) (r : BusResponse) : (s.respond r).responses = r :: s.responses := rfl

/-! ## `load` -/

@[simp] theorem State.load_params (s : State) (p : HostProgram) : (s.load p).params = s.params := rfl
@[simp] theorem State.load_cmd (s : State) (p : HostProgram) : (s.load p).cmd = s.cmd := rfl
@[simp] theorem State.load_status (s : State) (p : HostProgram) : (s.load p).status = s.status := rfl
@[simp] theorem State.load_rc (s : State) (p : HostProgram) : (s.load p).rc = s.rc := rfl
@[simp] theorem State.load_ops (s : State) (p : HostProgram) : (s.load p).ops = s.ops := rfl
@[simp] theorem State.load_key (s : State) (p : HostProgram) : (s.load p).key = s.key := rfl
@[simp] theorem State.load_msg (s : State) (p : HostProgram) : (s.load p).msg = s.msg := rfl
@[simp] theorem State.load_sub (s : State) (p : HostProgram) : (s.load p).sub = s.sub := rfl
@[simp] theorem State.load_res (s : State) (p : HostProgram) : (s.load p).res = s.res := rfl
@[simp] theorem State.load_pending (s : State) (p : HostProgram) : (s.load p).pending = p := rfl
@[simp] theorem State.load_responses (s : State) (p : HostProgram) : (s.load p).responses = s.responses := rfl

/-! ## `withFetchWord` -/

@[simp] theorem State.withFetchWord_params (s : State) (n w : Nat) : (s.withFetchWord n w).params = s.params := rfl
@[simp] theorem State.withFetchWord_cmd (s : State) (n w : Nat) : (s.withFetchWord n w).cmd = s.cmd := rfl
@[simp] theorem State.withFetchWord_status (s : State) (n w : Nat) : (s.withFetchWord n w).status = s.status := rfl
@[simp] theorem State.withFetchWord_rc (s : State) (n w : Nat) : (s.withFetchWord n w).rc = s.rc := rfl
@[simp] theorem State.withFetchWord_ops (s : State) (n w : Nat) : (s.withFetchWord n w).ops = s.ops := rfl
@[simp] theorem State.withFetchWord_key (s : State) (n w : Nat) : (s.withFetchWord n w).key = s.key := rfl
@[simp] theorem State.withFetchWord_msg (s : State) (n w : Nat) : (s.withFetchWord n w).msg = s.msg := rfl
@[simp] theorem State.withFetchWord_sub (s : State) (n w : Nat) : (s.withFetchWord n w).sub = s.sub := rfl
@[simp] theorem State.withFetchWord_res (s : State) (n w : Nat) : (s.withFetchWord n w).res = s.res := rfl
@[simp] theorem State.withFetchWord_pending (s : State) (n w : Nat) : (s.withFetchWord n w).pending = commandAction (BitVec.ofNat 32 (w % 2 ^ n)) :: s.pending := rfl
@[simp] theorem State.withFetchWord_responses (s : State) (n w : Nat) : (s.withFetchWord n w).responses = s.responses := rfl

end Sys2Proof.Machine
end

