-- ==== Sys2Proof/Laws/Ops.lean ====
section
/-! SUPPORT. What the command frame, a command and one step can do: one inversion lemma each, from which the statements
about outcomes and frames follow without unfolding the meanings again. -/

namespace Sys2Proof.Machine

/-- Does the frame check `MSGLEN` for the command (R133). -/
def readsMsg : Instr → Bool
  | .hmac _ => true
  | .nop => false
  | .hotpGen _ _ => false
  | .hotpVal _ => false
  | .totpGen _ _ => false
  | .totpVal _ => false

/-- What the command computes once the frame has let it through; `NOP` never gets there. -/
def bodyOf : Instr → State → Except ErrorKind Results
  | .nop, s => .ok s.res
  | .hmac alg, s => hmacBody alg s
  | .hotpGen digits chk, s => hotpGenBody digits chk s
  | .hotpVal chk, s => hotpValBody chk s
  | .totpGen alg digits, s => totpGenBody alg digits s
  | .totpVal alg, s => totpValBody alg s

/-- Every command but `NOP` is its body in the frame. -/
theorem exec_eq_frame (i : Instr) (s : State) (h : i ≠ .nop) : exec i s = commandFrame (readsMsg i) (bodyOf i) s := by
  cases i <;> first | rfl | exact absurd rfl h

/-- A body reads no result, so clearing them first does not change what it computes. -/
theorem bodyOf_clearResults (i : Instr) (s : State) (h : i ≠ .nop) : bodyOf i s.clearResults = bodyOf i s := by
  cases i <;> first | rfl | exact absurd rfl h

/-- A command whose length the frame refuses sets `STATUS.ILLLEN` and nothing else. -/
theorem exec_refused (i : Instr) (s : State) (h : i ≠ .nop) (hl : lengthRefused (readsMsg i) s = true) :
    exec i s = .next s.setIllLen := by
  rw [exec_eq_frame i s h, commandFrame, if_pos hl]

/-- A command that raises `e` leaves every result zero and `RC = code(e)`. -/
theorem exec_error (i : Instr) (s : State) (e : ErrorKind) (h : i ≠ .nop) (hl : lengthRefused (readsMsg i) s = false)
    (hb : bodyOf i s = .error e) : exec i s = .next { s with rc := e.rcBits, res := Results.zero } := by
  rw [exec_eq_frame i s h, commandFrame, if_neg (by simp [hl]), bodyOf_clearResults i s h, hb]; rfl

/-- A command that completes leaves its results and `RC = 0`. -/
theorem exec_ok (i : Instr) (s : State) (r : Results) (h : i ≠ .nop) (hl : lengthRefused (readsMsg i) s = false)
    (hb : bodyOf i s = .ok r) : exec i s = .next { s with rc := 0, res := r } := by
  rw [exec_eq_frame i s h, commandFrame, if_neg (by simp [hl]), bodyOf_clearResults i s h, hb]; rfl

/-- Everything a command can do. -/
theorem exec_cases (i : Instr) (s : State) :
    (i = .nop ∧ exec i s = .next s) ∨
    (i ≠ .nop ∧ lengthRefused (readsMsg i) s = true ∧ exec i s = .next s.setIllLen) ∨
    (i ≠ .nop ∧ lengthRefused (readsMsg i) s = false ∧
      ∃ e, bodyOf i s = .error e ∧ exec i s = .next { s with rc := e.rcBits, res := Results.zero }) ∨
    (i ≠ .nop ∧ lengthRefused (readsMsg i) s = false ∧
      ∃ r, bodyOf i s = .ok r ∧ exec i s = .next { s with rc := 0, res := r }) := by
  by_cases h : i = .nop
  · exact .inl ⟨h, by rw [h]; rfl⟩
  · cases hl : lengthRefused (readsMsg i) s
    · cases hb : bodyOf i s with
      | error e => exact .inr (.inr (.inl ⟨h, rfl, e, rfl, exec_error i s e h hl hb⟩))
      | ok r => exact .inr (.inr (.inr ⟨h, rfl, r, rfl, exec_ok i s r h hl hb⟩))
    · exact .inr (.inl ⟨h, rfl, exec_refused i s h hl⟩)

/-- With no action pending a step changes nothing. -/
theorem step_idle (s : State) (h : s.pending = []) : step s = .next s := by simp [step, h]

/-- A step takes the oldest pending action. -/
theorem step_action (s : State) (a : HostAction) (rest : List HostAction) (h : s.pending = a :: rest) :
    step s = hostAction a { s with pending := rest } := by simp [step, h]

end Sys2Proof.Machine
end

