-- ==== Sys2Proof/Laws/Bus.lean ====
section
/-! SUPPORT. The address map in address order, where an address and an accepted access lie, what a write to a register or
buffer changes, what one host action can do, and that it does the same whatever program and answers stand beside it
(20_memory.md R72 to R80). -/

namespace Sys2Proof.Machine

/-! ## The address map -/

/-- The rows of the map stand in address order and do not overlap. -/
theorem memoryMap_ordered (c : Config) (h : c.wf) :
    (memoryMap c).Pairwise fun r r' => r.base + r.size ≤ r'.base := by
  have : c.msgMax ≤ 0x10000 := h.2.2.2.2.2
  simp [memoryMap]
  omega

theorem holds_iff (r : Region) (a : Nat) : r.holds a = true ↔ r.base ≤ a ∧ a < r.base + r.size := by
  simp [Region.holds]

/-- The region found is a row of the map that holds the address. -/
theorem regionAt_some {c : Config} {a : Nat} {r : Region} (h : regionAt c a = some r) :
    r ∈ memoryMap c ∧ r.base ≤ a ∧ a < r.base + r.size :=
  ⟨List.mem_of_find?_eq_some h, (holds_iff r a).1 (List.find?_some (p := fun x : Region => x.holds a) h)⟩

theorem find?_of_ordered (l : List Region) (hl : l.Pairwise fun r r' => r.base + r.size ≤ r'.base) (r : Region) (hr : r ∈ l)
    (a : Nat) (ha : r.holds a = true) : l.find? (·.holds a) = some r := by
  induction l with
  | nil => simp at hr
  | cons x l ih =>
    rw [List.pairwise_cons] at hl
    rcases List.mem_cons.1 hr with rfl | hr
    · simp [ha]
    · have hx : x.holds a = false := by
        have := hl.1 r hr
        have := (holds_iff r a).1 ha
        by_contra hc
        have := (holds_iff x a).1 (by simpa using hc)
        omega
      simp [hx, ih hl.2 hr]

/-- A row that holds the address is the one found. -/
theorem regionAt_of_mem {c : Config} (hc : c.wf) {r : Region} (hr : r ∈ memoryMap c) {a : Nat} (h1 : r.base ≤ a)
    (h2 : a < r.base + r.size) : regionAt c a = some r :=
  find?_of_ordered _ (memoryMap_ordered c hc) r hr a ((holds_iff r a).2 ⟨h1, h2⟩)

/-- Every row lies in the space; registers have the size of their word. -/
theorem memoryMap_bounds {c : Config} (hc : c.wf) {r : Region} (hr : r ∈ memoryMap c) :
    r.base + r.size ≤ 0x40000 ∧ (r.base < 4 → r = ⟨0x00000, 4, .reg .cmd, .readWrite⟩) ∧
    (r.place = .reg .cmd → r = ⟨0x00000, 4, .reg .cmd, .readWrite⟩) ∧
    (r.access = .writeOnly → r.base = 0x20000) ∧ (0x20000 ≤ r.base → r.access = .writeOnly) := by
  obtain ⟨-, -, hk, -, -, hm⟩ := hc
  simp only [memoryMap, List.mem_cons, List.not_mem_nil, or_false] at hr
  rcases hr with rfl | rfl | rfl | rfl | rfl | rfl | rfl | rfl | rfl | rfl | rfl | rfl | rfl | rfl | rfl | rfl | rfl | rfl |
    rfl | rfl | rfl | rfl | rfl | rfl | rfl | rfl <;> simp <;> omega

/-- An accepted access lies in one row of the map. -/
theorem acceptedRegion_some {c : Config} {kind : AccessKind} {addr n : Nat} {r : Region}
    (h : acceptedRegion c kind addr n = some r) :
    regionAt c addr = some r ∧ shapeOk addr n = true ∧ addr + n ≤ r.base + r.size ∧ cmdWriteOk kind r addr n = true := by
  unfold acceptedRegion at h
  split at h
  · rename_i hs
    split at h
    · simp at h
    · rename_i r' hr
      split at h
      · rename_i hc
        obtain rfl := Option.some.inj h
        exact ⟨hr, hs, hc.1, hc.2⟩
      · simp at h
  · simp at h

theorem acceptedRegion_of {c : Config} {kind : AccessKind} {addr n : Nat} {r : Region} (hr : regionAt c addr = some r)
    (hs : shapeOk addr n = true) (hn : addr + n ≤ r.base + r.size) (hw : cmdWriteOk kind r addr n = true) :
    acceptedRegion c kind addr n = some r := by
  simp [acceptedRegion, hr, hs, hn, hw]

/-- Whether the parameters are legal or not, the four bytes of `CMD` are accepted. -/
theorem acceptedRegion_cmd (c : Config) :
    acceptedRegion c .write 0x00000 4 = some ⟨0x00000, 4, .reg .cmd, .readWrite⟩ := by
  simp [acceptedRegion, shapeOk, regionAt, memoryMap, Region.holds, cmdWriteOk]

/-! ## The command write -/

/-- The write of a word to `CMD` stores the word, is answered, and runs the word's frame. -/
theorem hostWrite_cmd (w : Word) (s : State) :
    hostWrite 0x00000 (beBytes 4 w.toNat) s = runCommand ({ s with cmd := w }.respond .written) := by
  have hv : BitVec.ofNat 32 (beValue (splice 0 (beBytes 4 w.toNat) (beBytes 4 s.cmd.toNat))) = w := by
    rw [splice, List.take_zero, List.nil_append, List.drop_eq_nil_of_le (by simp), List.append_nil, word_of_bytes]
  simp only [hostWrite, beBytes_length, acceptedRegion_cmd, if_true, State.memWrite, State.storeRegion, State.regValue,
    State.setReg, Nat.sub_self, hv]

/-- Four bytes are the bytes of a word. -/
theorem four_bytes (data : List Byte) (h : data.length = 4) : ∃ w : Word, data = beBytes 4 w.toNat := by
  refine ⟨BitVec.ofNat 32 (beValue data), ?_⟩
  have := beValue_lt data
  rw [BitVec.toNat_ofNat, Nat.mod_eq_of_lt (by rw [h] at this; omega)]
  exact (h ▸ beBytes_beValue data).symm

/-- What the frame of the word in `CMD` does, by whether the word is legal. -/
theorem runCommand_ok (s : State) (i : Instr) (h : decodeWord s.cmd = .ok i) : runCommand s = exec i s := by
  simp [runCommand, h]

theorem runCommand_illegal (s : State) (h : ∀ i, decodeWord s.cmd ≠ .ok i) : runCommand s = .next s.setIllCmd := by
  unfold runCommand
  split
  · rfl
  · rename_i i hi; exact absurd hi (h i)

/-! ## Stores -/

/-- The fields of the state that a bus write outside `CMD` never touches. -/
structure SameButInputs (s t : State) : Prop where
  params : t.params = s.params
  cmd : t.cmd = s.cmd
  status : t.status = s.status
  rc : t.rc = s.rc
  res : t.res = s.res
  pending : t.pending = s.pending
  responses : t.responses = s.responses

theorem SameButInputs.refl (s : State) : SameButInputs s s := ⟨rfl, rfl, rfl, rfl, rfl, rfl, rfl⟩

theorem setReg_same (s : State) (g : Reg) (v : Nat) (h : g ≠ .cmd) : SameButInputs s (s.setReg g v) := by
  cases g <;> first | exact absurd rfl h | exact ⟨rfl, rfl, rfl, rfl, rfl, rfl, rfl⟩

theorem setBuffer_same (s : State) (b : Buf) (m : Memory) : SameButInputs s (s.setBuffer b m) := by
  cases b <;> exact ⟨rfl, rfl, rfl, rfl, rfl, rfl, rfl⟩

/-- An accepted write outside `CMD` touches operand registers and input buffers only. -/
theorem memWrite_same (s : State) (r : Region) (addr : Nat) (data : List Byte) (h : r.place ≠ .reg .cmd) :
    SameButInputs s (s.memWrite r addr data) := by
  have hstore : SameButInputs s (s.storeRegion r (addr - r.base) data) := by
    unfold State.storeRegion
    split
    · rename_i g hg; exact setReg_same s g _ fun hc => h (hc ▸ hg)
    · exact setBuffer_same s _ _
  unfold State.memWrite
  split
  · exact SameButInputs.refl s
  · exact hstore
  · exact hstore

/-! ## What one action of the host can do -/

/-- Every action answers a next state: a reset, an access that leaves everything but operands, input buffers and the
host's side alone, or the write of a command word. -/
theorem hostAction_cases (a : HostAction) (s : State) :
    (a = .reset ∧ hostAction a s = .next (hostReset s)) ∨
    (∃ w : Word, a = .write 0x00000 (beBytes 4 w.toNat) ∧
      hostAction a s = runCommand ({ s with cmd := w }.respond .written)) ∨
    (a ≠ .reset ∧ (∀ w : Word, a ≠ .write 0x00000 (beBytes 4 w.toNat)) ∧
      ∃ t r, hostAction a s = .next (t.respond r) ∧
        (t = s ∨ ∃ g addr data, acceptedRegion s.params .write addr data.length = some g ∧ g.place ≠ .reg .cmd ∧
          t = s.memWrite g addr data)) := by
  cases a with
  | reset => exact .inl ⟨rfl, rfl⟩
  | read addr n =>
    refine .inr (.inr ⟨by simp, by simp, s, ?_⟩)
    unfold hostAction hostRead
    split
    · rename_i h; cases h
    · rename_i h
      cases h
      split
      · exact ⟨_, rfl, .inl rfl⟩
      · exact ⟨_, rfl, .inl rfl⟩
    · rename_i h; cases h
  | write addr data =>
    by_cases hc : ∃ w : Word, HostAction.write addr data = .write 0x00000 (beBytes 4 w.toNat)
    · obtain ⟨w, hw⟩ := hc
      refine .inr (.inl ⟨w, hw, ?_⟩)
      rw [hw]; exact hostWrite_cmd w s
    · refine .inr (.inr ⟨by simp, fun w hw => hc ⟨w, hw⟩, ?_⟩)
      show ∃ t r, hostWrite addr data s = _ ∧ _
      unfold hostWrite
      split
      · exact ⟨s, .busError, rfl, .inl rfl⟩
      · rename_i g hg
        split
        · rename_i hp
          exfalso
          have h := (acceptedRegion_some hg).2.2.2
          obtain ⟨rfl, hlen⟩ := of_decide_eq_true h ⟨rfl, hp⟩
          obtain ⟨w, rfl⟩ := four_bytes data hlen
          exact hc ⟨w, rfl⟩
        · rename_i hp
          exact ⟨s.memWrite g addr data, .written, rfl, .inr ⟨g, addr, data, hg, hp, rfl⟩⟩

/-- Everything a step with an action pending can do: a reset, the frame of a command word, or an access that leaves all
but operands, input buffers and the host's side alone. -/
theorem step_cases {s t : State} {a : HostAction} {rest : List HostAction} (hp : s.pending = a :: rest)
    (ht : step s = .next t) :
    (a = .reset ∧ t = hostReset { s with pending := rest }) ∨
    (∃ w : Word, a = .write 0x00000 (beBytes 4 w.toNat) ∧
      ((∀ i, decodeWord w ≠ .ok i) ∧
          t = { s with cmd := w, pending := rest, responses := .written :: s.responses, status := s.status ||| 1#32 } ∨
        ∃ i, decodeWord w = .ok i ∧
          exec i { s with cmd := w, pending := rest, responses := .written :: s.responses } = .next t)) ∨
    (a ≠ .reset ∧ (∀ w : Word, a ≠ .write 0x00000 (beBytes 4 w.toNat)) ∧
      ∃ u r, t = u.respond r ∧ SameButInputs { s with pending := rest } u) := by
  rw [step_action s a rest hp] at ht
  rcases hostAction_cases a { s with pending := rest } with ⟨h0, h⟩ | ⟨w, h0, h⟩ | ⟨h0, h0', u, r, h, hu⟩
  · rw [h] at ht
    cases ht
    exact .inl ⟨h0, rfl⟩
  · rw [h] at ht
    refine .inr (.inl ⟨w, h0, ?_⟩)
    by_cases hd : ∃ i, decodeWord w = .ok i
    · obtain ⟨i, hd⟩ := hd
      rw [runCommand_ok _ i hd] at ht
      exact .inr ⟨i, hd, ht⟩
    · have hd : ∀ i, decodeWord w ≠ .ok i := fun i hi => hd ⟨i, hi⟩
      rw [runCommand_illegal _ hd] at ht
      cases ht
      exact .inl ⟨hd, rfl⟩
  · rw [h] at ht
    cases ht
    refine .inr (.inr ⟨h0, h0', u, r, rfl, ?_⟩)
    rcases hu with rfl | ⟨g, addr, data, _, hg, rfl⟩
    · exact SameButInputs.refl _
    · exact memWrite_same _ g addr data hg

/-! ## The host's side -/

/-- The state with another program pending and other answers given. -/
def State.withHost (s : State) (p : List HostAction) (l : List BusResponse) : State := { s with pending := p, responses := l }

/-- A body reads nothing of the host's side. -/
theorem bodyOf_withHost (i : Instr) (s : State) (p : List HostAction) (l : List BusResponse) :
    bodyOf i (s.withHost p l) = bodyOf i s := by
  cases i <;> rfl

/-- A command neither reads nor changes the host's side. -/
theorem exec_withHost {i : Instr} {s t : State} (p : List HostAction) (l : List BusResponse) (ht : exec i s = .next t) :
    exec i (s.withHost p l) = .next (t.withHost p l) := by
  rcases exec_cases i s with ⟨rfl, h2⟩ | ⟨h0, h1, h2⟩ | ⟨h0, h1, e, hb, h2⟩ | ⟨h0, h1, r, hb, h2⟩ <;> rw [h2] at ht <;> cases ht
  · rfl
  · exact exec_refused i _ h0 h1
  · exact exec_error i _ e h0 h1 ((bodyOf_withHost i s p l).trans hb)
  · exact exec_ok i _ r h0 h1 ((bodyOf_withHost i s p l).trans hb)

theorem runCommand_withHost {s t : State} (p : List HostAction) (l : List BusResponse) (ht : runCommand s = .next t) :
    runCommand (s.withHost p l) = .next (t.withHost p l) := by
  by_cases hd : ∃ i, decodeWord s.cmd = .ok i
  · obtain ⟨i, hi⟩ := hd
    rw [runCommand_ok _ i hi] at ht
    exact (runCommand_ok (s.withHost p l) i hi).trans (exec_withHost p l ht)
  · have hd : ∀ i, decodeWord s.cmd ≠ .ok i := fun i hi => hd ⟨i, hi⟩
    rw [runCommand_illegal _ hd] at ht
    cases ht
    exact runCommand_illegal _ hd

theorem storeRegion_withHost (s : State) (p : List HostAction) (l : List BusResponse) (r : Region) (k : Nat) (data : List Byte) :
    (s.withHost p l).storeRegion r k data = (s.storeRegion r k data).withHost p l := by
  obtain ⟨base, size, place, access⟩ := r
  cases place with
  | reg g => cases g <;> rfl
  | buf b => cases b <;> rfl

theorem memWrite_withHost (s : State) (p : List HostAction) (l : List BusResponse) (r : Region) (addr : Nat) (data : List Byte) :
    (s.withHost p l).memWrite r addr data = (s.memWrite r addr data).withHost p l := by
  unfold State.memWrite
  cases r.access <;> first | rfl | exact storeRegion_withHost _ _ _ _ _ _

theorem memRead_withHost (s : State) (p : List HostAction) (l : List BusResponse) (r : Region) (addr n : Nat) :
    (s.withHost p l).memRead r addr n = s.memRead r addr n := by
  have : ∀ i, (s.withHost p l).busByte r i = s.busByte r i := fun i => by
    obtain ⟨base, size, place, access⟩ := r
    cases access <;> cases place <;> rfl
  simp only [State.memRead, this]

/-- The host's side: an action reads nothing of it and adds at most one answer, the same whatever stands there. -/
theorem hostAction_withHost (a : HostAction) (s : State) :
    ∃ (t : State) (answer : List BusResponse), (a = .reset → answer = []) ∧ (a ≠ .reset → answer.length = 1) ∧
      ∀ p l, hostAction a (s.withHost p l) = .next (t.withHost p (answer ++ l)) := by
  cases a with
  | reset => exact ⟨hostReset s, [], fun _ => rfl, fun h => absurd rfl h, fun _ _ => rfl⟩
  | read addr n =>
    cases h : acceptedRegion s.params .read addr n with
    | none =>
      exact ⟨s, [.busError], by simp, fun _ => rfl, fun p l => by
        show Host.Outcome.next (hostRead addr n (s.withHost p l)) = _
        simp only [hostRead, State.withHost, h]; rfl⟩
    | some r =>
      refine ⟨s, [.data (s.memRead r addr n)], by simp, fun _ => rfl, fun p l => ?_⟩
      show Host.Outcome.next (hostRead addr n (s.withHost p l)) = _
      have : acceptedRegion (s.withHost p l).params .read addr n = some r := h
      simp only [hostRead, this, memRead_withHost]
      rfl
  | write addr data =>
    have key : ∀ p l, acceptedRegion (s.withHost p l).params .write addr data.length = acceptedRegion s.params .write addr data.length :=
      fun _ _ => rfl
    cases h : acceptedRegion s.params .write addr data.length with
    | none =>
      refine ⟨s, [.busError], by simp, fun _ => rfl, fun p l => ?_⟩
      show hostWrite addr data (s.withHost p l) = _
      simp only [hostWrite, key, h]; rfl
    | some r =>
      by_cases hc : r.place = .reg .cmd
      · obtain ⟨t, ht⟩ : ∃ t, runCommand (s.memWrite r addr data) = .next t := by
          unfold runCommand
          split
          · exact ⟨_, rfl⟩
          · rename_i i _
            rcases exec_cases i (s.memWrite r addr data) with ⟨_, h⟩ | ⟨_, _, h⟩ | ⟨_, _, _, _, h⟩ | ⟨_, _, _, _, h⟩ <;> exact ⟨_, h⟩
        refine ⟨t, [.written], by simp, fun _ => rfl, fun p l => ?_⟩
        show hostWrite addr data (s.withHost p l) = _
        simp only [hostWrite, key, h, hc, if_true, memWrite_withHost]
        exact runCommand_withHost p (.written :: l) (s := s.memWrite r addr data) ht
      · refine ⟨s.memWrite r addr data, [.written], by simp, fun _ => rfl, fun p l => ?_⟩
        show hostWrite addr data (s.withHost p l) = _
        simp only [hostWrite, key, h, hc, if_false, memWrite_withHost]
        rfl

/-! ## Bytes replaced inside a region -/

theorem splice_length (k : Nat) (data bs : List Byte) (h : k + data.length ≤ bs.length) :
    (splice k data bs).length = bs.length := by
  simp [splice]; omega

theorem splice_getD (k : Nat) (data bs : List Byte) (h : k + data.length ≤ bs.length) (i : Nat) :
    (splice k data bs).getD i 0 = if k ≤ i ∧ i < k + data.length then data.getD (i - k) 0 else bs.getD i 0 := by
  simp only [splice, List.getD_eq_getElem?_getD]
  by_cases h1 : i < k
  · rw [if_neg (by omega), List.append_assoc, List.getElem?_append_left (by simp; omega), List.getElem?_take_of_lt h1]
  · by_cases h2 : i < k + data.length
    · rw [if_pos ⟨by omega, h2⟩, List.append_assoc, List.getElem?_append_right (by simp; omega),
        List.getElem?_append_left (by simp; omega)]
      simp [show min k bs.length = k by omega]
    · rw [if_neg (by omega), List.getElem?_append_right (by simp; omega)]
      simp [show min k bs.length = k by omega, show k + data.length + (i - (k + data.length)) = i by omega]

end Sys2Proof.Machine
end

