-- ==== Sys2Proof/Laws/Otp.lean ====
section
/-! SUPPORT. Bounds of the values the datapath passes on, the shape of an OTP string, and what the operand checks decide
(43_otp_generate.md R212 to R219; 44_otp_validate.md R250, R251). -/

namespace Sys2Proof.Machine

/-! ## Truncation -/

theorem dynamicOffset_lt (tag : List Byte) : dynamicOffset tag < 16 := by
  rw [dynamicOffset, BitVec.toNat_and]
  exact Nat.lt_succ_of_le Nat.and_le_right

theorem selectOffset_lt (tag : List Byte) (tr : Option DWord) : selectOffset tag tr < 16 := by
  cases tr with
  | none => exact dynamicOffset_lt tag
  | some tr =>
    simp only [selectOffset]
    split
    · exact dynamicOffset_lt tag
    · have hlt := tr.isLt
      have := BitVec.toInt_eq_toNat_cond tr
      split at this <;> omega

theorem extractBinCode_lt (tag : List Byte) (offset : Nat) : extractBinCode tag offset < 2 ^ 31 := by
  have h0 : (tag.getD offset 0 &&& 0x7F#8).toNat ≤ 0x7F := by rw [BitVec.toNat_and]; exact Nat.and_le_right
  have h1 := (tag.getD (offset + 1) 0).isLt
  have h2 := (tag.getD (offset + 2) 0).isLt
  have h3 := (tag.getD (offset + 3) 0).isLt
  unfold extractBinCode
  omega

/-! ## Decimal digits -/

@[simp] theorem decimal_length (v n : Nat) : (decimal v n).length = n := by simp [decimal]

theorem digitByte_toNat (d : Nat) (h : d < 10) : (digitByte d).toNat = 0x30 + d := by
  simp only [digitByte, BitVec.toNat_ofNat]; omega

/-- All but the last digit are the digits of `v / 10`. -/
theorem decimal_succ (v n : Nat) : decimal v (n + 1) = decimal (v / 10) n ++ [digitByte (v % 10)] := by
  simp only [decimal, List.range_succ, List.map_append, List.map_cons, List.map_nil, Nat.add_sub_cancel, Nat.sub_self,
    pow_zero, Nat.div_one]
  congr 1
  refine List.map_congr_left fun j hj => ?_
  have hj : j < n := by simpa using hj
  rw [Nat.div_div_eq_div_mul, show n - j = (n - 1 - j) + 1 by omega, pow_succ, Nat.mul_comm]

theorem otpString_eq (v d : Nat) (chk : Bool) :
    otpString v d chk = decimal v d ++ if chk then decimal (luhn v d) 1 else [] := by cases chk <;> simp [otpString]

@[simp] theorem otpString_length (v d : Nat) (chk : Bool) : (otpString v d chk).length = d + chk.toNat := by
  cases chk <;> simp [otpString]

theorem isDigit_of_mem_decimal {v n : Nat} {b : Byte} (h : b ∈ decimal v n) : isDigit b = true := by
  simp only [decimal, List.mem_map] at h
  obtain ⟨j, -, rfl⟩ := h
  have hj := Nat.mod_lt (v / 10 ^ (n - 1 - j)) (show 0 < 10 by decide)
  rw [isDigit, digitByte_toNat _ hj]
  exact decide_eq_true ⟨by omega, by omega⟩

/-- Every byte of an OTP string is an ASCII digit. -/
theorem isDigit_of_mem_otpString {v d : Nat} {chk : Bool} {b : Byte} (h : b ∈ otpString v d chk) : isDigit b = true := by
  rw [otpString_eq, List.mem_append] at h
  rcases h with h | h
  · exact isDigit_of_mem_decimal h
  · cases chk
    · simp at h
    · exact isDigit_of_mem_decimal h

/-! ## Operand checks -/

/-- What the parse of the submitted string answers. -/
theorem parseSubmitted_cases (chk : Bool) (s : State) :
    ((s.ops.subLen.toNat < 6 + chk.toNat ∨ 8 + chk.toNat < s.ops.subLen.toNat) ∧
      parseSubmitted chk s = .error .invalidDigits) ∨
    (6 + chk.toNat ≤ s.ops.subLen.toNat ∧ s.ops.subLen.toNat ≤ 8 + chk.toNat ∧ s.submitted.all isDigit = false ∧
      parseSubmitted chk s = .error .invalidOtp) ∨
    (6 + chk.toNat ≤ s.ops.subLen.toNat ∧ s.ops.subLen.toNat ≤ 8 + chk.toNat ∧ s.submitted.all isDigit = true ∧
      parseSubmitted chk s = .ok (s.ops.subLen.toNat - chk.toNat, s.submitted)) := by
  by_cases h : s.ops.subLen.toNat < 6 + chk.toNat ∨ 8 + chk.toNat < s.ops.subLen.toNat
  · refine .inl ⟨h, ?_⟩
    unfold parseSubmitted submittedDigits
    rw [if_pos (by omega)]
  · have hd : ¬ (submittedDigits chk s < 6 ∨ 8 < submittedDigits chk s) := by unfold submittedDigits; omega
    cases hall : s.submitted.all isDigit
    · refine .inr (.inl ⟨by omega, by omega, rfl, ?_⟩)
      rw [parseSubmitted, if_neg hd, hall, if_neg (by decide)]
    · refine .inr (.inr ⟨by omega, by omega, rfl, ?_⟩)
      rw [parseSubmitted, if_neg hd, hall, if_pos rfl]
      congr 2
      unfold submittedDigits
      omega

theorem submitted_all_digits (s : State) :
    s.submitted.all isDigit = true ↔
      ∀ j < s.ops.subLen.toNat, 0x30 ≤ (s.sub.read j).toNat ∧ (s.sub.read j).toNat ≤ 0x39 := by
  simp [State.submitted, Memory.slice, isDigit]

theorem timestampInvalid_eq_false (s : State) :
    timestampInvalid s = false ↔ s.ops.step ≠ 0 ∧ s.ops.start.toInt ≤ s.ops.now.toInt := by simp [timestampInvalid]

theorem windowTooLarge_eq_false (s : State) : windowTooLarge s = false ↔ s.ops.window.toNat < 2 ^ 63 := by
  rw [windowTooLarge, decide_eq_false_iff_not, Nat.not_le]

end Sys2Proof.Machine
end

