-- ==== Sys2Proof/Laws/PerInstr.lean ====
section
/-! SUPPORT. The statements made command by command. `InItsRow`: the word of every well-formed command stands in the row
of its command and in no other (30_encoding.md R104: "The six patterns are disjoint"). -/

namespace Sys2Proof.Laws

/-- The word of the command hits its own row of R104 and no other. -/
def InItsRow.Statement (i : Instr) : Prop :=
  i.wf = true → (rowOf i).hits (encode i) = true ∧ ∀ r ∈ commandRows, r ≠ rowOf i → r.hits (encode i) = false

theorem InItsRow.nop : InItsRow.Statement .nop := by unfold InItsRow.Statement; decide

theorem InItsRow.hmac (alg : HashSel) : InItsRow.Statement (.hmac alg) := by
  unfold InItsRow.Statement
  rcases alg with (_ | _ | _) | _ <;> decide

theorem InItsRow.hotpGen (digits : Nat) (chk : Bool) : InItsRow.Statement (.hotpGen digits chk) := by
  unfold InItsRow.Statement
  intro h
  have hd : digits < 16 := by simpa [Instr.wf] using h
  clear h
  revert digits
  cases chk <;> decide

theorem InItsRow.hotpVal (chk : Bool) : InItsRow.Statement (.hotpVal chk) := by
  unfold InItsRow.Statement
  cases chk <;> decide

theorem InItsRow.totpGen (alg : HashSel) (digits : Nat) : InItsRow.Statement (.totpGen alg digits) := by
  unfold InItsRow.Statement
  intro h
  have hd : digits < 16 := by simpa [Instr.wf] using h
  clear h
  revert digits
  rcases alg with (_ | _ | _) | _ <;> decide

theorem InItsRow.totpVal (alg : HashSel) : InItsRow.Statement (.totpVal alg) := by
  unfold InItsRow.Statement
  rcases alg with (_ | _ | _) | _ <;> decide

end Sys2Proof.Laws
end

