-- ==== Sys2Proof/Laws/Search.lean ====
section
/-! SUPPORT. What the two validation searches find (44_otp_validate.md R253, R254, R257). -/

namespace Sys2Proof.Machine

/-- The first matching candidate is reported. -/
theorem hotpSearch_hit (hit : Nat → Bool) (start n i d : Nat) (hd : d < n) (hle : start + (i + d) ≤ maxCounter)
    (hno : ∀ j < d, hit (start + (i + j)) = false) (hhit : hit (start + (i + d)) = true) :
    hotpSearch hit start n i = .ok (i + d, start + (i + d)) := by
  induction d generalizing n i with
  | zero =>
    obtain ⟨n, rfl⟩ : ∃ m, n = m + 1 := ⟨n - 1, by omega⟩
    rw [hotpSearch, if_neg (by omega), if_pos (by simpa using hhit)]; simp
  | succ d ih =>
    obtain ⟨n, rfl⟩ : ∃ m, n = m + 1 := ⟨n - 1, by omega⟩
    have h0 : hit (start + i) = false := by simpa using hno 0 (by omega)
    have he : i + 1 + d = i + (d + 1) := by omega
    rw [hotpSearch, if_neg (by omega), if_neg (by simp [h0]),
      ih n (i + 1) (by omega) (by omega) (fun j hj => by rw [show i + 1 + j = i + (j + 1) by omega]; exact hno (j + 1) (by omega))
        (by rw [he]; exact hhit), he]

/-- Without an earlier match the search stops at the first candidate beyond `2^64 - 1`. -/
theorem hotpSearch_overflow (hit : Nat → Bool) (start n i d : Nat) (hd : d < n) (hlt : maxCounter < start + (i + d))
    (hno : ∀ j < d, start + (i + j) ≤ maxCounter → hit (start + (i + j)) = false) :
    hotpSearch hit start n i = .error .invalidCounter := by
  induction d generalizing n i with
  | zero =>
    obtain ⟨n, rfl⟩ : ∃ m, n = m + 1 := ⟨n - 1, by omega⟩
    rw [hotpSearch, if_pos (by omega)]
  | succ d ih =>
    obtain ⟨n, rfl⟩ : ∃ m, n = m + 1 := ⟨n - 1, by omega⟩
    rw [hotpSearch]
    split
    · rfl
    · have h0 : hit (start + i) = false := by simpa using hno 0 (by omega) (by omega)
      rw [if_neg (by simp [h0])]
      exact ih n (i + 1) (by omega) (by omega) fun j hj => by
        rw [show i + 1 + j = i + (j + 1) by omega]; exact hno (j + 1) (by omega)

/-- A window of legal counters without a match. -/
theorem hotpSearch_none (hit : Nat → Bool) (start n i : Nat) (hle : start + (i + n) ≤ maxCounter + 1)
    (hno : ∀ j < n, hit (start + (i + j)) = false) : hotpSearch hit start n i = .error .invalidOtp := by
  induction n generalizing i with
  | zero => rfl
  | succ n ih =>
    have h0 : hit (start + i) = false := by simpa using hno 0 (by omega)
    rw [hotpSearch, if_neg (by omega), if_neg (by simp [h0])]
    exact ih (i + 1) (by omega) fun j hj => by
      rw [show i + 1 + j = i + (j + 1) by omega]; exact hno (j + 1) (by omega)

/-- A reported match is one of the candidates and matches. -/
theorem hotpSearch_sound (hit : Nat → Bool) (start n i : Nat) (m : Nat × Nat) (h : hotpSearch hit start n i = .ok m) :
    i ≤ m.1 ∧ m.1 < i + n ∧ m.2 = start + m.1 ∧ m.2 ≤ maxCounter ∧ hit m.2 = true := by
  induction n generalizing i with
  | zero => simp [hotpSearch] at h
  | succ n ih =>
    rw [hotpSearch] at h
    split at h
    · simp at h
    · split at h
      · obtain rfl := Except.ok.inj h
        exact ⟨le_rfl, by omega, rfl, by simp; omega, by assumption⟩
      · obtain ⟨h1, h2, h3⟩ := ih (i + 1) h
        exact ⟨by omega, by omega, h3⟩

/-- The search raises one of two errors. -/
theorem hotpSearch_error (hit : Nat → Bool) (start n i : Nat) (e : ErrorKind) (h : hotpSearch hit start n i = .error e) :
    e = .invalidCounter ∨ e = .invalidOtp := by
  induction n generalizing i with
  | zero => exact .inr (by simpa [hotpSearch, eq_comm] using h)
  | succ n ih =>
    rw [hotpSearch] at h
    split at h
    · exact .inl (by simpa [eq_comm] using h)
    · split at h
      · simp at h
      · exact ih (i + 1) h

/-- An offset is tried by asking for its counter, when it has one. -/
theorem totpTry_eq_some (hit : Nat → Bool) (center : Nat) (p : Int) (m : Int × Nat) :
    totpTry hit center p = some m ↔
      m.1 = p ∧ (m.2 : Int) = center + p ∧ m.2 ≤ maxCounter ∧ hit m.2 = true := by
  obtain ⟨q, c⟩ := m
  unfold totpTry
  split
  · split
    · rename_i h hh
      simp only [Option.some.injEq, Prod.mk.injEq]
      constructor
      · rintro ⟨rfl, rfl⟩
        exact ⟨rfl, by omega, by omega, hh⟩
      · rintro ⟨rfl, hc, -, -⟩
        exact ⟨rfl, by omega⟩
    · rename_i h hh
      simp only [reduceCtorEq, false_iff]
      rintro ⟨-, hc, -, hhit⟩
      exact hh (by rwa [show ((center : Int) + p).toNat = c by omega])
  · rename_i h
    simp only [reduceCtorEq, false_iff]
    rintro ⟨-, hc, hle, -⟩
    exact h ⟨by omega, by omega⟩

/-- A reported match is at an offset of the window. -/
theorem totpSearchFrom_sound (hit : Nat → Bool) (center n k : Nat) (m : Int × Nat)
    (h : totpSearchFrom hit center n k = some m) : totpTry hit center m.1 = some m ∧ m.1.natAbs < k + n := by
  induction n generalizing k with
  | zero => simp [totpSearchFrom] at h
  | succ n ih =>
    rw [totpSearchFrom] at h
    split at h
    · rename_i m' hm
      obtain rfl := Option.some.inj h
      have h1 := ((totpTry_eq_some hit center _ _).1 hm).1
      exact ⟨h1 ▸ hm, by omega⟩
    · split at h
      · rename_i m' hm
        obtain rfl := Option.some.inj h
        have h1 := ((totpTry_eq_some hit center _ _).1 hm).1
        exact ⟨h1 ▸ hm, by omega⟩
      · obtain ⟨h1, h2⟩ := ih (k + 1) h
        exact ⟨h1, by omega⟩

theorem totpSearch_sound (hit : Nat → Bool) (center w : Nat) (m : Int × Nat) (h : totpSearch hit center w = some m) :
    totpTry hit center m.1 = some m ∧ m.1.natAbs ≤ w := by
  rw [totpSearch] at h
  split at h
  · rename_i m' hm
    obtain rfl := Option.some.inj h
    have h1 := ((totpTry_eq_some hit center _ _).1 hm).1
    exact ⟨h1 ▸ hm, by simp [h1]⟩
  · obtain ⟨h1, h2⟩ := totpSearchFrom_sound hit center w 1 m h
    exact ⟨h1, by omega⟩

/-- Without a matching offset in the window the search finds none. -/
theorem totpSearch_none (hit : Nat → Bool) (center w : Nat)
    (h : ∀ q : Int, q.natAbs ≤ w → totpTry hit center q = none) : totpSearch hit center w = none := by
  cases hs : totpSearch hit center w with
  | none => rfl
  | some m =>
    obtain ⟨h1, h2⟩ := totpSearch_sound _ _ _ _ hs
    rw [h _ h2] at h1
    cases h1

end Sys2Proof.Machine
end

