-- ==== Sys2Proof/Tests/Slice0.lean ====
section
/-! SUPPORT. Small tests of the model against the vectors of 95_test_vectors.md (the vector is named with each test), and,
for each statement with hypotheses, a witness: concrete values that meet all of them together. -/

namespace Sys2Proof.Tests

open Sys2Proof.Machine

/-! ## Helpers -/

/-- The reset state with an access of the host to come. -/
def reset1 (a : HostAction) : State := State.reset.load [a]

/-- The reset state with `KEYLEN = n`. -/
def withKeyLen (n : Word) : State := { State.reset with ops := { Operands.reset with keyLen := n } }

/-- The reset state with `MSGLEN = n`. -/
def withMsgLen (n : Word) : State := { State.reset with ops := { Operands.reset with msgLen := n } }

/-- The vector secret with `CTR = c`, `WINDOW = w` and a submitted string. -/
def hotpState (c w : DWord) (sub : List Char) : State :=
  { stateK20 with
    sub := Memory.ofBytes (ascii sub)
    ops := { stateK20.ops with ctr := c, window := w, subLen := BitVec.ofNat 32 sub.length } }

/-- The vector secret with `NOW = n`, `WINDOW = w` and a submitted string. -/
def totpState (n w : DWord) (sub : List Char) : State :=
  { stateK20 with
    sub := Memory.ofBytes (ascii sub)
    ops := { stateK20.ops with now := n, window := w, subLen := BitVec.ofNat 32 sub.length } }

/-- The key of V14 and the message `"Hi There"`. -/
def hmacState : State :=
  { State.reset with
    key := Memory.ofBytes (List.replicate 20 0x0B#8)
    msg := Memory.ofBytes (ascii ['H', 'i', ' ', 'T', 'h', 'e', 'r', 'e'])
    ops := { Operands.reset with keyLen := 20, msgLen := 8 } }

/-- The state after one step, if the step answers one. -/
def stepped (s : State) : Option State :=
  match step s with
  | .next t => some t
  | .fault _ => none
  | .refused _ => none

/-- The answer of the bus to one access from `s`. -/
def answer (s : State) (a : HostAction) : Option (List BusResponse) := (stepped (s.load [a])).map (·.responses)

theorem not_refused_of (i : Instr) (s : State) (hk : s.ops.keyLen.toNat ≤ s.params.keyMax)
    (hm : s.ops.msgLen.toNat ≤ s.params.msgMax) : ¬ LengthRefusedFor i s := by
  rintro (⟨_, h⟩ | ⟨_, h⟩) <;> omega

theorem zero_legal : Results.zero.Legal := by
  refine ⟨by decide, by decide, by decide, .inl rfl, .inl rfl, Memory.wf_nil, Memory.wf_nil, ?_, ?_, ?_⟩
  · intro c hc; cases hc
  · intro c hc; cases hc
  · intro j hj; exact absurd hj (Nat.not_lt_zero j)

/-- A reset state with accesses to come meets the invariant. -/
theorem loaded_inv (p : HostProgram) : (State.reset.load p).Inv := by
  have hp : Config.default.wf := by decide
  have hr : (0 : Word) ∈ legalRc := by decide
  refine ⟨hp, Nat.zero_lt_succ 3, hr, fun _ => rfl, Memory.wf_nil, Memory.wf_nil, Memory.wf_nil, ?_, ?_, ?_, zero_legal⟩
  · intro c hc; cases hc
  · intro c hc; cases hc
  · intro c hc; cases hc

/-! ## WellFormed: an ill-formed term of each kind is refused -/

theorem test_wf_refuses_hotpGen_16 : (Instr.hotpGen 16 false).wf = false := by decide
theorem test_wf_refuses_totpGen_16 : (Instr.totpGen (.use .sha1) 16).wf = false := by decide
theorem test_wf_accepts_digits_15 : (Instr.hotpGen 15 true).wf = true ∧ (Instr.totpGen .reserved 15).wf = true := by decide

/-! ## Decode: words written bit by bit from R101 (V60) -/

theorem test_decode_nop : decodeWord 0b0000000000000000000_0_0000_00_00_0000#32 = .ok .nop := by decide
theorem test_decode_hmac : decodeWord 0b0000000000000000000_0_0000_00_01_0001#32 = .ok (.hmac (.use .sha256)) := by decide
theorem test_decode_hmac_reserved : decodeWord 0b0000000000000000000_0_0000_00_11_0001#32 = .ok (.hmac .reserved) := by decide
theorem test_decode_hotpGen : decodeWord 0b0000000000000000000_1_1000_00_00_0010#32 = .ok (.hotpGen 8 true) := by decide
theorem test_decode_hotpGen_15 : decodeWord 0b0000000000000000000_0_1111_00_00_0010#32 = .ok (.hotpGen 15 false) := by decide
theorem test_decode_hotpVal : decodeWord 0b0000000000000000000_1_0000_00_00_0011#32 = .ok (.hotpVal true) := by decide
theorem test_decode_totpGen : decodeWord 0b0000000000000000000_0_1000_00_10_0100#32 = .ok (.totpGen (.use .sha512) 8) := by decide
theorem test_decode_totpVal : decodeWord 0b0000000000000000000_0_0000_00_10_0101#32 = .ok (.totpVal (.use .sha512)) := by decide

/-- The illegal words of V60, each with the name of its rejection. -/
theorem test_decode_illegal :
    ([0x00000006#32, 0x0000000F#32].map decodeWord = List.replicate 2 (.error .reservedOp)) ∧
    ([0x00000010#32, 0x00000101#32, 0x00001001#32, 0x00000612#32, 0x00000603#32, 0x00001804#32, 0x00000805#32,
      0x00001005#32].map decodeWord = List.replicate 8 (.error .unusedFieldSet)) ∧
    ([0x00000042#32, 0x00000082#32, 0x00002002#32, 0x80000602#32].map decodeWord =
      List.replicate 4 (.error .reservedBitSet)) := by decide

/-- No word is in two rows of R104. -/
theorem test_rows_disjoint :
    commandRows.Pairwise fun r r' => (r.pattern ^^^ r'.pattern) &&& r.mask &&& r'.mask ≠ 0 := by decide

theorem test_decodeTableWord :
    decodeTableWord 32 0x1602 = some (.hotpGen 6 true) ∧ decodeTableWord 32 0x2002 = none ∧
    decodeTableWord 16 0x0825 = none ∧ decodeTableWord 8 0x15 = some (.totpVal (.use .sha256)) := by decide

/-- The word placed is the next thing a step runs. -/
theorem test_withFetchWord : (stepped (State.reset.withFetchWord 32 0x00000502)).map (fun t => (t.cmd, t.rc)) =
    some (0x00000502#32, 0xFFFFFFFE#32) := by decide

/-! ## Memory -/

/-- A store keeps the canonical form, and writing `0x00` removes the entry. -/
theorem test_memory_canonical :
    (Memory.ofBytes [0x00#8, 0xAA#8, 0x00#8, 0xBB#8]) = [(1, 0xAA#8), (3, 0xBB#8)] ∧
    Memory.write [(1, 0xAA#8), (3, 0xBB#8)] 1 0x00#8 = [(3, 0xBB#8)] ∧
    State.reset.key.wf ∧ State.reset.msg.wf ∧ State.reset.sub.wf ∧ State.reset.res.tag.wf := by decide

/-! ## Hashes (V2, V8) and pure functions (V23) -/

theorem test_sha1_abc : sha1 (ascii ['a', 'b', 'c']) = beBytes 20 0xa9993e364706816aba3e25717850c26c9cd0d89d := by
  decide +kernel
theorem test_sha256_abc : sha256 (ascii ['a', 'b', 'c']) =
    beBytes 32 0xba7816bf8f01cfea414140de5dae2223b00361a396177a9cb410ff61f20015ad := by decide +kernel
theorem test_sha512_abc : sha512 (ascii ['a', 'b', 'c']) =
    beBytes 64 0xddaf35a193617abacc417349ae20413112e6fa4e89a97ea20a9eeee64b55d39a2192992a274fc1a836ba3c23a3feebbd454d4423643ce80e2a9ac94fa54ca49f := by
  decide +kernel
theorem test_luhn : [luhn 0 6, luhn 999999 6, luhn 287082 6, luhn 26920 6, luhn 1234567 7, luhn 84755224 8] = [0, 6, 2, 9, 4, 7] := by
  decide
theorem test_be8 : be8 37037036 = [0x00#8, 0x00#8, 0x00#8, 0x00#8, 0x02#8, 0x35#8, 0x23#8, 0xEC#8] := by decide

/-! ## One step of each command -/

/-- `NOP` runs with `KEYLEN` over the capacity too (R133, R138). -/
theorem test_nop : stepped ((withKeyLen 257).withFetchWord 32 0) =
    some { withKeyLen 257 with responses := [.written] } := by decide

/-- V14, `SHA256`. -/
theorem test_hmac_V14 : exec (.hmac (.use .sha256)) hmacState = .next (withOutcome hmacState 0
    { Results.zero with
      tag := Memory.ofBytes (beBytes 32 0xb0344c61d8db38535ca8afceaf0bf12b881dc200c9833da726e9376c2e32cff7)
      tagLen := 32 }) :=
  exec_ok _ _ _ (by decide) (by decide) (by decide +kernel)

/-- V19. -/
theorem test_hmac_V19 : exec (.hmac .reserved) hmacState = .next (withOutcome hmacState 0xFFFFFFFF#32 Results.zero) :=
  exec_error _ _ .cryptoError (by decide) (by decide) rfl

/-- The results of V22, first row. -/
def resultsV22 : Results :=
  { Results.zero with
    tag := Memory.ofBytes (beBytes 20 0x75a48a19d4cbe100644e8ac1397eea747a2d33ab)
    tagLen := 20, offset := 11, binCode := 1094287082, otpVal := 287082
    otp := Memory.ofBytes (ascii ['2', '8', '7', '0', '8', '2', '2']), otpLen := 7 }

theorem test_hotpGen_V22 : exec (.hotpGen 6 true) (hotpState 1 0 []) = .next (withOutcome (hotpState 1 0 []) 0 resultsV22) :=
  exec_ok _ _ _ (by decide) (by decide) (by decide +kernel)

/-- V21, `DIGITS = 9`. -/
theorem test_hotpGen_V21 : exec (.hotpGen 9 false) stateK20 = .next (withOutcome stateK20 0xFFFFFFFE#32 Results.zero) :=
  exec_error _ _ .invalidDigits (by decide) (by decide) rfl

/-- The results of V40, 59, `SHA1`. -/
def resultsV40 : Results :=
  { Results.zero with
    tag := Memory.ofBytes (beBytes 20 0x75a48a19d4cbe100644e8ac1397eea747a2d33ab)
    tagLen := 20, offset := 11, binCode := 1094287082, otpVal := 94287082
    otp := Memory.ofBytes (ascii ['9', '4', '2', '8', '7', '0', '8', '2']), otpLen := 8, tctr := 1 }

theorem test_totpGen_V40 : exec (.totpGen (.use .sha1) 8) (totpState 59 0 []) = .next (withOutcome (totpState 59 0 []) 0 resultsV40) :=
  exec_ok _ _ _ (by decide) (by decide) (by decide +kernel)

/-- V42: the timestamp is checked before the hash. -/
theorem test_totpGen_V42 :
    let s := { stateK20 with ops := { stateK20.ops with step := 0 } }
    exec (.totpGen .reserved 8) s = .next (withOutcome s 0xFFFFFFF6#32 Results.zero) :=
  exec_error _ _ .invalidTimestamp (by decide) (by decide) (by decide)

/-- V50: six digits and the check digit. -/
theorem test_hotpVal_V50 : exec (.hotpVal true) (hotpState 0 5 ['2', '8', '7', '0', '8', '2', '2']) =
    .next (withOutcome (hotpState 0 5 ['2', '8', '7', '0', '8', '2', '2']) 0 { Results.zero with pos := 1, matchCtr := 1 }) :=
  exec_ok _ _ _ (by decide) (by decide) (by decide +kernel)

/-- V50: no match before the overflow of the counter. -/
theorem test_hotpVal_V50_overflow : exec (.hotpVal false) (hotpState 0xFFFFFFFFFFFFFFFD#64 5 ['0', '9', '4', '4', '5', '0']) =
    .next (withOutcome (hotpState 0xFFFFFFFFFFFFFFFD#64 5 ['0', '9', '4', '4', '5', '0']) 0xFFFFFFF7#32 Results.zero) :=
  exec_error _ _ .invalidCounter (by decide) (by decide) (by decide +kernel)

/-- V55: the negative side of the window. -/
theorem test_totpVal_V55 : exec (.totpVal (.use .sha1)) (totpState 59 1 ['8', '4', '7', '5', '5', '2', '2', '4']) =
    .next (withOutcome (totpState 59 1 ['8', '4', '7', '5', '5', '2', '2', '4']) 0
      { Results.zero with pos := 0xFFFFFFFFFFFFFFFF#64, tctr := 1 }) :=
  exec_ok _ _ _ (by decide) (by decide) (by decide +kernel)

/-- V55: the candidate below zero is skipped. -/
theorem test_totpVal_V55_skip : exec (.totpVal (.use .sha1)) (totpState 29 1 ['3', '7', '3', '5', '9', '1', '5', '2']) =
    .next (withOutcome (totpState 29 1 ['3', '7', '3', '5', '9', '1', '5', '2']) 0xFFFFFFFA#32 Results.zero) :=
  exec_error _ _ .invalidOtp (by decide) (by decide) (by decide +kernel)

/-! ## The bus (V70) -/

/-- The reset state after `WR8 CTR, 0x0123456789ABCDEF`. -/
def stateV70 : State := { State.reset with ops := { Operands.reset with ctr := 0x0123456789ABCDEF#64 } }

theorem test_bus_write : (stepped (reset1 (wr 8 0x00010 0x0123456789ABCDEF))).map (·.ops) = some stateV70.ops := by decide
theorem test_bus_reads :
    [answer stateV70 (rd 8 0x00010), answer stateV70 (rd 4 0x00010), answer stateV70 (rd 4 0x00014),
      answer stateV70 (rd 2 0x00016), answer stateV70 (rd 1 0x00017), answer stateV70 (rd 1 0x00010),
      answer stateV70 (rd 4 0x00028), answer stateV70 (rd 8 0x00038), answer stateV70 (rd 8 0x000F8)] =
    [some [.data 0x0123456789ABCDEF], some [.data 0x01234567], some [.data 0x89ABCDEF], some [.data 0xCDEF],
      some [.data 0xEF], some [.data 0x01], some [.data 30], some [.data 0xFFFFFFFFFFFFFFFF], some [.data 0]] := by decide
theorem test_bus_refusals :
    [rd 2 0x00011, rd 8 0x00000, rd 8 0x00028, rd 4 0x0002C, wr 2 0x00000 0x0602, wr 1 0x00003 0x02, rd 8 0x20100,
      rd 4 0x00100, rd 1 0x40000].map (answer stateV70) = List.replicate 9 (some [.busError]) := by decide
theorem test_bus_partial_write : (stepped (stateV70.load [wr 1 0x00017 0x00])).map (·.ops.ctr) = some 0x0123456789ABCD00#64 := by
  decide
theorem test_bus_read_only_ignored : (stepped (stateV70.load [wr 4 0x00008 5])).map (fun t => (t.rc, t.responses)) =
    some (0#32, [.written]) := by decide
theorem test_bus_key_write : (stepped (stateV70.load [wr 8 0x20000 0x1122334455667788])).map (·.key) =
    some (Memory.ofBytes [0x11#8, 0x22#8, 0x33#8, 0x44#8, 0x55#8, 0x66#8, 0x77#8, 0x88#8]) := by decide
theorem test_bus_key_read : answer { stateV70 with key := keyK20 } (rd 8 0x20000) = some [.data 0] := by decide
theorem test_reset_keeps_the_program : stepped ({ stateV70 with status := 3 }.load [.reset, rd 4 0x00028]) =
    some (State.reset.load [rd 4 0x00028]) := by decide

/-- The first three accesses of program P1 in the assembler syntax of R109. -/
theorem test_setKey :
    setKey ['1', '2'] = [wr 1 0x20000 0x31, wr 1 0x20001 0x32, wr 4 0x00040 2] ∧
    command (.hotpGen 6 false) = wr 4 0x00000 0x00000602 := by decide

/-! ## Witnesses: concrete values that meet the hypotheses of each statement -/

/-! ### Encoding and the frame -/

theorem witness_DecodeOfEncodeIsTheCommand : (Instr.hotpGen 15 true).wf = true ∧ (Instr.totpGen .reserved 0).wf = true := by
  decide

theorem witness_EncodeOfDecodeIsTheWord : decodeWord 0x00001F02#32 = .ok (.hotpGen 15 true) := by decide

theorem witness_StepOfACommandWriteRunsTheDecodedCommand :
    NextIsCommand (reset1 (wr 4 0 0x602)) 0x00000602#32 [] ∧ decodeWord 0x00000602#32 = .ok (.hotpGen 6 false) :=
  ⟨rfl, by decide⟩

theorem illegal_word : ∀ i, decodeWord 0x00000010#32 ≠ .ok i := by
  rw [show decodeWord 0x00000010#32 = .error .unusedFieldSet by decide]
  intro i h
  cases h

theorem witness_IllegalWordSetsIllcmdAndNothingElse :
    NextIsCommand (reset1 (wr 4 0 0x10)) 0x00000010#32 [] ∧ ∀ i, decodeWord 0x00000010#32 ≠ .ok i := ⟨rfl, illegal_word⟩

/-- At and just over the capacities, and the commands that do not read the message. -/
theorem witness_LengthRefusalSetsIlllenAndNothingElse :
    LengthRefusedFor (.hotpGen 6 false) (withKeyLen 257) ∧ ¬ LengthRefusedFor (.hotpGen 6 false) (withKeyLen 256) ∧
    LengthRefusedFor (.hmac (.use .sha1)) (withMsgLen 257) ∧ ¬ LengthRefusedFor (.hmac (.use .sha1)) (withMsgLen 256) ∧
    ¬ LengthRefusedFor (.hotpGen 6 false) (withMsgLen 257) ∧ ¬ LengthRefusedFor .nop (withKeyLen 257) ∧
    exec .nop (withKeyLen 257) = .next (withKeyLen 257) := by
  refine ⟨.inl ⟨by decide, by decide⟩, not_refused_of _ _ (by decide) (by decide), .inr ⟨⟨_, rfl⟩, by decide⟩,
    not_refused_of _ _ (by decide) (by decide), ?_, ?_, rfl⟩
  · rintro (⟨_, h⟩ | ⟨⟨_, h⟩, _⟩)
    · exact absurd h (by decide)
    · cases h
  · rintro (⟨h, _⟩ | ⟨⟨_, h⟩, _⟩)
    · exact h rfl
    · cases h

theorem hmac_not_refused (alg : HashSel) : ¬ LengthRefusedFor (.hmac alg) hmacState :=
  not_refused_of _ _ (by show 20 ≤ 256; decide) (by show 8 ≤ 256; decide)

theorem k20_not_refused (i : Instr) : ¬ LengthRefusedFor i stateK20 :=
  not_refused_of _ _ (by show 20 ≤ 256; decide) (by show 0 ≤ 256; decide)

theorem hotp_not_refused (i : Instr) (c w : DWord) (sub : List Char) : ¬ LengthRefusedFor i (hotpState c w sub) :=
  not_refused_of _ _ (by show 20 ≤ 256; decide) (by show 0 ≤ 256; decide)

theorem totp_not_refused (i : Instr) (n w : DWord) (sub : List Char) : ¬ LengthRefusedFor i (totpState n w sub) :=
  not_refused_of _ _ (by show 20 ≤ 256; decide) (by show 0 ≤ 256; decide)

/-- A command that completes, and one that fails. -/
theorem witness_ResultsAreAllOrNothing :
    (Instr.hmac (.use .sha256) ≠ .nop ∧ ¬ LengthRefusedFor (.hmac (.use .sha256)) hmacState ∧
      ∃ t, exec (.hmac (.use .sha256)) hmacState = .next t) ∧
    (Instr.hmac .reserved ≠ .nop ∧ ¬ LengthRefusedFor (.hmac .reserved) hmacState ∧
      ∃ t, exec (.hmac .reserved) hmacState = .next t) :=
  ⟨⟨by decide, hmac_not_refused _, _, test_hmac_V14⟩, ⟨by decide, hmac_not_refused _, _, test_hmac_V19⟩⟩

theorem witness_CommandsNeverChangeTheirInputs :
    (∃ t, exec (.hmac (.use .sha256)) hmacState = .next t) ∧ ¬ LengthRefusedFor (.hmac (.use .sha256)) hmacState :=
  ⟨⟨_, test_hmac_V14⟩, hmac_not_refused _⟩

theorem witness_NopChangesNothingButCmd : NextIsCommand (reset1 (wr 4 0 0)) 0#32 [] := rfl

/-- Each check at the edges of its range: 5, 6, 8 and 9 digits, `STEP = 0`, `NOW` below `START`, the reserved hash, a
string too short, one that is no number, a window of `2^63`. -/
theorem witness_FirstFailingCheckIsReported :
    (¬ LengthRefusedFor (.hmac .reserved) hmacState ∧ ∃ t, exec (.hmac .reserved) hmacState = .next t) ∧
    (∀ d ∈ [5, 9], ¬ LengthRefusedFor (.hotpGen d false) stateK20 ∧ ∃ t, exec (.hotpGen d false) stateK20 = .next t) ∧
    (∀ d ∈ [6, 8], ¬ LengthRefusedFor (.hotpGen d false) stateK20 ∧ ∃ t, exec (.hotpGen d false) stateK20 = .next t) ∧
    (∃ s : State, ¬ LengthRefusedFor (.totpGen .reserved 8) s ∧ s.ops.step = 0 ∧ ∃ t, exec (.totpGen .reserved 8) s = .next t) ∧
    (∃ s : State, ¬ LengthRefusedFor (.totpGen .reserved 8) s ∧ s.ops.step ≠ 0 ∧ s.ops.now.toInt < s.ops.start.toInt ∧
      ∃ t, exec (.totpGen .reserved 8) s = .next t) ∧
    (¬ LengthRefusedFor (.totpGen (.use .sha1) 8) (totpState 59 0 []) ∧
      ∃ t, exec (.totpGen (.use .sha1) 8) (totpState 59 0 []) = .next t) ∧
    (∃ t, exec (.hotpVal true) (hotpState 0 5 ['2', '8', '7', '0', '8', '2', '2']) = .next t) ∧
    (∃ t, exec (.hotpVal false) (hotpState 0 0x8000000000000000#64 ['7', '5', '5', '2', '2', '4']) = .next t) ∧
    (∃ t, exec (.hotpVal true) (hotpState 0 5 ['2', '8', '7', '0', '8', '2']) = .next t) ∧
    (∃ t, exec (.totpVal .reserved) (totpState 0 3 ['8', '4', '7', '5', 'x', '2', '2', '4']) = .next t) ∧
    (∃ t, exec (.totpVal .reserved) (totpState 0 0x8000000000000000#64 ['8', '4', '7', '5', '5', '2', '2']) = .next t) ∧
    (∃ t, exec (.totpVal .reserved) (totpState 0 3 ['8', '4', '7', '5', '5', '2', '2']) = .next t) := by
  refine ⟨⟨hmac_not_refused _, _, test_hmac_V19⟩, fun d hd => ⟨k20_not_refused _, ?_⟩, fun d hd => ⟨k20_not_refused _, ?_⟩,
    ⟨{ stateK20 with ops := { stateK20.ops with step := 0 } }, not_refused_of _ _ (by decide) (by decide), rfl, _, test_totpGen_V42⟩,
    ⟨totpState 0xFFFFFFFFFFFFFFFF#64 0 [], totp_not_refused _ _ _ _, by decide, by decide, _,
      exec_error _ _ .invalidTimestamp (by decide) (by decide) (by decide)⟩,
    ⟨totp_not_refused _ _ _ _, _, test_totpGen_V40⟩, ⟨_, test_hotpVal_V50⟩,
    ⟨_, exec_error _ _ .invalidCounter (by decide) (by decide) (by decide)⟩,
    ⟨_, exec_error _ _ .invalidDigits (by decide) (by decide) (by decide)⟩,
    ⟨_, exec_error _ _ .invalidOtp (by decide) (by decide) (by decide)⟩,
    ⟨_, exec_error _ _ .invalidCounter (by decide) (by decide) (by decide)⟩,
    ⟨_, exec_error _ _ .cryptoError (by decide) (by decide) (by decide)⟩⟩
  · refine ⟨_, exec_error _ _ .invalidDigits (by simp) (show lengthRefused false stateK20 = false by decide) ?_⟩
    simp only [List.mem_cons, List.not_mem_nil, or_false] at hd
    rcases hd with rfl | rfl <;> rfl
  · simp only [List.mem_cons, List.not_mem_nil, or_false] at hd
    rcases hd with rfl | rfl <;> exact ⟨_, exec_ok _ _ _ (by simp) (by decide) rfl⟩

/-- Two states that differ in operands `HOTP.VAL` does not read, and in the ninth byte of `SUB`. -/
theorem witness_OutcomeDependsOnlyOnTheOperandsRead :
    let s := hotpState 0 5 ['2', '8', '7', '0', '8', '2', '2']
    let u := { s with sub := s.sub.write 8 0xFF#8, ops := { s.ops with now := 59, msgLen := 3 } }
    s ≠ u ∧ ¬ LengthRefusedFor (.hotpVal true) s ∧ ¬ LengthRefusedFor (.hotpVal true) u ∧ s.ops.keyLen = u.ops.keyLen ∧
    (∀ k < s.ops.keyLen.toNat, s.key.read k = u.key.read k) ∧ s.ops.ctr = u.ops.ctr ∧ s.ops.window = u.ops.window ∧
    s.ops.subLen = u.ops.subLen ∧ (∀ k < 9, k < s.ops.subLen.toNat → s.sub.read k = u.sub.read k) ∧
    (∃ t, exec (.hotpVal true) s = .next t) ∧ ∃ v, exec (.hotpVal true) u = .next v := by
  intro s u
  exact ⟨by decide, hotp_not_refused _ _ _ _, not_refused_of _ _ (by decide) (by decide), rfl, fun _ _ => rfl, rfl, rfl, rfl,
    by decide +kernel, ⟨_, test_hotpVal_V50⟩,
    _, exec_ok _ _ { Results.zero with pos := 1, matchCtr := 1 } (by decide) (by decide) (by decide +kernel)⟩

/-! ### Hashes, HMAC and generation -/

/-- Both block sizes, at the message lengths where a block fills (55) and spills (56). -/
theorem witness_PaddingFillsWholeBlocks :
    (((64 : Nat) = 64 ∧ (8 : Nat) = 8) ∨ ((64 : Nat) = 128 ∧ (8 : Nat) = 16)) ∧
    (padMessage 64 8 (List.replicate 55 0x61#8)).length = 64 ∧ (padMessage 64 8 (List.replicate 56 0x61#8)).length = 128 ∧
    (padMessage 128 16 (List.replicate 111 0x61#8)).length = 128 ∧
    (padMessage 128 16 (List.replicate 112 0x61#8)).length = 256 := by decide +kernel

/-- Keys of the block size, and one byte longer. -/
theorem witness_KeyBlockHasTheBlockSize :
    (List.replicate 64 0xAA#8 : List Byte).length ≤ hashBlock .sha1 ∧ hashBlock .sha1 < (List.replicate 65 0xAA#8 : List Byte).length ∧
    (List.replicate 128 0xAA#8 : List Byte).length ≤ hashBlock .sha512 ∧
    hashBlock .sha512 < (List.replicate 129 0xAA#8 : List Byte).length := by decide

theorem witness_HmacCommandWritesTheTag :
    ¬ LengthRefusedFor (.hmac (.use .sha256)) hmacState ∧ ¬ LengthRefusedFor (.hmac .reserved) hmacState :=
  ⟨hmac_not_refused _, hmac_not_refused _⟩

theorem witness_CounterIsSerialisedBigEndian : (0 : Nat) < 2 ^ 64 ∧ (2 ^ 64 - 1 : Nat) < 2 ^ 64 := by decide

/-- The truncation operands -1, 0, 15 and 16. -/
theorem witness_OffsetIsFixedOrTheLastNibble :
    (BitVec.toInt (0xFFFFFFFFFFFFFFFF#64) < 0 ∧ 16 ≤ (0xFFFFFFFFFFFFFFFF#64).toNat) ∧
    (0 ≤ BitVec.toInt (0#64) ∧ BitVec.toInt (0#64) < 16 ∧ (0#64).toNat < 16) ∧
    (0 ≤ BitVec.toInt (15#64) ∧ BitVec.toInt (15#64) < 16 ∧ (15#64).toNat < 16) ∧
    (16 ≤ BitVec.toInt (16#64) ∧ 16 ≤ (16#64).toNat) := by decide

theorem witness_DecimalDigitsAreTheValue : (999999 : Nat) < 10 ^ 6 ∧ (0 : Nat) < 10 ^ 6 := by decide

/-- The edges: `NOW = START`, `STEP = 0`, and the four timestamps of the rule. -/
theorem witness_TimeStepIsTheFlooredQuotient :
    TimestampOk stateK20 ∧
    (∃ s t : State, ¬ LengthRefusedFor (.totpGen .reserved 8) s ∧ exec (.totpGen .reserved 8) s = .next t ∧ s.ops.step = 0) ∧
    (∃ t, ¬ LengthRefusedFor (.totpGen (.use .sha1) 8) (totpState 59 0 []) ∧
      exec (.totpGen (.use .sha1) 8) (totpState 59 0 []) = .next t) ∧
    ((totpState 59 0 []).ops.step = 30 ∧ (totpState 59 0 []).ops.start.toInt = 0 ∧ (totpState 59 0 []).ops.now.toInt = 59) ∧
    ((totpState 29 0 []).ops.now.toInt = 29 ∧ (totpState 30 0 []).ops.now.toInt = 30) ∧
    (∃ o : Operands, o.step = 30 ∧ o.start.toInt = -100 ∧ o.now.toInt = -50) ∧
    (∃ o : Operands, o.step = 1 ∧ o.start.toInt = -2 ^ 63 ∧ o.now.toInt = 2 ^ 63 - 1) := by
  refine ⟨⟨by decide, by decide⟩, ⟨{ stateK20 with ops := { stateK20.ops with step := 0 } }, _,
    not_refused_of _ _ (by decide) (by decide), test_totpGen_V42, rfl⟩, ⟨_, totp_not_refused _ _ _ _, test_totpGen_V40⟩,
    by decide, by decide, ⟨{ Operands.reset with start := 0xFFFFFFFFFFFFFF9C#64, now := 0xFFFFFFFFFFFFFFCE#64 }, by decide⟩,
    ⟨{ Operands.reset with step := 1, start := 0x8000000000000000#64, now := 0x7FFFFFFFFFFFFFFF#64 }, by decide⟩⟩

theorem witness_HotpGenWritesTheOtp : ∀ d ∈ [5, 6, 8, 9], ¬ LengthRefusedFor (.hotpGen d true) stateK20 ∧ d < 16 := by
  intro d hd
  exact ⟨k20_not_refused _, by revert d; decide⟩

theorem witness_TotpGenWritesTheOtp :
    (∀ i, ¬ LengthRefusedFor i (totpState 59 0 [])) ∧ TimestampOk (totpState 59 0 []) ∧
    (∀ i, ¬ LengthRefusedFor i (totpState 0xFFFFFFFFFFFFFFFF#64 0 [])) ∧ ¬ TimestampOk (totpState 0xFFFFFFFFFFFFFFFF#64 0 []) :=
  ⟨fun _ => totp_not_refused _ _ _ _, ⟨by decide, by decide⟩, fun _ => totp_not_refused _ _ _ _, fun h => absurd h.2 (by decide)⟩

theorem witness_TotpGenIsHotpGenAtTheTimeCounter :
    ¬ LengthRefusedFor (.totpGen (.use .sha1) 8) (totpState 59 0 []) ∧ TimestampOk (totpState 59 0 []) ∧
    (∃ t, exec (.totpGen (.use .sha1) 8) (totpState 59 0 []) = .next t) ∧
    ∃ u, exec (.hotpGen 8 false)
      { totpState 59 0 [] with
        ops := { (totpState 59 0 []).ops with
          ctr := BitVec.ofInt 64 (centerOf (totpState 59 0 [])), trunc := 0xFFFFFFFFFFFFFFFF#64 } } = .next u :=
  ⟨totp_not_refused _ _ _ _, ⟨by decide, by decide⟩, ⟨_, test_totpGen_V40⟩,
    _, exec_ok _ _ { resultsV40 with tctr := 0 } (by decide) (by decide) (by decide +kernel)⟩

/-- Program P1: `MSG` holds the counter 1 and `MSGLEN` is 8. -/
theorem witness_HotpGenTagIsHmacOfTheCounterBytes :
    let s := hotpState 1 0 []
    let u := { s with msg := Memory.ofBytes (beBytes 8 1), ops := { s.ops with msgLen := 8 } }
    ¬ LengthRefusedFor (.hmac (.use .sha1)) u ∧ u.key = s.key ∧ u.ops.keyLen = s.ops.keyLen ∧ u.params = s.params ∧
    u.ops.msgLen = 8 ∧ (∀ i < 8, (u.msg.read i).toNat = s.ops.ctr.toNat / 256 ^ (7 - i) % 256) ∧
    (∃ t, exec (.hotpGen 6 true) s = .next t) ∧ ∃ v, exec (.hmac (.use .sha1)) u = .next v := by
  intro s u
  exact ⟨not_refused_of _ _ (by decide) (by decide), rfl, rfl, rfl, rfl, by decide, ⟨_, test_hotpGen_V22⟩,
    _, exec_ok _ _ { Results.zero with tag := resultsV22.tag, tagLen := 20 } (by decide) (by decide) (by decide +kernel)⟩

/-! ### Validation -/

theorem submittedOk_of (chk : Bool) (s : State) (h1 : 6 + chk.toNat ≤ s.ops.subLen.toNat) (h2 : s.ops.subLen.toNat ≤ 8 + chk.toNat)
    (h3 : s.submitted.all isDigit = true) : SubmittedOk chk s := ⟨h1, h2, (submitted_all_digits s).1 h3⟩

/-- Strings of 0, 5, 6, 8 and 9 characters, and one with a character that is no digit. -/
theorem witness_SubmittedStringIsParsedFirst :
    ((hotpState 0 0 []).ops.subLen.toNat : Int) - true.toNat < 6 ∧
    ((hotpState 0 0 ['1', '2', '3', '4', '5']).ops.subLen.toNat : Int) - false.toNat < 6 ∧
    8 < ((hotpState 0 0 ['1', '2', '3', '4', '5', '6', '7', '8', '9']).ops.subLen.toNat : Int) - false.toNat ∧
    (∃ j < (hotpState 0 0 ['2', '8', '7', '0', '8', 'a']).ops.subLen.toNat,
      0x39 < ((hotpState 0 0 ['2', '8', '7', '0', '8', 'a']).sub.read j).toNat) ∧
    SubmittedOk false (hotpState 0 0 ['1', '2', '3', '4', '5', '6']) ∧
    SubmittedOk true (hotpState 0 5 ['2', '8', '7', '0', '8', '2', '2']) ∧
    SubmittedOk false (totpState 59 1 ['8', '4', '7', '5', '5', '2', '2', '4']) ∧
    (∀ i, ¬ LengthRefusedFor i (hotpState 0 5 ['2', '8', '7', '0', '8', '2', '2'])) ∧
    (∃ t, exec (.hotpVal true) (hotpState 0 5 ['2', '8', '7', '0', '8', '2', '2']) = .next t) ∧
    (∃ t, exec (.totpVal (.use .sha1)) (totpState 59 1 ['8', '4', '7', '5', '5', '2', '2', '4']) = .next t) :=
  ⟨by decide, by decide, by decide, ⟨5, by decide⟩, submittedOk_of _ _ (by decide) (by decide) (by decide),
    submittedOk_of _ _ (by decide) (by decide) (by decide), submittedOk_of _ _ (by decide) (by decide) (by decide),
    fun _ => hotp_not_refused _ _ _ _, ⟨_, test_hotpVal_V50⟩, ⟨_, test_totpVal_V55⟩⟩

/-- Windows of `2^63` and 0, the latter with and without a match. -/
theorem witness_WindowIsLimitedToTheSignedRange :
    SubmittedOk false (hotpState 0 0x8000000000000000#64 ['7', '5', '5', '2', '2', '4']) ∧
    2 ^ 63 ≤ (hotpState 0 0x8000000000000000#64 ['7', '5', '5', '2', '2', '4']).ops.window.toNat ∧
    SubmittedOk false (hotpState 0 0 ['7', '5', '5', '2', '2', '4']) ∧ (hotpState 0 0 ['7', '5', '5', '2', '2', '4']).ops.window = 0 ∧
    (∀ i c w sub, ¬ LengthRefusedFor i (hotpState c w sub)) ∧ (∀ i n w sub, ¬ LengthRefusedFor i (totpState n w sub)) ∧
    SubmittedOk false (totpState 0 0x8000000000000000#64 ['8', '4', '7', '5', '5', '2', '2']) ∧
    TimestampOk (totpState 0 0x8000000000000000#64 ['8', '4', '7', '5', '5', '2', '2']) ∧
    2 ^ 63 ≤ (totpState 0 0x8000000000000000#64 ['8', '4', '7', '5', '5', '2', '2']).ops.window.toNat ∧
    SubmittedOk false (totpState 59 0 ['9', '4', '2', '8', '7', '0', '8', '2']) ∧
    TimestampOk (totpState 59 0 ['9', '4', '2', '8', '7', '0', '8', '2']) ∧
    (∃ t, exec (.totpVal (.use .sha1)) (totpState 59 0 ['9', '4', '2', '8', '7', '0', '8', '2']) = .next t ∧ t.rc = 0) ∧
    (∃ t, exec (.totpVal (.use .sha1)) (totpState 59 0 ['8', '4', '7', '5', '5', '2', '2', '4']) = .next t ∧ t.rc ≠ 0) :=
  ⟨submittedOk_of _ _ (by decide) (by decide) (by decide), by decide, submittedOk_of _ _ (by decide) (by decide) (by decide), rfl,
    fun _ _ _ _ => hotp_not_refused _ _ _ _, fun _ _ _ _ => totp_not_refused _ _ _ _,
    submittedOk_of _ _ (by decide) (by decide) (by decide), ⟨by decide, by decide⟩, by decide,
    submittedOk_of _ _ (by decide) (by decide) (by decide), ⟨by decide, by decide⟩,
    ⟨_, exec_ok _ _ { Results.zero with matchCtr := 1, tctr := 1 } (by decide) (by decide) (by decide +kernel), rfl⟩,
    ⟨_, exec_error _ _ .invalidOtp (by decide) (by decide) (by decide +kernel), by show ErrorKind.rcBits _ ≠ 0; decide⟩⟩

/-- The last counter does not generate `"094450"` (V22, third row: it generates `"094451"`). -/
theorem last_counter_no_match :
    candidateString .sha1 stateK20 6 false (2 ^ 64 - 1) ≠ ascii ['0', '9', '4', '4', '5', '0'] := by decide +kernel

/-- A match at 1; a window that ends at `2^64 - 1` without a match; one that goes beyond; a string that is no number. -/
theorem witness_HotpValReportsTheFirstMatch :
    (let s := hotpState 0 5 ['2', '8', '7', '0', '8', '2', '2']
     ¬ LengthRefusedFor (.hotpVal true) s ∧ SubmittedOk true s ∧ s.ops.window.toNat < 2 ^ 63 ∧ 1 ≤ s.ops.window.toNat ∧
      candidateString .sha1 s 6 true (s.ops.ctr.toNat + 1) = s.submitted ∧
      ∀ j < 1, candidateString .sha1 s 6 true (s.ops.ctr.toNat + j) ≠ s.submitted) ∧
    (let s := hotpState 0xFFFFFFFFFFFFFFFF#64 0 ['0', '9', '4', '4', '5', '0']
     ¬ LengthRefusedFor (.hotpVal false) s ∧ SubmittedOk false s ∧ s.ops.ctr.toNat + s.ops.window.toNat ≤ 2 ^ 64 - 1 ∧
      ∀ j ≤ s.ops.window.toNat, candidateString .sha1 s 6 false (s.ops.ctr.toNat + j) ≠ s.submitted) ∧
    (let s := hotpState 0xFFFFFFFFFFFFFFFF#64 1 ['0', '9', '4', '4', '5', '0']
     ¬ LengthRefusedFor (.hotpVal false) s ∧ SubmittedOk false s ∧ 2 ^ 64 - 1 < s.ops.ctr.toNat + s.ops.window.toNat ∧
      ∀ j, s.ops.ctr.toNat + j ≤ 2 ^ 64 - 1 → candidateString .sha1 s 6 false (s.ops.ctr.toNat + j) ≠ s.submitted) ∧
    (let s := hotpState 0 0 ['2', '8', '7', '0', '8', 'a']
     ¬ LengthRefusedFor (.hotpVal false) s ∧ s.ops.subLen.toNat = 6 ∧ ¬ SubmittedOk false s) := by
  refine ⟨⟨hotp_not_refused _ _ _ _, submittedOk_of _ _ (by decide) (by decide) (by decide), by decide, by decide,
      by decide +kernel, by decide +kernel⟩,
    ⟨hotp_not_refused _ _ _ _, submittedOk_of _ _ (by decide) (by decide) (by decide), by decide, fun j hj => ?_⟩,
    ⟨hotp_not_refused _ _ _ _, submittedOk_of _ _ (by decide) (by decide) (by decide), by decide, fun j hj => ?_⟩,
    ⟨hotp_not_refused _ _ _ _, rfl, fun h => absurd ((submitted_all_digits _).2 h.2.2) (by decide)⟩⟩
  · obtain rfl : j = 0 := Nat.le_zero.1 hj
    exact last_counter_no_match
  · have hj : 2 ^ 64 - 1 + j ≤ 2 ^ 64 - 1 := hj
    obtain rfl : j = 0 := by omega
    exact last_counter_no_match

/-- V55: a match at -1 with a window of 1; no match around centre 0, where -1 has no counter. -/
theorem witness_TotpValReportsTheFirstMatch :
    (let s := totpState 59 1 ['8', '4', '7', '5', '5', '2', '2', '4']
     ¬ LengthRefusedFor (.totpVal (.use .sha1)) s ∧ SubmittedOk false s ∧ TimestampOk s ∧ s.ops.window.toNat < 2 ^ 63 ∧
      (-1 : Int).natAbs ≤ s.ops.window.toNat ∧ TotpHit .sha1 s (-1) ∧
      ∀ q : Int, q.natAbs ≤ s.ops.window.toNat → searchRank q < searchRank (-1) → ¬ TotpHit .sha1 s q) ∧
    (let s := totpState 29 1 ['3', '7', '3', '5', '9', '1', '5', '2']
     SubmittedOk false s ∧ TimestampOk s ∧ ∀ q : Int, q.natAbs ≤ s.ops.window.toNat → ¬ TotpHit .sha1 s q) ∧
    (let s := totpState 0 3 ['8', '4', '7', '5', 'x', '2', '2', '4']
     s.ops.subLen.toNat = 8 ∧ ¬ SubmittedOk false s) ∧
    (let s := totpState 0xFFFFFFFFFFFFFFFF#64 3 ['8', '4', '7', '5', '5', '2', '2', '4']
     SubmittedOk false s ∧ ¬ TimestampOk s) := by
  refine ⟨⟨totp_not_refused _ _ _ _, submittedOk_of _ _ (by decide) (by decide) (by decide), ⟨by decide, by decide⟩, by decide, by decide,
      by unfold TotpHit; decide +kernel, fun q hq hr => ?_⟩,
    ⟨submittedOk_of _ _ (by decide) (by decide) (by decide), ⟨by decide, by decide⟩, fun q hq => ?_⟩,
    ⟨rfl, fun h => absurd ((submitted_all_digits _).2 h.2.2) (by decide)⟩,
    ⟨submittedOk_of _ _ (by decide) (by decide) (by decide), fun h => absurd h.2 (by decide)⟩⟩
  · have hq : q.natAbs ≤ 1 := hq
    have hq : q = -1 ∨ q = 0 ∨ q = 1 := by omega
    rcases hq with rfl | rfl | rfl
    · exact absurd hr (by decide)
    · unfold TotpHit; decide +kernel
    · unfold TotpHit; decide +kernel
  · have hq : q.natAbs ≤ 1 := hq
    have hq : q = -1 ∨ q = 0 ∨ q = 1 := by omega
    rcases hq with rfl | rfl | rfl <;> unfold TotpHit <;> decide +kernel

theorem witness_GeneratedOtpValidatesAtPositionZero :
    ¬ LengthRefusedFor (.hotpGen 6 true) (hotpState 1 0 []) ∧ 16 ≤ (hotpState 1 0 []).ops.trunc.toNat ∧
    exec (.hotpGen 6 true) (hotpState 1 0 []) = .next (withOutcome (hotpState 1 0 []) 0 resultsV22) ∧
    ∀ j < resultsV22.otpLen.toNat, resultsV22.otp.read j = (withOutcome (hotpState 1 0 []) 0 resultsV22).res.otp.read j :=
  ⟨hotp_not_refused _ _ _ _, by decide, test_hotpGen_V22, fun _ _ => rfl⟩

/-- The match at -1 of V55, and the windows 1 and `2^63 - 1`. -/
theorem witness_TotpWindowSymmetry :
    (∃ t, ¬ LengthRefusedFor (.totpVal (.use .sha1)) (totpState 59 1 ['8', '4', '7', '5', '5', '2', '2', '4']) ∧
      exec (.totpVal (.use .sha1)) (totpState 59 1 ['8', '4', '7', '5', '5', '2', '2', '4']) = .next t ∧ t.rc = 0 ∧
      t.res.pos.toInt.natAbs = 1) ∧
    (1 ≤ (0x7FFFFFFFFFFFFFFF#64).toNat ∧ (0x7FFFFFFFFFFFFFFF#64).toNat ≤ 2 ^ 63 - 1) :=
  ⟨⟨_, totp_not_refused _ _ _ _, test_totpVal_V55, rfl, rfl⟩, by decide⟩

theorem witness_ReportedMatchGeneratesTheSubmittedString :
    (∃ t, ¬ LengthRefusedFor (.hotpVal true) (hotpState 0 5 ['2', '8', '7', '0', '8', '2', '2']) ∧
      exec (.hotpVal true) (hotpState 0 5 ['2', '8', '7', '0', '8', '2', '2']) = .next t ∧ t.rc = 0) ∧
    (∃ t, ¬ LengthRefusedFor (.totpVal (.use .sha1)) (totpState 59 1 ['8', '4', '7', '5', '5', '2', '2', '4']) ∧
      exec (.totpVal (.use .sha1)) (totpState 59 1 ['8', '4', '7', '5', '5', '2', '2', '4']) = .next t ∧ t.rc = 0) :=
  ⟨⟨_, hotp_not_refused _ _ _ _, test_hotpVal_V50, rfl⟩, ⟨_, totp_not_refused _ _ _ _, test_totpVal_V55, rfl⟩⟩

/-! ### The register space -/

/-- The smallest and the largest parameters, two neighbours at their common edge, the ends of rows, and the first and last
address of each reserved stretch with the neighbours that are not reserved. -/
theorem witness_EveryByteHasAtMostOnePlace :
    ((Config.mk 128 8 0).wf ∧ (Config.mk 65536 65536 0).wf) ∧
    ((⟨0x10000, 65536, .buf .msg, .readWrite⟩ : Region) ∈ rowsOfR72 (Config.mk 65536 65536 0) ∧
      (⟨0x20000, 65536, .buf .key, .writeOnly⟩ : Region) ∈ rowsOfR72 (Config.mk 65536 65536 0) ∧
      regionAt (Config.mk 65536 65536 0) 0x1FFFF = some ⟨0x10000, 65536, .buf .msg, .readWrite⟩ ∧
      regionAt (Config.mk 65536 65536 0) 0x20000 = some ⟨0x20000, 65536, .buf .key, .writeOnly⟩) ∧
    (∀ a ∈ [0x2C, 0x2F, 0x4C, 0x4F, 0x7C, 0x7F, 0xA0, 0xBF, 0x100, 0xFFFF, 0x10100, 0x1FFFF, 0x20100, 0x40000],
      ReservedByR72 Config.default a) ∧
    (∀ a ∈ [0x00, 0x2B, 0x30, 0x4B, 0x50, 0x7B, 0x80, 0x9F, 0xC0, 0xFF, 0x10000, 0x100FF, 0x20000, 0x200FF],
      ¬ ReservedByR72 Config.default a) ∧
    acceptedRegion Config.default .read 0x200F8 8 = some ⟨0x20000, 256, .buf .key, .writeOnly⟩ ∧
    (∀ a, ReservedByR72 (Config.mk 65536 65536 0) a → a < 0x10000 ∨ 0x30000 ≤ a) := by
  refine ⟨by decide, by decide, by unfold ReservedByR72; decide, by unfold ReservedByR72; decide, by decide, fun a h => ?_⟩
  have h : _ ∨ _ := h
  simp only at h
  omega

/-- Accepted and refused accesses at the edges: misaligned, over two registers, reserved, the last byte of a buffer and
the first beyond it, beyond the space, and the writes to `CMD` of other sizes. -/
theorem witness_RefusedAccessesChangeNothing :
    Config.default.wf ∧ AcceptedByRule Config.default .read 0x00010 8 ∧ ¬ AcceptedByRule Config.default .read 0x00011 2 ∧
    ¬ AcceptedByRule Config.default .read 0x00000 8 ∧ ¬ AcceptedByRule Config.default .read 0x00028 8 ∧
    AcceptedByRule Config.default .read 0x000FF 1 ∧ ¬ AcceptedByRule Config.default .read 0x00100 1 ∧
    AcceptedByRule Config.default .read 0x200FF 1 ∧ ¬ AcceptedByRule Config.default .read 0x20100 1 ∧
    ¬ AcceptedByRule Config.default .read 0x40000 1 ∧ ¬ AcceptedByRule Config.default .read 0x00010 3 ∧
    AcceptedByRule Config.default .read 0x00003 1 ∧ ¬ AcceptedByRule Config.default .write 0x00003 1 ∧
    ¬ AcceptedByRule Config.default .write 0x00000 2 ∧ AcceptedByRule Config.default .write 0x00000 4 ∧
    AcceptedByRule Config.default .write 0x00008 4 ∧
    (reset1 (rd 2 0x00011)).pending = [.read 0x00011 2] ∧ (reset1 (wr 2 0 0x602)).pending = [.write 0x00000 (beBytes 2 0x602)] ∧
    ∃ t, runProgram State.reset [rd 2 0x00011] = .next t ∧ .busError ∈ t.responses := by
  refine ⟨by decide, ?_, ?_, ?_, ?_, ?_, ?_, ?_, ?_, ?_, ?_, ?_, ?_, ?_, ?_, ?_, rfl, rfl, _, rfl, by decide⟩ <;>
    unfold AcceptedByRule <;> decide

theorem witness_ReadReturnsTheBigEndianValue :
    stateV70.params.wf ∧ (stateV70.load [rd 8 0x00010]).pending = [.read 0x00010 8] ∧
    AcceptedByRule stateV70.params .read 0x00010 8 := by
  unfold AcceptedByRule
  decide

theorem witness_KeyCannotBeReadBack :
    (reset1 (rd 8 0x20000)).params.wf ∧ (reset1 (rd 8 0x20000)).pending = [.read 0x20000 8] ∧
    AcceptedByRule Config.default .read 0x20000 8 ∧ AcceptedByRule Config.default .read 0x200F8 8 ∧
    (∃ t, step (reset1 (rd 8 0x20000)) = .next t) ∧ ∃ u, step { reset1 (rd 8 0x20000) with key := keyK20 } = .next u := by
  refine ⟨by decide, by decide, by unfold AcceptedByRule; decide, by unfold AcceptedByRule; decide, ⟨_, rfl⟩, ⟨_, rfl⟩⟩

/-- A writable register, a read-only one, the last bytes of `KEY`, and the rule's one-byte write. -/
theorem witness_WriteReplacesExactlyTheBytesCovered :
    (∀ p : HostProgram, (State.reset.load p).Inv) ∧
    (reset1 (wr 8 0x00010 5)).pending = [.write 0x00010 (beBytes 8 5)] ∧ AcceptedByRule Config.default .write 0x00010 8 ∧
    WritableAt Config.default 0x00017 ∧ AcceptedByRule Config.default .write 0x00008 4 ∧ ¬ WritableAt Config.default 0x00008 ∧
    AcceptedByRule Config.default .write 0x200F8 8 ∧ WritableAt Config.default 0x200FF ∧
    (reset1 (wr 1 0x00017 1)).pending = [.write 0x00017 [0x01#8]] ∧
    (reset1 (wr 4 0 0x602)).pending = [.write 0x00000 (beBytes 4 0x602)] := by
  refine ⟨loaded_inv, rfl, by unfold AcceptedByRule; decide, ⟨⟨0x00010, 8, .reg .ctr, .readWrite⟩, by decide, by decide⟩,
    by unfold AcceptedByRule; decide, ?_, by unfold AcceptedByRule; decide,
    ⟨⟨0x20000, 256, .buf .key, .writeOnly⟩, by decide, by decide⟩, by decide, rfl⟩
  rintro ⟨r, h, hr⟩
  have h' : regionAt Config.default 0x00008 = some ⟨0x00008, 4, .reg .rc, .readOnly⟩ := by decide
  rw [h'] at h
  cases h
  exact hr rfl

theorem witness_WrittenValueReadsBack :
    (State.reset.load [wr 8 0x00010 (2 ^ 64 - 1), rd 8 0x00010]).Inv ∧ 2 ^ 64 - 1 < 256 ^ 8 ∧
    (State.reset.load [wr 8 0x00010 (2 ^ 64 - 1), rd 8 0x00010]).pending =
      [.write 0x00010 (beBytes 8 (2 ^ 64 - 1)), .read 0x00010 8] ∧
    AcceptedByRule Config.default .write 0x00010 8 ∧ WritableAt Config.default 0x00010 ∧
    AcceptedByRule Config.default .write 0x100F8 8 ∧ WritableAt Config.default 0x100F8 :=
  ⟨loaded_inv _, by decide, rfl, by unfold AcceptedByRule; decide, ⟨⟨0x00010, 8, .reg .ctr, .readWrite⟩, by decide, by decide⟩,
    by unfold AcceptedByRule; decide, ⟨⟨0x10000, 256, .buf .msg, .readWrite⟩, by decide, by decide⟩⟩

theorem witness_RegisterSpaceIsBigEndian :
    stateV70.params.wf ∧ (⟨0x00010, 8, .reg .ctr, .readWrite⟩ : Region) ∈ memoryMap stateV70.params ∧
    (⟨0x20000, 256, .buf .key, .writeOnly⟩ : Region) ∈ memoryMap stateV70.params ∧
    stateV70.contentAt 0x00010 = some 0x01#8 ∧ stateV70.contentAt 0x00017 = some 0xEF#8 ∧
    stateV70.contentAt 0x0002B = some 30#8 ∧ stateV70.contentAt 0x0002C = none := by decide

/-- A read, a refused write, and a command. -/
theorem witness_ResultsPersistUntilTheNextCommand :
    (rd 4 0x00008 ≠ .reset ∧ (∃ t, step (reset1 (rd 4 0x00008)) = .next t) ∧ ∀ w : Word, rd 4 0x00008 ≠ .write 0x00000 (beBytes 4 w.toNat)) ∧
    (wr 4 0 0 ≠ .reset ∧ (∃ t, step (reset1 (wr 4 0 0)) = .next t) ∧ wr 4 0 0 = .write 0x00000 (beBytes 4 (0 : Word).toNat)) :=
  ⟨⟨by decide, ⟨_, rfl⟩, fun w h => by cases h⟩, ⟨by decide, ⟨_, rfl⟩, rfl⟩⟩

/-! ### Error codes, status, reset -/

/-- Commands that end with each of the codes -1, -2, -6, -9 (both validation commands) and -10. -/
theorem witness_ErrorCodesAreTheTaxonomy :
    (∃ t, ¬ LengthRefusedFor (.hmac .reserved) hmacState ∧ exec (.hmac .reserved) hmacState = .next t ∧ t.rc.toInt = -1) ∧
    (∃ (s t : State), ¬ LengthRefusedFor (.totpVal (.use .sha1)) s ∧ exec (.totpVal (.use .sha1)) s = .next t ∧ t.rc.toInt = -6) ∧
    (∃ (s t : State), ¬ LengthRefusedFor (.hotpVal false) s ∧ exec (.hotpVal false) s = .next t ∧ t.rc.toInt = -9) ∧
    (∃ (s t : State), ¬ LengthRefusedFor (.totpGen .reserved 8) s ∧ exec (.totpGen .reserved 8) s = .next t ∧ t.rc.toInt = -10) ∧
    (∃ t, ¬ LengthRefusedFor (.hotpGen 9 false) stateK20 ∧ exec (.hotpGen 9 false) stateK20 = .next t ∧ t.rc.toInt = -2) ∧
    (∃ (s t : State), ¬ LengthRefusedFor (.totpVal .reserved) s ∧ exec (.totpVal .reserved) s = .next t ∧ t.rc.toInt = -9) :=
  ⟨⟨_, hmac_not_refused _, test_hmac_V19, rfl⟩, ⟨_, _, totp_not_refused _ _ _ _, test_totpVal_V55_skip, rfl⟩,
    ⟨_, _, hotp_not_refused _ _ _ _, test_hotpVal_V50_overflow, rfl⟩,
    ⟨{ stateK20 with ops := { stateK20.ops with step := 0 } }, _, not_refused_of _ _ (by decide) (by decide), test_totpGen_V42, rfl⟩,
    ⟨_, k20_not_refused _, test_hotpGen_V21, rfl⟩,
    ⟨totpState 0 0x8000000000000000#64 ['8', '4', '7', '5', '5', '2', '2'], _, totp_not_refused _ _ _ _,
      exec_error _ _ .invalidCounter (by decide) (by decide) (by decide), rfl⟩⟩

/-- An illegal word sets bit 0, a length refusal bit 1; with both set they stay; reset clears them. -/
theorem witness_StatusFlagsAreSticky :
    (stepped (reset1 (wr 4 0 0x10))).map (·.status) = some 1 ∧
    (stepped ((withKeyLen 257).load [wr 4 0 0x602])).map (·.status) = some 2 ∧
    (stepped ({ State.reset with status := 3 }.load [wr 4 0 0])).map (·.status) = some 3 ∧
    (stepped ({ State.reset with status := 3 }.load [.reset])).map (·.status) = some 0 ∧ wr 4 0 0x10 ≠ .reset ∧
    ¬ LengthRefusedFor (.hotpGen 9 false) stateK20 ∧ ∃ t, exec (.hotpGen 9 false) stateK20 = .next t :=
  ⟨by decide, by decide, by decide, by decide, by decide, k20_not_refused _, _, test_hotpGen_V21⟩

theorem witness_ResetActionGivesTheResetState : ({ stateV70 with status := 3 }.load [.reset]).pending = [.reset] := rfl

theorem witness_VersionIsConstant : ∃ t, step (reset1 (rd 4 0x0000C)) = .next t := ⟨_, rfl⟩

theorem witness_ResetMeetsTheInvariant : (Config.mk 128 8 0).wf ∧ (Config.mk 65536 65536 0xFFFFFFFF#32).wf := by decide

theorem witness_EveryStepKeepsTheInvariant :
    (reset1 (wr 4 0 0x502)).Inv ∧ ∃ t, step (reset1 (wr 4 0 0x502)) = .next t := ⟨loaded_inv _, _, rfl⟩

/-- A write and a reset as the oldest access, with a command behind them; a program in two parts. -/
theorem witness_RunEndsAfterTheLastAccess :
    (∃ t, (State.reset.load [wr 8 0x00010 5, wr 4 0 0]).pending = wr 8 0x00010 5 :: [wr 4 0 0] ∧
      step (State.reset.load [wr 8 0x00010 5, wr 4 0 0]) = .next t ∧ wr 8 0x00010 5 ≠ .reset) ∧
    (∃ t, (State.reset.load [.reset, wr 4 0 0]).pending = .reset :: [wr 4 0 0] ∧
      step (State.reset.load [.reset, wr 4 0 0]) = .next t) ∧
    ∃ t u, runProgram State.reset [wr 8 0x00010 5, rd 4 0x00014] = .next t ∧ t.responses = [.data 5, .written] ∧
      runProgram t [wr 4 0 0, .reset] = .next u ∧ u.responses = [.written] :=
  ⟨⟨_, rfl, rfl, by decide⟩, ⟨_, rfl, rfl⟩, _, _, rfl, by decide, rfl, by decide⟩

end Sys2Proof.Tests
end

section
/-! No trap (00_scope.md R14; 60_exceptions.md R287, R288): from one command up to one step, every level of the machine
answers a next state. -/

namespace Sys2Proof.Machine

/-- `NOP`, a refused length, a raised error and a completed command all answer. -/
theorem exec_answers_next (i : Instr) (s : State) : ∃ t, exec i s = .next t := by
  rcases exec_cases i s with ⟨-, hnop⟩ | ⟨-, -, hrefused⟩ | ⟨-, -, e, -, herror⟩ | ⟨-, -, r, -, hok⟩
  · exact ⟨s, hnop⟩
  · exact ⟨s.setIllLen, hrefused⟩
  · exact ⟨_, herror⟩
  · exact ⟨_, hok⟩

/-- An illegal word is a flag in `STATUS` (R132); a legal word is its command. -/
theorem runCommand_answers_next (s : State) : ∃ t, runCommand s = .next t := by
  by_cases hlegal : ∃ i, decodeWord s.cmd = .ok i
  · obtain ⟨i, hi⟩ := hlegal
    rw [runCommand_ok s i hi]
    exact exec_answers_next i s
  · exact ⟨s.setIllCmd, runCommand_illegal s fun i hi => hlegal ⟨i, hi⟩⟩

/-- Of the host's actions only the write of a command word runs anything, the frame of that word. -/
theorem hostAction_answers_next (a : HostAction) (s : State) : ∃ t, hostAction a s = .next t := by
  rcases hostAction_cases a s with ⟨-, hreset⟩ | ⟨w, -, hcommand⟩ | ⟨-, -, t, r, haccess, -⟩
  · exact ⟨hostReset s, hreset⟩
  · rw [hcommand]
    exact runCommand_answers_next _
  · exact ⟨t.respond r, haccess⟩

/-- The idle engine stays as it is (R292); otherwise the oldest action is taken. -/
theorem step_answers_next (s : State) : ∃ t, step s = .next t := by
  cases hp : s.pending with
  | nil => exact ⟨s, step_idle s hp⟩
  | cons a rest =>
    rw [step_action s a rest hp]
    exact hostAction_answers_next a _

/-- Settles O50: the case split of a step, of a host action and of a command has no branch that stops. -/
theorem everyStepAnswersNext : Obligations.EveryStepAnswersNext :=
  ⟨step_answers_next, exec_answers_next⟩

end Sys2Proof.Machine
end

section
/-! The parameters and the flags of `STATUS` (10_state.md R24, R26): what one command and then one step can do to them. -/

namespace Sys2Proof.Machine

/-! ## The parameters -/

/-- No outcome of a command touches the parameters. -/
theorem exec_params {i : Instr} {s t : State} (ht : exec i s = .next t) : t.params = s.params := by
  rcases exec_cases i s with ⟨-, hnop⟩ | ⟨-, -, hrefused⟩ | ⟨-, -, e, -, herror⟩ | ⟨-, -, r, -, hok⟩
  · rw [hnop] at ht; cases ht; rfl
  · rw [hrefused] at ht; cases ht; rfl
  · rw [herror] at ht; cases ht; rfl
  · rw [hok] at ht; cases ht; rfl

/-- The parameters are constant: reset keeps them, and so do commands and accesses. -/
theorem step_params {s t : State} (ht : step s = .next t) : t.params = s.params := by
  cases hp : s.pending with
  | nil => rw [step_idle s hp] at ht; cases ht; rfl
  | cons a rest =>
    rcases step_cases hp ht with ⟨-, rfl⟩ | ⟨w, -, ⟨-, rfl⟩ | ⟨i, -, hexec⟩⟩ | ⟨-, -, u, r, rfl, hu⟩
    · rfl
    · rfl
    · exact exec_params hexec (s := { s with cmd := w, pending := rest, responses := .written :: s.responses })
    · exact hu.params

/-- Settles O49: `VERSION` is a parameter, and the parameters are constant. -/
theorem versionIsConstant : Obligations.VersionIsConstant :=
  ⟨fun _ => rfl, fun _ _ ht => ⟨step_params ht, congrArg (·.versionNum.toNat) (step_params ht)⟩, fun _ => rfl⟩

/-! ## The flags -/

/-- The frame's length check is `length_refused` of R133. -/
theorem lengthRefused_iff (i : Instr) (s : State) (h : i ≠ .nop) :
    lengthRefused (readsMsg i) s = true ↔ LengthRefusedFor i s := by
  cases i with
  | nop => exact absurd rfl h
  | hmac alg => simp [lengthRefused, readsMsg, LengthRefusedFor]
  | hotpGen digits chk => simp [lengthRefused, readsMsg, LengthRefusedFor]
  | hotpVal chk => simp [lengthRefused, readsMsg, LengthRefusedFor]
  | totpGen alg digits => simp [lengthRefused, readsMsg, LengthRefusedFor]
  | totpVal alg => simp [lengthRefused, readsMsg, LengthRefusedFor]

/-- A command leaves `STATUS` alone or, when its length is refused, sets `ILLLEN` (R133). -/
theorem exec_status {i : Instr} {s t : State} (ht : exec i s = .next t) :
    t.status = s.status ∨ (LengthRefusedFor i s ∧ t.status = s.status ||| 2#32) := by
  rcases exec_cases i s with ⟨-, hnop⟩ | ⟨hi, hl, hrefused⟩ | ⟨-, -, e, -, herror⟩ | ⟨-, -, r, -, hok⟩
  · rw [hnop] at ht; cases ht; exact .inl rfl
  · rw [hrefused] at ht; cases ht; exact .inr ⟨(lengthRefused_iff i s hi).1 hl, rfl⟩
  · rw [herror] at ht; cases ht; exact .inl rfl
  · rw [hok] at ht; cases ht; exact .inl rfl

/-- All a step other than a reset can do to `STATUS`: nothing, set `ILLCMD` for an illegal word written to `CMD` (R132),
or set `ILLLEN` for a legal word whose length is refused (R133). -/
theorem step_status {s t : State} {a : HostAction} {rest : List HostAction} (hp : s.pending = a :: rest)
    (ha : a ≠ .reset) (ht : step s = .next t) :
    t.status = s.status ∨
    (∃ w : Word, a = .write 0x00000 (beBytes 4 w.toNat) ∧ (∀ i, decodeWord w ≠ .ok i) ∧ t.status = s.status ||| 1#32) ∨
    (∃ (w : Word) (i : Instr), a = .write 0x00000 (beBytes 4 w.toNat) ∧ decodeWord w = .ok i ∧ LengthRefusedFor i s ∧
      t.status = s.status ||| 2#32) := by
  rcases step_cases hp ht with ⟨hreset, -⟩ | ⟨w, hw, ⟨hillegal, rfl⟩ | ⟨i, hi, hexec⟩⟩ | ⟨-, -, u, r, rfl, hu⟩
  · exact absurd hreset ha
  · exact .inr (.inl ⟨w, hw, hillegal, rfl⟩)
  · rcases exec_status hexec with hsame | ⟨hrefused, hset⟩
    · exact .inl hsame
    · exact .inr (.inr ⟨w, i, hw, hi, hrefused, hset⟩)
  · exact .inl hu.status

theorem getLsbD_or_illCmd (x : Word) (k : Nat) : (x ||| 1#32).getLsbD k = (x.getLsbD k || decide (k = 0)) := by
  rw [BitVec.getLsbD_or, BitVec.getLsbD_one]
  simp

theorem getLsbD_or_illLen (x : Word) (k : Nat) : (x ||| 2#32).getLsbD k = (x.getLsbD k || decide (k = 1)) := by
  rw [BitVec.getLsbD_or, show (2#32) = BitVec.twoPow 32 1 from rfl, BitVec.getLsbD_twoPow]
  simp [eq_comm]

/-- A body does not read `STATUS`. -/
theorem bodyOf_withStatus (i : Instr) (s : State) (x : Word) : bodyOf i { s with status := x } = bodyOf i s := by
  cases i <;> rfl

/-- Unless its length is refused, a command neither reads nor changes `STATUS`. -/
theorem exec_withStatus {i : Instr} {s t : State} (x : Word) (hl : ¬ LengthRefusedFor i s) (ht : exec i s = .next t) :
    exec i { s with status := x } = .next { t with status := x } := by
  rcases exec_cases i s with ⟨rfl, hnop⟩ | ⟨hi, hr, -⟩ | ⟨hi, hr, e, hb, herror⟩ | ⟨hi, hr, r, hb, hok⟩
  · rw [hnop] at ht; cases ht; rfl
  · exact absurd ((lengthRefused_iff i s hi).1 hr) hl
  · rw [herror] at ht; cases ht
    exact exec_error i _ e hi hr ((bodyOf_withStatus i s x).trans hb)
  · rw [hok] at ht; cases ht
    exact exec_ok i _ r hi hr ((bodyOf_withStatus i s x).trans hb)

/-- Settles O46: the three things a step can do to `STATUS`, bit by bit. -/
theorem statusFlagsAreSticky : Obligations.StatusFlagsAreSticky := by
  refine ⟨fun s t a rest hp ha ht => ?_, fun s t rest hp ht => ?_, fun i s t x => exec_withStatus x, fun _ => rfl⟩
  · rcases step_status hp ha ht with hsame | ⟨w, hw, hillegal, hset⟩ | ⟨w, i, hw, hi, hrefused, hset⟩
    · rw [hsame]
      exact ⟨id, id, fun _ _ => rfl, fun h0 h1 => absurd (h0.symm.trans h1) Bool.false_ne_true,
        fun h0 h1 => absurd (h0.symm.trans h1) Bool.false_ne_true⟩
    · have hbit0 : t.status.getLsbD 0 = true := by rw [hset, getLsbD_or_illCmd]; exact Bool.or_true _
      have hother : ∀ k ≠ 0, t.status.getLsbD k = s.status.getLsbD k := fun k hk => by
        rw [hset, getLsbD_or_illCmd, decide_eq_false hk, Bool.or_false]
      exact ⟨fun _ => hbit0, (hother 1 (by decide)).trans, fun k hk => hother k (by omega), fun _ _ => ⟨w, hw, hillegal⟩,
        fun h0 h1 => absurd (h0.symm.trans ((hother 1 (by decide)).symm.trans h1)) Bool.false_ne_true⟩
    · have hbit1 : t.status.getLsbD 1 = true := by rw [hset, getLsbD_or_illLen]; exact Bool.or_true _
      have hother : ∀ k ≠ 1, t.status.getLsbD k = s.status.getLsbD k := fun k hk => by
        rw [hset, getLsbD_or_illLen, decide_eq_false hk, Bool.or_false]
      exact ⟨(hother 0 (by decide)).trans, fun _ => hbit1, fun k hk => hother k (by omega),
        fun h0 h1 => absurd (h0.symm.trans ((hother 0 (by decide)).symm.trans h1)) Bool.false_ne_true,
        fun _ _ => ⟨w, i, hw, hi, hrefused⟩⟩
  · rw [step_action s .reset rest hp] at ht
    cases ht
    rfl

end Sys2Proof.Machine
end

section
/-! What the block can hold (10_state.md R25, R40 to R54; 40_command_frame.md R134): lengths of the tags, bounds of the
buffers, legality of what a body answers, and from these that every command, access and step keeps the invariant. -/

namespace Sys2Proof.Machine

/-! ## Lengths of the digests -/

theorem flatMap_beBytes_length {w : Nat} (k : Nat) (ws : List (BitVec w)) :
    (ws.flatMap fun x => beBytes k x.toNat).length = ws.length * k := by
  simp [List.length_flatMap]

/-- A digest has `L(alg)` bytes (R150). -/
theorem hash_length (a : HashAlg) (m : List Byte) : (hash a m).length = hashLen a := by
  cases a with
  | sha1 => exact flatMap_beBytes_length 4 _
  | sha256 => exact flatMap_beBytes_length 4 _
  | sha512 => exact flatMap_beBytes_length 8 _

theorem hmac_length (a : HashAlg) (key msg : List Byte) : (hmac a key msg).length = hashLen a := hash_length a _

/-! ## Bounds of the buffers -/

@[simp] theorem Memory.within_nil (n : Nat) : Memory.Within n [] := by simp [Memory.Within]

theorem Memory.store_within {n : Nat} {m : Memory} {k : Nat} {bs : List Byte} (h : m.Within n) (hk : k + bs.length ≤ n) :
    (m.store k bs).Within n := fun c hc => by
  rcases Memory.mem_store hc with hc | hc
  · exact h c hc
  · omega

/-- The size of a buffer (R40 to R42, R52, R54). -/
def Buf.capacity (c : Config) : Buf → Nat
  | .otp => 16
  | .sub => 16
  | .tag => 64
  | .msg => c.msgMax
  | .key => c.keyMax

/-- The row of a buffer in the address map is as large as the buffer (R72). -/
theorem size_of_buffer_row {c : Config} {r : Region} {b : Buf} (hr : r ∈ memoryMap c) (hb : r.place = .buf b) :
    r.size = b.capacity c := by
  have hrows : ∀ r ∈ memoryMap c, ∀ b, r.place = .buf b → r.size = b.capacity c := by simp [memoryMap, Buf.capacity]
  exact hrows r hr b hb

/-! ## Legal outcomes of a body -/

/-- A body raises an error whose code the block writes to `RC`, or its results are in their ranges. -/
def LegalOutcome : Except ErrorKind Results → Prop
  | .error e => e.rcBits ∈ legalRc
  | .ok r => r.Legal

/-- What a generation writes is in range when what it generated is (R48 to R54). -/
theorem Generated.results_legal (g : Generated) (htag : g.tag.length ∈ [0, 20, 32, 64]) (hoffset : g.offset < 16)
    (hbin : g.binCode < 2 ^ 31) (hotp : g.otp < 10 ^ 8) (hlen : g.str.length = 0 ∨ (6 ≤ g.str.length ∧ g.str.length ≤ 9))
    (hdigits : ∀ b ∈ g.str, isDigit b = true) : g.results.Legal := by
  have htag : g.tag.length = 0 ∨ g.tag.length = 20 ∨ g.tag.length = 32 ∨ g.tag.length = 64 := by simpa using htag
  have hfits : ∀ v, v < 2 ^ 32 → (BitVec.ofNat 32 v).toNat = v := fun v hv => Nat.mod_eq_of_lt hv
  have htagLen : g.results.tagLen.toNat = g.tag.length := hfits _ (by omega)
  have hotpLen : g.results.otpLen.toNat = g.str.length := hfits _ (by omega)
  exact
    { binCode := (hfits _ (by omega)).trans_lt hbin
      otpVal := (hfits _ (by omega)).trans_lt hotp
      offset := (hfits _ (by omega)).trans_lt hoffset
      otpLen := hotpLen.symm ▸ hlen
      tagLen := htagLen.symm ▸ htag
      otpWf := Memory.ofBytes_wf g.str
      tagWf := Memory.ofBytes_wf g.tag
      otpWithin := fun c hc => hotpLen.symm ▸ Memory.mem_ofBytes hc
      tagWithin := fun c hc => htagLen.symm ▸ Memory.mem_ofBytes hc
      otpDigits := fun j hj => by
        rw [hotpLen] at hj
        show isDigit ((Memory.ofBytes g.str).read j) = true
        rw [Memory.read_ofBytes, List.getD_eq_getElem _ _ hj]
        exact hdigits _ (List.getElem_mem hj) }

/-- Zero results are those of nothing generated. -/
theorem Results.zero_legal : Results.zero.Legal :=
  Generated.results_legal ⟨[], 0, 0, 0, []⟩ (by simp) (by decide) (by decide) (by decide) (.inl rfl) (by simp)

/-- `POS`, `MATCHCTR` and `TCTR` hold any value. -/
theorem Results.Legal.withMatch {r : Results} (h : r.Legal) (p m t : DWord) :
    { r with pos := p, matchCtr := m, tctr := t }.Legal := { h with }

theorem hashLen_mem (a : HashAlg) : hashLen a ∈ [0, 20, 32, 64] := by cases a <;> decide

/-- `OTPGEN` with a legal digit count stays in the ranges of its results (R212 to R217). -/
theorem otpGen_legal (a : HashAlg) (key : List Byte) (c : Nat) (tr : Option DWord) (digits : Nat) (chk : Bool)
    (hd : ¬ (digits < 6 ∨ 8 < digits)) : (otpGen a key c tr digits chk).results.Legal := by
  have hchk := chk.toNat_le
  have hlen : (otpGen a key c tr digits chk).str.length = digits + chk.toNat := otpString_length _ _ _
  have hpow : 10 ^ digits ≤ 10 ^ 8 := Nat.pow_le_pow_right (by decide) (by omega)
  refine Generated.results_legal _ ?_ (selectOffset_lt _ _) (extractBinCode_lt _ _) ?_ (.inr (by omega)) ?_
  · rw [show (otpGen a key c tr digits chk).tag.length = hashLen a from hmac_length _ _ _]
    exact hashLen_mem a
  · exact (Nat.mod_lt _ (Nat.pow_pos (by decide))).trans_le hpow
  · exact fun b hb => isDigit_of_mem_otpString hb

theorem hmacBody_legal (alg : HashSel) (s : State) : LegalOutcome (hmacBody alg s) := by
  cases alg with
  | reserved => exact (by decide : ErrorKind.cryptoError.rcBits ∈ legalRc)
  | use a =>
    have h := Generated.results_legal ⟨hmac a s.secret s.message, 0, 0, 0, []⟩
      (by rw [hmac_length]; exact hashLen_mem a) (Nat.zero_lt_succ _) (Nat.two_pow_pos 31) (Nat.pow_pos (by decide))
      (.inl rfl) (by simp)
    rw [Generated.results, hmac_length] at h
    exact h

theorem hotpGenBody_legal (digits : Nat) (chk : Bool) (s : State) : LegalOutcome (hotpGenBody digits chk s) := by
  unfold hotpGenBody
  split
  · exact (by decide : ErrorKind.invalidDigits.rcBits ∈ legalRc)
  · rename_i hd
    exact otpGen_legal _ _ _ _ _ _ hd

theorem totpGenBody_legal (alg : HashSel) (digits : Nat) (s : State) : LegalOutcome (totpGenBody alg digits s) := by
  unfold totpGenBody
  split
  · exact (by decide : ErrorKind.invalidDigits.rcBits ∈ legalRc)
  · rename_i hd
    split
    · exact (by decide : ErrorKind.invalidTimestamp.rcBits ∈ legalRc)
    · cases alg with
      | reserved => exact (by decide : ErrorKind.cryptoError.rcBits ∈ legalRc)
      | use a => exact (otpGen_legal a _ _ _ digits _ hd).withMatch 0 0 _

/-- The parse of the submitted string raises `INVALID_DIGITS` or `INVALID_OTP` (R250). -/
theorem parseSubmitted_error {chk : Bool} {s : State} {e : ErrorKind} (h : parseSubmitted chk s = .error e) :
    e = .invalidDigits ∨ e = .invalidOtp := by
  rcases parseSubmitted_cases chk s with ⟨-, hp⟩ | ⟨-, -, -, hp⟩ | ⟨-, -, -, hp⟩
  · rw [hp] at h; cases h; exact .inl rfl
  · rw [hp] at h; cases h; exact .inr rfl
  · rw [hp] at h; cases h

theorem parseSubmitted_error_legal {chk : Bool} {s : State} {e : ErrorKind} (h : parseSubmitted chk s = .error e) :
    e.rcBits ∈ legalRc := by
  rcases parseSubmitted_error h with rfl | rfl <;> decide

theorem hotpValBody_legal (chk : Bool) (s : State) : LegalOutcome (hotpValBody chk s) := by
  unfold hotpValBody
  split
  · rename_i e he
    exact parseSubmitted_error_legal he
  · split
    · exact (by decide : ErrorKind.invalidCounter.rcBits ∈ legalRc)
    · split
      · rename_i e he
        show e.rcBits ∈ legalRc
        rcases hotpSearch_error _ _ _ _ _ he with rfl | rfl <;> decide
      · exact Results.zero_legal.withMatch _ _ 0

theorem totpValBody_legal (alg : HashSel) (s : State) : LegalOutcome (totpValBody alg s) := by
  unfold totpValBody
  split
  · rename_i e he
    exact parseSubmitted_error_legal he
  · split
    · exact (by decide : ErrorKind.invalidTimestamp.rcBits ∈ legalRc)
    · split
      · exact (by decide : ErrorKind.invalidCounter.rcBits ∈ legalRc)
      · cases alg with
        | reserved => exact (by decide : ErrorKind.cryptoError.rcBits ∈ legalRc)
        | use a =>
          dsimp only
          split
          · exact (by decide : ErrorKind.invalidOtp.rcBits ∈ legalRc)
          · exact Results.zero_legal.withMatch _ _ _

/-- Every command that computes answers legally. -/
theorem bodyOf_legal (i : Instr) (s : State) (h : i ≠ .nop) : LegalOutcome (bodyOf i s) := by
  cases i with
  | nop => exact absurd rfl h
  | hmac alg => exact hmacBody_legal alg s
  | hotpGen digits chk => exact hotpGenBody_legal digits chk s
  | hotpVal chk => exact hotpValBody_legal chk s
  | totpGen alg digits => exact totpGenBody_legal alg digits s
  | totpVal alg => exact totpValBody_legal alg s

/-! ## What keeps the invariant -/

theorem zero_mem_legalRc : 0 ∈ legalRc := by decide

theorem resetWith_inv {c : Config} (hc : c.wf) : (State.resetWith c).Inv where
  params := hc
  status := Nat.zero_lt_succ 3
  rc := zero_mem_legalRc
  failed := fun h => absurd rfl h
  keyWf := Memory.wf_nil
  msgWf := Memory.wf_nil
  subWf := Memory.wf_nil
  keyWithin := Memory.within_nil _
  msgWithin := Memory.within_nil _
  subWithin := Memory.within_nil _
  results := Results.zero_legal

section
variable {s : State} (hs : s.Inv)
include hs

/-- The invariant says nothing of `CMD` and the host's side. -/
theorem State.Inv.withCmdAndHost (w : Word) (p : List HostAction) (l : List BusResponse) :
    { s with cmd := w, pending := p, responses := l }.Inv := { hs with }

theorem State.Inv.respond (r : BusResponse) : (s.respond r).Inv := hs.withCmdAndHost s.cmd s.pending (r :: s.responses)

/-- Setting a flag leaves the reserved bits of `STATUS` zero (R24). -/
theorem State.Inv.orStatus {x : Word} (hx : x.toNat < 4) : { s with status := s.status ||| x }.Inv :=
  { hs with status := by rw [BitVec.toNat_or]; exact Nat.or_lt_two_pow (n := 2) hs.status hx }

theorem hostReset_inv : (hostReset s).Inv :=
  (resetWith_inv hs.params).withCmdAndHost 0 s.pending s.responses

/-- A command that fails leaves zero results and a legal code; one that completes leaves legal results. -/
theorem exec_inv {i : Instr} {t : State} (ht : exec i s = .next t) : t.Inv := by
  rcases exec_cases i s with ⟨-, hnop⟩ | ⟨-, -, hrefused⟩ | ⟨hi, -, e, hb, herror⟩ | ⟨hi, -, r, hb, hok⟩
  · rw [hnop] at ht; cases ht
    exact hs
  · rw [hrefused] at ht; cases ht
    exact hs.orStatus (by decide)
  · rw [herror] at ht; cases ht
    have he : LegalOutcome (.error e) := hb ▸ bodyOf_legal i s hi
    exact { hs with rc := he, failed := fun _ => rfl, results := Results.zero_legal }
  · rw [hok] at ht; cases ht
    have hr : LegalOutcome (.ok r) := hb ▸ bodyOf_legal i s hi
    exact { hs with rc := zero_mem_legalRc, failed := fun h => absurd rfl h, results := hr }

theorem runCommand_inv {t : State} (ht : runCommand s = .next t) : t.Inv := by
  by_cases hlegal : ∃ i, decodeWord s.cmd = .ok i
  · obtain ⟨i, hi⟩ := hlegal
    rw [runCommand_ok s i hi] at ht
    exact exec_inv hs ht
  · rw [runCommand_illegal s fun i hi => hlegal ⟨i, hi⟩] at ht
    cases ht
    exact hs.orStatus (by decide)

/-- A register the host writes is one the invariant says nothing of. -/
theorem setReg_inv (g : Reg) (v : Nat) : (s.setReg g v).Inv := by
  cases g <;> exact { hs with }

/-- Bytes stored inside a buffer leave it canonical and within its capacity. -/
theorem storeBuffer_inv (b : Buf) {k : Nat} {data : List Byte} (hk : k + data.length ≤ b.capacity s.params) :
    (s.setBuffer b ((s.buffer b).store k data)).Inv := by
  cases b with
  | otp => exact hs
  | tag => exact hs
  | sub => exact { hs with subWf := Memory.store_wf _ _ _ hs.subWf, subWithin := Memory.store_within hs.subWithin hk }
  | msg => exact { hs with msgWf := Memory.store_wf _ _ _ hs.msgWf, msgWithin := Memory.store_within hs.msgWithin hk }
  | key => exact { hs with keyWf := Memory.store_wf _ _ _ hs.keyWf, keyWithin := Memory.store_within hs.keyWithin hk }

/-- An accepted write lies inside one register or buffer. -/
theorem memWrite_inv {g : Region} {addr : Nat} {data : List Byte}
    (hg : acceptedRegion s.params .write addr data.length = some g) : (s.memWrite g addr data).Inv := by
  obtain ⟨hat, -, hend, -⟩ := acceptedRegion_some hg
  obtain ⟨hmem, hbase, -⟩ := regionAt_some hat
  have hstore : (s.storeRegion g (addr - g.base) data).Inv := by
    unfold State.storeRegion
    split
    · exact setReg_inv hs _ _
    · rename_i b hb
      have hsize := size_of_buffer_row hmem hb
      exact storeBuffer_inv hs b (by omega)
  unfold State.memWrite
  split
  · exact hs
  · exact hstore
  · exact hstore

theorem hostAction_inv {a : HostAction} {t : State} (ht : hostAction a s = .next t) : t.Inv := by
  rcases hostAction_cases a s with ⟨-, hreset⟩ | ⟨w, -, hcommand⟩ | ⟨-, -, u, r, haccess, hu⟩
  · rw [hreset] at ht; cases ht
    exact hostReset_inv hs
  · rw [hcommand] at ht
    exact runCommand_inv (hs.withCmdAndHost w s.pending (.written :: s.responses)) ht
  · rw [haccess] at ht; cases ht
    rcases hu with rfl | ⟨g, addr, data, hg, -, rfl⟩
    · exact hs.respond r
    · exact (memWrite_inv hs hg).respond r

end

/-- Settles O52: from one body up to one host action, every level keeps the invariant. -/
theorem everyStepKeepsTheInvariant : Obligations.EveryStepKeepsTheInvariant := by
  intro s t hs ht
  cases hp : s.pending with
  | nil =>
    rw [step_idle s hp] at ht; cases ht
    exact hs
  | cons a rest =>
    rw [step_action s a rest hp] at ht
    exact hostAction_inv (hs.withCmdAndHost s.cmd rest s.responses) ht

end Sys2Proof.Machine
end

section
/-! The table of R72 and the rule of acceptance (20_memory.md R72, R74): which row an address belongs to, which addresses
are reserved, and that an access is accepted exactly when the rule's conditions hold. -/

namespace Sys2Proof.Machine

/-! ## Rows and addresses -/

/-- An address belongs to the row whose bytes hold it, and to no other (R72). -/
theorem regionAt_eq_some_iff {c : Config} (hc : c.wf) (a : Nat) (r : Region) :
    regionAt c a = some r ↔ r ∈ memoryMap c ∧ r.base ≤ a ∧ a < r.base + r.size :=
  ⟨regionAt_some, fun ⟨hr, hlow, hhigh⟩ => regionAt_of_mem hc hr hlow hhigh⟩

/-- The addresses in no row are the ones R72 lists as reserved. -/
theorem regionAt_eq_none_iff {c : Config} (hc : c.wf) (a : Nat) : regionAt c a = none ↔ ReservedByR72 c a := by
  obtain ⟨-, hk, -, -, hm, hm'⟩ := hc
  simp only [regionAt, List.find?_eq_none, holds_iff, memoryMap, List.forall_mem_cons, ReservedByR72]
  simp
  omega

/-- `KEY` is the last row and the only one that reads as zero; every other row ends below it. -/
theorem key_row_or_below {c : Config} (hc : c.wf) {r : Region} (hr : r ∈ memoryMap c) :
    r = ⟨0x20000, c.keyMax, .buf .key, .writeOnly⟩ ∨ (r.base + r.size ≤ 0x20000 ∧ r.access ≠ .writeOnly) := by
  have hm : c.msgMax ≤ 0x10000 := hc.2.2.2.2.2
  have hrows : ∀ r ∈ memoryMap c, r = ⟨0x20000, c.keyMax, .buf .key, .writeOnly⟩ ∨
      (r.base + r.size ≤ 0x20000 ∧ r.access ≠ .writeOnly) := by
    simp [memoryMap]
    omega
  exact hrows r hr

/-- Each row is aligned to its size, or to 8 when it is larger. -/
theorem row_aligned {c : Config} (hc : c.wf) {r : Region} (hr : r ∈ memoryMap c) :
    r.base % min r.size 8 = 0 ∧ (r.size = 4 ∨ r.size % 8 = 0) := by
  obtain ⟨hk8, hk, -, hm8, hm, -⟩ := hc
  have hk' : min c.keyMax 8 = 8 := by omega
  have hm' : min c.msgMax 8 = 8 := by omega
  have hrows : ∀ r ∈ memoryMap c, r.base % min r.size 8 = 0 ∧ (r.size = 4 ∨ r.size % 8 = 0) := by
    simp [memoryMap, hk8, hm8, hk', hm']
  exact hrows r hr

/-! ## Acceptance -/

/-- The model accepts an access exactly when (a) to (e) of R74 hold. -/
theorem accepted_iff {c : Config} (hc : c.wf) (kind : AccessKind) (addr n : Nat) :
    AcceptedByRule c kind addr n ↔ ∃ r, acceptedRegion c kind addr n = some r := by
  constructor
  · rintro ⟨hsize, halign, hspace, ⟨r, hr, hbytes⟩, hcmd⟩
    obtain ⟨hlow, hhigh⟩ := hbytes 0 (by omega)
    obtain ⟨-, hend⟩ := hbytes (n - 1) (by omega)
    refine ⟨r, acceptedRegion_of (regionAt_of_mem hc hr hlow hhigh) (decide_eq_true ⟨hsize, halign, hspace⟩) (by omega)
      (decide_eq_true fun ⟨hkind, hplace⟩ => hcmd hkind ⟨0, by omega, ?_⟩)⟩
    obtain rfl := (memoryMap_bounds hc hr).2.2.1 hplace
    exact hhigh
  · rintro ⟨r, h⟩
    obtain ⟨hat, hshape, hend, hcmd⟩ := acceptedRegion_some h
    obtain ⟨hr, hlow, -⟩ := regionAt_some hat
    obtain ⟨hsize, halign, hspace⟩ := of_decide_eq_true hshape
    refine ⟨hsize, halign, hspace, ⟨r, hr, fun i hi => by omega⟩, fun hkind ⟨i, _, hi⟩ => ?_⟩
    have hrow := (memoryMap_bounds hc hr).2.1 (by omega)
    exact of_decide_eq_true hcmd ⟨hkind, by rw [hrow]⟩

/-- An accepted access covers bytes of one row only. -/
theorem accepted_row {c : Config} {kind : AccessKind} {addr n : Nat} {r : Region}
    (h : acceptedRegion c kind addr n = some r) : r ∈ memoryMap c ∧ r.base ≤ addr ∧ addr + n ≤ r.base + r.size := by
  obtain ⟨hat, -, hend, -⟩ := acceptedRegion_some h
  obtain ⟨hr, hlow, -⟩ := regionAt_some hat
  exact ⟨hr, hlow, hend⟩

/-- In the row of `CMD` only the write of its four bytes is accepted (R74 (e)). -/
theorem accepted_cmd_write {c : Config} (hc : c.wf) {addr : Nat} (h : addr < 4) (n : Nat) :
    (∃ r, acceptedRegion c .write addr n = some r) ↔ addr = 0x00000 ∧ n = 4 := by
  constructor
  · intro hacc
    obtain ⟨hsize, -, -, -, hcmd⟩ := (accepted_iff hc .write addr n).2 hacc
    exact hcmd rfl ⟨0, by omega, h⟩
  · rintro ⟨rfl, rfl⟩
    exact ⟨_, acceptedRegion_cmd c⟩

/-! ## The value read -/

/-- The big-endian value of `n` bytes is the sum of the bytes, each times its power of 256 (R76). -/
theorem beValue_map_range (f : Nat → Byte) (n : Nat) :
    beValue ((List.range n).map f) = ((List.range n).map fun i => (f i).toNat * 256 ^ (n - 1 - i)).sum := by
  induction n generalizing f with
  | zero => rfl
  | succ n ih =>
    rw [List.range_succ_eq_map, List.map_cons, List.map_map, beValue_cons, ih]
    simp [Function.comp_def, Nat.mul_comm, Nat.sub_sub, Nat.add_comm 1]

/-- A write-only row reads as zero (R78). -/
theorem memRead_writeOnly (s : State) {r : Region} (h : r.access = .writeOnly) (addr n : Nat) : s.memRead r addr n = 0 := by
  have hbyte : ∀ i, s.busByte r i = 0x00#8 := fun i => by simp only [State.busByte, h]
  rw [State.memRead, beValue_map_range]
  simp [hbyte]

/-- From `0x20000` on, what is accepted lies in `KEY`. -/
theorem accepted_key_writeOnly {c : Config} (hc : c.wf) {kind : AccessKind} {addr n : Nat} {r : Region}
    (h : acceptedRegion c kind addr n = some r) (ha : 0x20000 ≤ addr) : r.access = .writeOnly := by
  obtain ⟨hr, -, hhigh⟩ := regionAt_some (acceptedRegion_some h).1
  rcases key_row_or_below hc hr with rfl | ⟨hbelow, -⟩
  · rfl
  · omega

/-- Settles O37: the model's map is the table of R72, and its rows do not overlap. -/
theorem everyByteHasAtMostOnePlace : Obligations.EveryByteHasAtMostOnePlace := by
  intro c hc
  refine ⟨fun r hr a => regionAt_of_mem hc hr, regionAt_eq_none_iff hc, fun a r => regionAt_some,
    fun addr n h => accepted_cmd_write hc h n,
    fun s addr n r h ha => memRead_writeOnly s (accepted_key_writeOnly hc h ha) addr n,
    fun r₁ hr₁ r₂ hr₂ a hlow₁ hhigh₁ hlow₂ hhigh₂ => ?_,
    fun r hr => ⟨(memoryMap_bounds hc hr).1, row_aligned hc hr⟩⟩
  have h₁ := regionAt_of_mem hc hr₁ hlow₁ hhigh₁
  have h₂ := regionAt_of_mem hc hr₂ hlow₂ hhigh₂
  exact Option.some.inj (h₁.symm.trans h₂)

end Sys2Proof.Machine
end

section
/-! What one access does (20_memory.md R75 to R78): the rule of a refused access, of a read, of a write outside `CMD` and of
a command write, and from them the answers of the bus and that `KEY` cannot be read. -/

namespace Sys2Proof.Machine

/-! ## A command keeps its word and the host's side -/

/-- No outcome of a command touches `CMD` or the answers given. -/
theorem exec_cmd_responses {i : Instr} {s t : State} (ht : exec i s = .next t) :
    t.cmd = s.cmd ∧ t.responses = s.responses := by
  rcases exec_cases i s with ⟨-, hnop⟩ | ⟨-, -, hrefused⟩ | ⟨-, -, e, -, herror⟩ | ⟨-, -, r, -, hok⟩
  · rw [hnop] at ht; cases ht; exact ⟨rfl, rfl⟩
  · rw [hrefused] at ht; cases ht; exact ⟨rfl, rfl⟩
  · rw [herror] at ht; cases ht; exact ⟨rfl, rfl⟩
  · rw [hok] at ht; cases ht; exact ⟨rfl, rfl⟩

/-- The frame of a word leaves the word in `CMD` and gives no answer of its own. -/
theorem runCommand_cmd_responses {s t : State} (ht : runCommand s = .next t) :
    t.cmd = s.cmd ∧ t.responses = s.responses := by
  by_cases hlegal : ∃ i, decodeWord s.cmd = .ok i
  · obtain ⟨i, hi⟩ := hlegal
    rw [runCommand_ok s i hi] at ht
    exact exec_cmd_responses ht
  · rw [runCommand_illegal s fun i hi => hlegal ⟨i, hi⟩] at ht
    cases ht
    exact ⟨rfl, rfl⟩

/-! ## One access -/

section
variable {s : State} {rest : List HostAction} {addr : Nat}

/-- A refused read is answered with a bus error, and that is all (R75). -/
theorem step_read_refused {n : Nat} (hp : s.pending = .read addr n :: rest)
    (h : acceptedRegion s.params .read addr n = none) :
    step s = .next (s.withHost rest (.busError :: s.responses)) := by
  rw [step_action s _ rest hp]
  simp only [hostAction, hostRead, h]
  rfl

/-- An accepted read is answered with its value, and that is all (R76). -/
theorem step_read_accepted {n : Nat} {r : Region} (hp : s.pending = .read addr n :: rest)
    (h : acceptedRegion s.params .read addr n = some r) :
    step s = .next (s.withHost rest (.data (s.memRead r addr n) :: s.responses)) := by
  rw [step_action s _ rest hp, ← memRead_withHost s rest s.responses]
  simp only [hostAction, hostRead, h]
  rfl

/-- A refused write is answered with a bus error, and that is all (R75). -/
theorem step_write_refused {data : List Byte} (hp : s.pending = .write addr data :: rest)
    (h : acceptedRegion s.params .write addr data.length = none) :
    step s = .next (s.withHost rest (.busError :: s.responses)) := by
  rw [step_action s _ rest hp]
  simp only [hostAction, hostWrite, h]
  rfl

/-- An accepted write outside `CMD` is `MemWrite` and its answer (R77). -/
theorem step_write_accepted {data : List Byte} {r : Region} (hp : s.pending = .write addr data :: rest)
    (h : acceptedRegion s.params .write addr data.length = some r) (hr : r.place ≠ .reg .cmd) :
    step s = .next ((s.memWrite r addr data).withHost rest (.written :: s.responses)) := by
  rw [step_action s _ rest hp]
  simp only [hostAction, hostWrite, h, hr, if_false]
  rw [show ({ s with pending := rest } : State) = s.withHost rest s.responses from rfl, memWrite_withHost]
  rfl

/-- A write to `CMD` stores the word and runs its frame (R77, R130). -/
theorem step_cmd_write {w : Word} (hp : NextIsCommand s w rest) : step s = runCommand (withCommand s w rest) := by
  rw [step_action s _ rest hp]
  exact hostWrite_cmd w { s with pending := rest }

end

/-- After a write to `CMD` the word stands there and the write has been answered. -/
theorem step_cmd_write_answers {s : State} {w : Word} {rest : List HostAction} (hp : NextIsCommand s w rest) :
    ∃ t, step s = .next t ∧ t.cmd = w ∧ t.responses = .written :: s.responses := by
  obtain ⟨t, ht⟩ := step_answers_next s
  exact ⟨t, ht, runCommand_cmd_responses ((step_cmd_write hp).symm.trans ht)⟩

/-- Every accepted write is answered, a command write too. -/
theorem step_write_answers {s : State} {rest : List HostAction} {addr : Nat} {data : List Byte} {r : Region}
    (hp : s.pending = .write addr data :: rest) (h : acceptedRegion s.params .write addr data.length = some r) :
    ∃ t, step s = .next t ∧ t.responses = .written :: s.responses := by
  by_cases hr : r.place = .reg .cmd
  · obtain ⟨rfl, hlen⟩ := of_decide_eq_true (acceptedRegion_some h).2.2.2 ⟨rfl, hr⟩
    obtain ⟨w, rfl⟩ := four_bytes data hlen
    obtain ⟨t, ht, -, hanswer⟩ := step_cmd_write_answers hp
    exact ⟨t, ht, hanswer⟩
  · exact ⟨_, step_write_accepted hp h hr, rfl⟩

/-! ## Refusals -/

/-- The model refuses an access when one of (a) to (e) of R74 fails. -/
theorem refused_of_not_accepted {c : Config} (hc : c.wf) {kind : AccessKind} {addr n : Nat}
    (h : ¬ AcceptedByRule c kind addr n) : acceptedRegion c kind addr n = none :=
  Option.eq_none_iff_forall_ne_some.2 fun r hr => h ((accepted_iff hc kind addr n).2 ⟨r, hr⟩)

/-- Settles O38: the rules of the four kinds of access, by whether R74 accepts it. -/
theorem refusedAccessesChangeNothing : Obligations.RefusedAccessesChangeNothing := by
  constructor
  · rintro s t p ht hrefused ⟨u, hu, hgood, -⟩
    obtain rfl : t = u := Host.Outcome.next.inj (ht.symm.trans hu)
    exact hgood hrefused
  · refine fun s rest hc => ⟨fun addr n hp => ⟨fun h => ?_, fun h => ?_⟩,
      fun addr data hp => ⟨fun h => ?_, fun h => ?_⟩⟩
    · exact step_read_refused hp (refused_of_not_accepted hc h)
    · obtain ⟨r, hr⟩ := (accepted_iff hc _ _ _).1 h
      exact ⟨_, _, step_read_accepted hp hr, rfl⟩
    · exact step_write_refused hp (refused_of_not_accepted hc h)
    · obtain ⟨r, hr⟩ := (accepted_iff hc _ _ _).1 h
      exact step_write_answers hp hr

/-! ## `KEY` -/

/-- The contents of `KEY` stand in a write-only row, so a read shows the same whatever they are. -/
theorem memRead_withKey (s : State) (k : Memory) {c : Config} {r : Region} (hr : r ∈ memoryMap c) (addr n : Nat) :
    ({ s with key := k } : State).memRead r addr n = s.memRead r addr n := by
  have hkey : ∀ r ∈ memoryMap c, r.place = .buf .key → r.access = .writeOnly := by simp [memoryMap]
  by_cases hw : r.access = .writeOnly
  · rw [memRead_writeOnly _ hw, memRead_writeOnly _ hw]
  · have hregion : ∀ i, ({ s with key := k } : State).regionByte r i = s.regionByte r i := fun i => by
      cases hplace : r.place with
      | reg g => simp only [State.regionByte, hplace]; cases g <;> rfl
      | buf b =>
        have hb : b ≠ .key := fun hb => hw (hkey r hr (hb ▸ hplace))
        simp only [State.regionByte, hplace]
        cases b <;> first | rfl | exact absurd rfl hb
    simp only [State.memRead, State.busByte, hregion]

/-- Settles O40: `KEY` reads as zero, and a read with other contents of `KEY` has the same answer. -/
theorem keyCannotBeReadBack : Obligations.KeyCannotBeReadBack := by
  refine ⟨fun s rest addr n hc hp h ha => ?_, fun s t u k rest addr n hp ht hu => ?_⟩
  · obtain ⟨r, hr⟩ := (accepted_iff hc _ _ _).1 h
    rw [step_read_accepted hp hr, memRead_writeOnly s (accepted_key_writeOnly hc hr ha)]
    rfl
  · have hp' : ({ s with key := k } : State).pending = .read addr n :: rest := hp
    cases hr : acceptedRegion s.params .read addr n with
    | none =>
      rw [step_read_refused hp hr] at ht
      rw [step_read_refused hp' hr] at hu
      cases ht; cases hu
      rfl
    | some r =>
      rw [step_read_accepted hp hr] at ht
      rw [step_read_accepted hp' hr, memRead_withKey s k (accepted_row hr).1] at hu
      cases ht; cases hu
      rfl

end Sys2Proof.Machine
end

section
/-! What each address of the space holds and a read of it shows (20_memory.md R71, R76): registers most significant byte
first, buffers in index order, and the value of an accepted read. -/

namespace Sys2Proof.Machine

theorem byte_ofNat_mod (x : Nat) : BitVec.ofNat 8 (x % 256) = BitVec.ofNat 8 x := BitVec.eq_of_toNat_eq (by simp)

/-! ## Contents of an address -/

section
variable {s : State}

theorem regionByte_reg {r : Region} {g : Reg} (h : r.place = .reg g) (i : Nat) :
    s.regionByte r i = (beBytes r.size (s.regValue g)).getD i 0 := by
  simp only [State.regionByte, h]

theorem regionByte_buf {r : Region} {b : Buf} (h : r.place = .buf b) (i : Nat) :
    s.regionByte r i = (s.buffer b).read i := by
  simp only [State.regionByte, h]

/-- An address of a row holds that row's byte. -/
theorem contentAt_row (hc : s.params.wf) {r : Region} (hr : r ∈ memoryMap s.params) {a : Nat} (hlow : r.base ≤ a)
    (hhigh : a < r.base + r.size) : s.contentAt a = some (s.regionByte r (a - r.base)) := by
  rw [State.contentAt, regionAt_of_mem hc hr hlow hhigh]
  rfl

/-- Reserved addresses, and only they, hold nothing (R72). -/
theorem contentAt_eq_none_iff (hc : s.params.wf) (a : Nat) : s.contentAt a = none ↔ ReservedByR72 s.params a := by
  rw [State.contentAt, Option.map_eq_none_iff, regionAt_eq_none_iff hc]

/-- A register keeps its most significant byte at its address (R71). -/
theorem contentAt_reg (hc : s.params.wf) {r : Region} (hr : r ∈ memoryMap s.params) {g : Reg} (hg : r.place = .reg g)
    {i : Nat} (hi : i < r.size) :
    s.contentAt (r.base + i) = some (BitVec.ofNat 8 (s.regValue g / 256 ^ (r.size - 1 - i) % 256)) := by
  rw [contentAt_row hc hr (by omega) (by omega), regionByte_reg hg, Nat.add_sub_cancel_left, beBytes_getD _ _ _ hi,
    byte_ofNat_mod]

/-- A buffer keeps its byte `i` at base + `i` (R71). -/
theorem contentAt_buf (hc : s.params.wf) {r : Region} (hr : r ∈ memoryMap s.params) {b : Buf} (hb : r.place = .buf b)
    {i : Nat} (hi : i < r.size) : s.contentAt (r.base + i) = some ((s.buffer b).read i) := by
  rw [contentAt_row hc hr (by omega) (by omega), regionByte_buf hb, Nat.add_sub_cancel_left]

/-- The register of a row stands at the row's address. -/
theorem registerAt_of_row (hc : s.params.wf) (g : Reg) {base size : Nat}
    (hr : ∃ access, ⟨base, size, .reg g, access⟩ ∈ memoryMap s.params := by simp [memoryMap]) :
    RegisterAt s base size (s.regValue g) := by
  obtain ⟨_, hr⟩ := hr
  exact fun _ hi => contentAt_reg hc hr rfl hi

/-- The buffer of a row stands at the row's address. -/
theorem bufferAt_of_row (hc : s.params.wf) (b : Buf) {base size : Nat}
    (hr : ∃ access, ⟨base, size, .buf b, access⟩ ∈ memoryMap s.params := by simp [memoryMap]) :
    BufferAt s base size (s.buffer b) := by
  obtain ⟨_, hr⟩ := hr
  exact fun _ hi => contentAt_buf hc hr rfl hi

/-- The bytes of a register, in address order, are its big-endian bytes. -/
theorem RegisterAt.map_range {a n v : Nat} (h : RegisterAt s a n v) :
    (List.range n).map (fun i => s.contentAt (a + i)) = (beBytes n v).map some := by
  rw [beBytes, List.map_map]
  exact List.map_congr_left fun i hi => (h i (List.mem_range.1 hi)).trans (congrArg some (byte_ofNat_mod _))

end

/-- Settles O43: each named register and buffer is a row of the map. -/
theorem registerSpaceIsBigEndian : Obligations.RegisterSpaceIsBigEndian := by
  intro s hc
  refine ⟨fun r hr i hi => ⟨fun g hg => contentAt_reg hc hr hg hi, fun b hb => contentAt_buf hc hr hb hi⟩,
    ?_, ?_, ?_, ?_, contentAt_eq_none_iff hc, (registerAt_of_row hc .ctr).map_range⟩
  · exact ⟨registerAt_of_row hc .cmd, registerAt_of_row hc .status, registerAt_of_row hc .rc,
           registerAt_of_row hc .version⟩
  · exact ⟨registerAt_of_row hc .ctr, registerAt_of_row hc .now, registerAt_of_row hc .start,
           registerAt_of_row hc .step, registerAt_of_row hc .window, registerAt_of_row hc .trunc,
           registerAt_of_row hc .keyLen, registerAt_of_row hc .msgLen, registerAt_of_row hc .subLen⟩
  · exact ⟨registerAt_of_row hc .pos, registerAt_of_row hc .matchCtr, registerAt_of_row hc .tctr,
           registerAt_of_row hc .binCode, registerAt_of_row hc .otpVal, registerAt_of_row hc .offset,
           registerAt_of_row hc .otpLen, registerAt_of_row hc .tagLen⟩
  · exact ⟨bufferAt_of_row hc .otp, bufferAt_of_row hc .sub, bufferAt_of_row hc .tag,
           bufferAt_of_row hc .msg, bufferAt_of_row hc .key⟩

/-! ## The value of a read -/

/-- What the bus shows of a byte of a row is what R76 and R78 say of its address. -/
theorem busByte_eq_shownAt {s : State} (hc : s.params.wf) {r : Region} (hr : r ∈ memoryMap s.params) {a : Nat}
    (hlow : r.base ≤ a) (hhigh : a < r.base + r.size) : s.busByte r (a - r.base) = shownAt s a := by
  rcases key_row_or_below hc hr with rfl | ⟨hbelow, hread⟩
  · rw [shownAt, if_pos hlow]
    rfl
  · rw [shownAt, if_neg (by omega), contentAt_row hc hr hlow hhigh, Option.getD_some]
    cases ha : r.access with
    | writeOnly => exact absurd ha hread
    | readWrite => simp only [State.busByte, ha]
    | readOnly => simp only [State.busByte, ha]

/-- An accepted read returns the sum of the bytes shown, each times its power of 256 (R76). -/
theorem memRead_eq_sum {s : State} (hc : s.params.wf) {kind : AccessKind} {addr n : Nat} {r : Region}
    (h : acceptedRegion s.params kind addr n = some r) :
    s.memRead r addr n = ((List.range n).map fun i => (shownAt s (addr + i)).toNat * 256 ^ (n - 1 - i)).sum := by
  obtain ⟨hr, hlow, hend⟩ := accepted_row h
  rw [State.memRead, beValue_map_range]
  refine congrArg List.sum (List.map_congr_left fun i hi => ?_)
  have hi : i < n := List.mem_range.1 hi
  rw [← busByte_eq_shownAt hc hr (by omega : r.base ≤ addr + i) (by omega), Nat.sub_add_comm hlow]

/-- Settles O39: the answer of an accepted read, byte by byte. -/
theorem readReturnsTheBigEndianValue : Obligations.ReadReturnsTheBigEndianValue := by
  intro s rest addr n hc hp h
  obtain ⟨r, hr⟩ := (accepted_iff hc _ _ _).1 h
  rw [step_read_accepted hp hr, memRead_eq_sum hc hr]
  rfl

end Sys2Proof.Machine
end

section
/-! What a write does to each address of the space (20_memory.md R77): exactly the bytes covered that the host can write
change, and what was written is what the next read returns. -/

namespace Sys2Proof.Machine

/-! ## Registers and buffers are apart -/

section
variable (s : State)

/-- A write to one register leaves every other one. -/
theorem regValue_setReg_other {g g' : Reg} (h : g' ≠ g) (v : Nat) : (s.setReg g v).regValue g' = s.regValue g' := by
  cases g <;> cases g' <;> first | rfl | exact absurd rfl h

theorem regValue_setBuffer (b : Buf) (m : Memory) (g : Reg) : (s.setBuffer b m).regValue g = s.regValue g := by
  cases b <;> rfl

theorem buffer_setReg (g : Reg) (v : Nat) (b : Buf) : (s.setReg g v).buffer b = s.buffer b := by
  cases g <;> rfl

/-- A write to one buffer leaves every other one. -/
theorem buffer_setBuffer_other {b b' : Buf} (h : b' ≠ b) (m : Memory) : (s.setBuffer b m).buffer b' = s.buffer b' := by
  cases b <;> cases b' <;> first | rfl | exact absurd rfl h

/-- A register the host can write takes every value that fits its row. -/
theorem regValue_setReg {c : Config} {r : Region} (hr : r ∈ memoryMap c) {g : Reg} (hg : r.place = .reg g)
    (hw : r.access ≠ .readOnly) {v : Nat} (hv : v < 256 ^ r.size) : (s.setReg g v).regValue g = v := by
  have hrows : ∀ r ∈ memoryMap c, ∀ g, r.place = .reg g → r.access ≠ .readOnly → v < 256 ^ r.size →
      (s.setReg g v).regValue g = v := by
    simp [memoryMap, State.setReg, State.regValue]
  exact hrows r hr g hg hw hv

/-- A buffer the host can write takes every content. -/
theorem buffer_setBuffer {c : Config} {r : Region} (hr : r ∈ memoryMap c) {b : Buf} (hb : r.place = .buf b)
    (hw : r.access ≠ .readOnly) (m : Memory) : (s.setBuffer b m).buffer b = m := by
  have hrows : ∀ r ∈ memoryMap c, ∀ b, r.place = .buf b → r.access ≠ .readOnly → (s.setBuffer b m).buffer b = m := by
    simp [memoryMap, State.setBuffer, State.buffer]
  exact hrows r hr b hb hw

/-- Each register and buffer has one row. -/
theorem row_of_place {c : Config} {r r' : Region} (hr : r ∈ memoryMap c) (hr' : r' ∈ memoryMap c)
    (h : r.place = r'.place) : r = r' := by
  have hplaces : ((memoryMap c).map (·.place)).Nodup := by simp [memoryMap]
  exact List.inj_on_of_nodup_map hplaces hr hr' h

end

/-! ## Bytes of a row after a store -/

section
variable {s : State} {r : Region} {k : Nat} {data : List Byte}

/-- Every buffer of a state of the block is in canonical form. -/
theorem State.Inv.buffer_wf (hs : s.Inv) (b : Buf) : (s.buffer b).wf := by
  cases b with
  | otp => exact hs.results.otpWf
  | sub => exact hs.subWf
  | tag => exact hs.results.tagWf
  | msg => exact hs.msgWf
  | key => exact hs.keyWf

/-- In the row stored to, exactly the bytes covered are replaced. -/
theorem regionByte_storeRegion (hs : s.Inv) (hr : r ∈ memoryMap s.params) (hw : r.access ≠ .readOnly)
    (hk : k + data.length ≤ r.size) (i : Nat) :
    (s.storeRegion r k data).regionByte r i =
      if k ≤ i ∧ i < k + data.length then data.getD (i - k) 0 else s.regionByte r i := by
  cases hplace : r.place with
  | reg g =>
    have hlen : k + data.length ≤ (beBytes r.size (s.regValue g)).length := by rwa [beBytes_length]
    have hsize : (splice k data (beBytes r.size (s.regValue g))).length = r.size := by
      rw [splice_length k data _ hlen, beBytes_length]
    have hfits := beValue_lt (splice k data (beBytes r.size (s.regValue g)))
    have hback := beBytes_beValue (splice k data (beBytes r.size (s.regValue g)))
    rw [hsize] at hfits hback
    have hstore : s.storeRegion r k data = s.setReg g (beValue (splice k data (beBytes r.size (s.regValue g)))) := by
      simp only [State.storeRegion, hplace]
    rw [regionByte_reg hplace, regionByte_reg hplace, hstore, regValue_setReg s hr hplace hw hfits, hback,
      splice_getD k data _ hlen]
  | buf b =>
    have hstore : s.storeRegion r k data = s.setBuffer b ((s.buffer b).store k data) := by
      simp only [State.storeRegion, hplace]
    rw [regionByte_buf hplace, regionByte_buf hplace, hstore, buffer_setBuffer s hr hplace hw,
      Memory.read_store _ _ _ _ (hs.buffer_wf b)]
    rfl

/-- The bytes of every other row stay. -/
theorem regionByte_storeRegion_other {r' : Region} (h : r'.place ≠ r.place) (i : Nat) :
    (s.storeRegion r k data).regionByte r' i = s.regionByte r' i := by
  cases hplace : r.place with
  | reg g =>
    simp only [State.storeRegion, hplace]
    cases hplace' : r'.place with
    | reg g' =>
      have hg : g' ≠ g := fun hg => h (by rw [hplace, hplace', hg])
      rw [regionByte_reg hplace', regionByte_reg hplace', regValue_setReg_other s hg]
    | buf b' => rw [regionByte_buf hplace', regionByte_buf hplace', buffer_setReg]
  | buf b =>
    simp only [State.storeRegion, hplace]
    cases hplace' : r'.place with
    | reg g' => rw [regionByte_reg hplace', regionByte_reg hplace', regValue_setBuffer]
    | buf b' =>
      have hb : b' ≠ b := fun hb => h (by rw [hplace, hplace', hb])
      rw [regionByte_buf hplace', regionByte_buf hplace', buffer_setBuffer_other s hb]

/-! ## Contents of the space after a write -/

theorem memWrite_readOnly (h : r.access = .readOnly) (addr : Nat) : s.memWrite r addr data = s := by
  simp only [State.memWrite, h]

theorem memWrite_writable (h : r.access ≠ .readOnly) (addr : Nat) :
    s.memWrite r addr data = s.storeRegion r (addr - r.base) data := by
  cases ha : r.access with
  | readOnly => exact absurd ha h
  | readWrite => simp only [State.memWrite, ha]
  | writeOnly => simp only [State.memWrite, ha]

/-- In a row the bytes of the addresses covered are replaced, if the host can write the row. -/
theorem regionByte_memWrite (hs : s.Inv) (hr : r ∈ memoryMap s.params) {addr : Nat} (hlow : r.base ≤ addr)
    (hend : addr + data.length ≤ r.base + r.size) {a : Nat} (ha : r.base ≤ a) :
    (s.memWrite r addr data).regionByte r (a - r.base) =
      if (addr ≤ a ∧ a < addr + data.length) ∧ r.access ≠ .readOnly then data.getD (a - addr) 0
      else s.regionByte r (a - r.base) := by
  by_cases hw : r.access = .readOnly
  · rw [memWrite_readOnly hw, if_neg fun h => h.2 hw]
  · rw [memWrite_writable hw, regionByte_storeRegion hs hr hw (by omega)]
    by_cases hcov : addr ≤ a ∧ a < addr + data.length
    · rw [if_pos (by omega), if_pos ⟨hcov, hw⟩, show a - r.base - (addr - r.base) = a - addr by omega]
    · rw [if_neg (by omega), if_neg fun h => hcov h.1]

/-- The space after an accepted write outside `CMD`: the bytes covered that the host can write hold the data, every other
address what it held (R77). -/
theorem contentAt_memWrite (hs : s.Inv) {addr : Nat} (h : acceptedRegion s.params .write addr data.length = some r)
    (hcmd : r.place ≠ .reg .cmd) (a : Nat) :
    (s.memWrite r addr data).contentAt a =
      if (addr ≤ a ∧ a < addr + data.length) ∧ r.access ≠ .readOnly then some (data.getD (a - addr) 0)
      else s.contentAt a := by
  obtain ⟨hr, hlow, hend⟩ := accepted_row h
  have hparams := (memWrite_same s r addr data hcmd).params
  by_cases hin : r.base ≤ a ∧ a < r.base + r.size
  · obtain ⟨ha, ha'⟩ := hin
    rw [contentAt_row (hparams ▸ hs.params) (hparams ▸ hr) ha ha', contentAt_row hs.params hr ha ha',
      regionByte_memWrite hs hr hlow hend ha, apply_ite some]
  · rw [if_neg (by omega)]
    have hbyte : ∀ r', regionAt s.params a = some r' → (s.memWrite r addr data).regionByte r' (a - r'.base) =
        s.regionByte r' (a - r'.base) := fun r' hr' => by
      obtain ⟨hmem, hbase⟩ := regionAt_some hr'
      have hplace : r'.place ≠ r.place := fun hp => hin (row_of_place hmem hr hp ▸ hbase)
      by_cases hw : r.access = .readOnly
      · rw [memWrite_readOnly hw]
      · rw [memWrite_writable hw, regionByte_storeRegion_other hplace]
    rw [State.contentAt, State.contentAt, hparams]
    exact Option.map_congr hbyte

end

/-! ## The step of a write -/

/-- Rows `CMD` aside start at `0x00004` (R72). -/
theorem accepted_not_cmd {c : Config} (hc : c.wf) {kind : AccessKind} {addr n : Nat} {r : Region}
    (h : acceptedRegion c kind addr n = some r) (ha : 4 ≤ addr) : r.place ≠ .reg .cmd := fun hplace => by
  obtain ⟨hr, -, hhigh⟩ := regionAt_some (acceptedRegion_some h).1
  obtain rfl := (memoryMap_bounds hc hr).2.2.1 hplace
  exact absurd hhigh (Nat.not_lt.2 ha)

/-- A byte an access covers can be written by the host exactly when the row the access lies in can. -/
theorem writableAt_iff {c : Config} (hc : c.wf) {kind : AccessKind} {addr n : Nat} {r : Region}
    (h : acceptedRegion c kind addr n = some r) {a : Nat} (hlow : addr ≤ a) (hhigh : a < addr + n) :
    WritableAt c a ↔ r.access ≠ .readOnly := by
  obtain ⟨hr, hbase, hend⟩ := accepted_row h
  have hat := regionAt_of_mem hc hr (hbase.trans hlow) (by omega)
  constructor
  · rintro ⟨r', hr', hw⟩
    obtain rfl : r = r' := Option.some.inj (hat.symm.trans hr')
    exact hw
  · exact fun hw => ⟨r, hat, hw⟩

/-- The step of an accepted write outside `CMD`, address by address (R77). -/
theorem step_write_contents {s : State} (hs : s.Inv) {rest : List HostAction} {addr n v : Nat}
    (hp : s.pending = .write addr (beBytes n v) :: rest) (h : AcceptedByRule s.params .write addr n) (ha : 4 ≤ addr) :
    ∃ t, step s = .next t ∧ SameButInputs (s.withHost rest (.written :: s.responses)) t ∧
      (∀ a, addr ≤ a → a < addr + n → WritableAt s.params a →
        t.contentAt a = some (BitVec.ofNat 8 (v / 256 ^ (n - 1 - (a - addr)) % 256))) ∧
      (∀ a, a < addr ∨ addr + n ≤ a ∨ ¬ WritableAt s.params a → t.contentAt a = s.contentAt a) := by
  obtain ⟨r, hr⟩ := (accepted_iff hs.params .write addr n).1 h
  have hcmd := accepted_not_cmd hs.params hr ha
  have hlen : (beBytes n v).length = n := beBytes_length n v
  have hr' : acceptedRegion s.params .write addr (beBytes n v).length = some r := hlen.symm ▸ hr
  refine ⟨_, step_write_accepted hp hr' hcmd, ?_, fun a hlow hhigh hw => ?_, fun a hother => ?_⟩
  · rw [← memWrite_withHost]
    exact memWrite_same _ r addr _ hcmd
  · show (s.memWrite r addr (beBytes n v)).contentAt a = _
    rw [contentAt_memWrite hs hr' hcmd, hlen, if_pos ⟨⟨hlow, hhigh⟩, (writableAt_iff hs.params hr hlow hhigh).1 hw⟩,
      beBytes_getD n v _ (by omega), byte_ofNat_mod]
  · show (s.memWrite r addr (beBytes n v)).contentAt a = _
    rw [contentAt_memWrite hs hr' hcmd, hlen, if_neg]
    rintro ⟨⟨hlow, hhigh⟩, hw⟩
    have hwritable := (writableAt_iff hs.params hr hlow hhigh).2 hw
    rcases hother with hbelow | habove | hnot
    · omega
    · omega
    · exact hnot hwritable

/-! ## The example of R77 -/

/-- Eight bits replaced below a multiple of 256 are an `and` and an `or`. -/
theorem low_byte_replaced (x : DWord) (t : Nat) (b d : Byte) (hx : x.toNat = 2 ^ 8 * t + d.toNat) :
    BitVec.ofNat 64 (2 ^ 8 * t + b.toNat) = (x &&& 0xFFFFFFFFFFFFFF00#64) ||| b.setWidth 64 := by
  have hmask : ∀ i < 64, (0xFFFFFFFFFFFFFF00#64).getLsbD i = decide (8 ≤ i) := by decide
  refine BitVec.eq_of_getLsbD_eq fun i hi => ?_
  have hxi : x.getLsbD i = (2 ^ 8 * t + d.toNat).testBit i := by rw [← hx]; rfl
  rw [BitVec.getLsbD_or, BitVec.getLsbD_and, hmask i hi, hxi, BitVec.getLsbD_ofNat, BitVec.getLsbD_setWidth,
    Nat.testBit_two_pow_mul_add t b.isLt, Nat.testBit_two_pow_mul_add t d.isLt]
  by_cases h8 : i < 8
  · simp [h8, hi, Nat.not_le.2 h8, BitVec.testBit_toNat]
  · simp [h8, hi, Nat.not_lt.1 h8]

/-- The last of eight bytes replaced: the other bits stay. -/
theorem splice_last_byte (x : DWord) (b : Byte) :
    BitVec.ofNat 64 (beValue (splice 7 [b] (beBytes 8 x.toNat))) = (x &&& 0xFFFFFFFFFFFFFF00#64) ||| b.setWidth 64 := by
  obtain ⟨d, hd⟩ : ∃ d, (beBytes 8 x.toNat).drop 7 = [d] := List.length_eq_one_iff.1 (by simp)
  have hvalue : ∀ c : Byte, beValue ((beBytes 8 x.toNat).take 7 ++ [c]) =
      2 ^ 8 * beValue ((beBytes 8 x.toNat).take 7) + c.toNat :=
    fun c => by simp [beValue_append, beValue_cons]
  have hx : x.toNat = beValue ((beBytes 8 x.toNat).take 7 ++ [d]) := by
    rw [← hd, List.take_append_drop, beValue_beBytes, Nat.mod_eq_of_lt (by simpa using x.isLt)]
  rw [splice, List.drop_eq_nil_of_le (by simp), List.append_nil, hvalue]
  exact low_byte_replaced x _ b d (hx.trans (hvalue d))

/-- A one-byte write to the last byte of `CTR` is accepted whether the parameters are legal or not. -/
theorem acceptedRegion_ctr_last (c : Config) :
    acceptedRegion c .write 0x00017 1 = some ⟨0x00010, 8, .reg .ctr, .readWrite⟩ := by
  simp [acceptedRegion, shapeOk, regionAt, memoryMap, Region.holds, cmdWriteOk]

theorem step_write_ctr_last {s : State} {rest : List HostAction} {b : Byte} (hp : s.pending = .write 0x00017 [b] :: rest) :
    step s = .next
      { s with
        pending := rest
        responses := .written :: s.responses
        ops := { s.ops with ctr := (s.ops.ctr &&& 0xFFFFFFFFFFFFFF00#64) ||| b.setWidth 64 } } := by
  rw [step_write_accepted hp (acceptedRegion_ctr_last s.params) (by simp), ← splice_last_byte]
  rfl

/-- The bytes of `v` are those of the word that holds `v`. -/
theorem beBytes_word (v : Nat) : beBytes 4 v = beBytes 4 (BitVec.ofNat 32 v).toNat := by
  have h := beBytes_beValue (beBytes 4 v)
  rwa [beBytes_length, beValue_beBytes, eq_comm] at h

/-- Settles O41: the contents after a write, the example on `CTR`, and the command write. -/
theorem writeReplacesExactlyTheBytesCovered : Obligations.WriteReplacesExactlyTheBytesCovered := by
  refine ⟨fun s rest addr n v hs hp h ha => ?_, fun s rest hp => step_write_ctr_last hp, fun s rest v hp => ?_⟩
  · obtain ⟨t, ht, hsame, hcovered, hother⟩ := step_write_contents hs hp h ha
    exact ⟨t, ht, hsame.pending, hsame.responses, hsame.params, hsame.cmd, hsame.status,
      hsame.rc, hsame.res, hcovered, hother⟩
  · rw [beBytes_word] at hp
    exact ⟨step_cmd_write hp, step_cmd_write_answers hp⟩

/-! ## Read after write -/

/-- The sum of the bytes of a number, each times its power of 256, is the number. -/
theorem sum_bytes_eq {n v : Nat} (hv : v < 256 ^ n) :
    ((List.range n).map fun i => (BitVec.ofNat 8 (v / 256 ^ (n - 1 - i) % 256)).toNat * 256 ^ (n - 1 - i)).sum = v := by
  simp only [byte_ofNat_mod]
  rw [← beValue_map_range fun i => BitVec.ofNat 8 (v / 256 ^ (n - 1 - i))]
  exact (beValue_beBytes n v).trans (Nat.mod_eq_of_lt hv)

/-- What is accepted below `0x20000` ends below it. -/
theorem accepted_below_key {c : Config} (hc : c.wf) {kind : AccessKind} {addr n : Nat} {r : Region}
    (h : acceptedRegion c kind addr n = some r) (ha : addr < 0x20000) : addr + n ≤ 0x20000 := by
  obtain ⟨hr, hlow, hend⟩ := accepted_row h
  rcases key_row_or_below hc hr with rfl | ⟨hbelow, -⟩
  · exact absurd ha (Nat.not_lt.2 hlow)
  · omega

/-- Settles O42: the bytes the read covers are those the write has replaced. -/
theorem writtenValueReadsBack : Obligations.WrittenValueReadsBack := by
  intro s rest addr n v hs hv hp h ha hkey hw
  obtain ⟨t, ht, hsame, hcovered, -⟩ := step_write_contents hs hp h ha
  obtain ⟨r, hr⟩ := (accepted_iff hs.params .write addr n).1 h
  obtain ⟨hsize, halign, hspace, hrow, -⟩ := h
  have hread : AcceptedByRule t.params .read addr n :=
    ⟨hsize, halign, hspace, hsame.params ▸ hrow, fun hkind => by cases hkind⟩
  have hw := (writableAt_iff hs.params hr le_rfl (by omega)).1 hw
  have hbytes : ∀ i < n, shownAt t (addr + i) = BitVec.ofNat 8 (v / 256 ^ (n - 1 - i) % 256) := fun i hi => by
    have hbelow := accepted_below_key hs.params hr hkey
    have hwritable := (writableAt_iff hs.params hr (Nat.le_add_right addr i) (by omega)).2 hw
    rw [shownAt, if_neg (by omega), hcovered _ (by omega) (by omega) hwritable, Nat.add_sub_cancel_left]
    rfl
  refine ⟨t, _, ht, readReturnsTheBigEndianValue t rest addr n (hsame.params ▸ hs.params) hsame.pending hread, ?_⟩
  have hsum : ((List.range n).map fun i => (shownAt t (addr + i)).toNat * 256 ^ (n - 1 - i)).sum = v := by
    rw [List.map_congr_left fun i hi => by rw [hbytes i (List.mem_range.1 hi)], sum_bytes_eq hv]
  rw [hsum, hsame.responses]
  rfl

end Sys2Proof.Machine
end

section
/-! Runs (20_memory.md R80; 70_reset_and_hazards.md R322): the accesses of a program take effect one after the other,
whatever stands behind them and whatever was answered before. -/

namespace Sys2Proof.Machine

/-! ## Steps of a run -/

/-- A run of `k + 1` steps is a step and a run of `k`. -/
theorem run_succ {s t : State} (h : step s = .next t) (k : Nat) : core.run (k + 1) s = core.run k t := by
  simp only [Host.Core.run, show core.step s = .next t from h]

/-- A run of `j + k` steps goes on with `k` steps from where `j` steps end. -/
theorem run_add {j : Nat} {s t : State} (h : core.run j s = .next t) (k : Nat) : core.run (j + k) s = core.run k t := by
  induction j generalizing s with
  | zero =>
    cases h
    rw [Nat.zero_add]
  | succ j ih =>
    obtain ⟨s', hs'⟩ := step_answers_next s
    rw [Nat.add_right_comm, run_succ hs']
    exact ih ((run_succ hs' j).symm.trans h)

/-- With an action pending the step is that action, on the state beside it. -/
theorem step_withHost (s : State) (a : HostAction) (p : HostProgram) (l : List BusResponse) :
    step (s.withHost (a :: p) l) = hostAction a (s.withHost p l) :=
  step_action _ a p rfl

/-- The run of a program: where it ends and what it answers, a single answer to each access but resets, depend neither on
the accesses behind it nor on the answers before it. -/
theorem run_program (p : HostProgram) (s : State) :
    ∃ (t : State) (answers : List BusResponse), answers.length = (p.filter (· ≠ .reset)).length ∧
      ∀ q l, core.run p.length (s.withHost (p ++ q) l) = .next (t.withHost q (answers ++ l)) := by
  induction p generalizing s with
  | nil => exact ⟨s, [], rfl, fun _ _ => rfl⟩
  | cons a p ih =>
    obtain ⟨s', first, hreset, haccess, hstep⟩ := hostAction_withHost a s
    obtain ⟨t, answers, hlen, hrun⟩ := ih s'
    refine ⟨t, answers ++ first, ?_, fun q l => ?_⟩
    · by_cases ha : a = .reset
      · simp [ha, hreset ha, hlen]
      · simp [ha, haccess ha, hlen]
    · rw [List.append_assoc, ← hrun q (first ++ l)]
      exact run_succ ((step_withHost s a (p ++ q) l).trans (hstep (p ++ q) l)) p.length

/-- `runProgram` is such a run, with nothing behind it and nothing answered before. -/
theorem runProgram_eq (s : State) (p : HostProgram) : runProgram s p = core.run p.length (s.withHost (p ++ []) []) := by
  rw [List.append_nil]
  rfl

/-! ## One step, and two runs in a row -/

/-- A step takes the oldest access alone and answers it, unless it is a reset. -/
theorem step_takes_oldest {s t : State} {a : HostAction} {rest : List HostAction} (hp : s.pending = a :: rest)
    (ht : step s = .next t) :
    t.pending = rest ∧ (a = .reset → t.responses = s.responses) ∧ (a ≠ .reset → ∃ r, t.responses = r :: s.responses) ∧
    ∀ other, step { s with pending := a :: other } = .next { t with pending := other } := by
  obtain ⟨t', answer, hreset, haccess, haction⟩ := hostAction_withHost a s
  have ht' := (step_action s a rest hp).symm.trans ht
  obtain rfl : t'.withHost rest (answer ++ s.responses) = t :=
    Host.Outcome.next.inj ((haction rest s.responses).symm.trans ht')
  refine ⟨rfl, fun ha => ?_, fun ha => ?_, fun other => ?_⟩
  · rw [hreset ha]
    rfl
  · obtain ⟨r, hr⟩ := List.length_eq_one_iff.1 (haccess ha)
    exact ⟨r, by rw [hr]; rfl⟩
  · exact (step_withHost s a other s.responses).trans (haction other s.responses)

/-- The run of `p ++ q` is the run of `q` from the end of `p`. -/
theorem runProgram_append {s t u : State} {p q : HostProgram} (ht : runProgram s p = .next t)
    (hu : runProgram t q = .next u) : runProgram s (p ++ q) = .next { u with responses := u.responses ++ t.responses } := by
  obtain ⟨t', answers, -, hrun⟩ := run_program p s
  obtain ⟨u', answers', -, hrun'⟩ := run_program q t'
  rw [runProgram_eq, hrun] at ht
  cases ht
  have hq : runProgram (t'.withHost [] (answers ++ [])) q = core.run q.length (t'.withHost (q ++ []) []) := runProgram_eq _ q
  rw [hq, hrun'] at hu
  cases hu
  have hpq : core.run p.length (s.withHost (p ++ (q ++ [])) []) = _ := hrun (q ++ []) []
  rw [runProgram_eq, List.length_append, List.append_assoc, run_add hpq, hrun', List.append_nil answers']
  rfl

/-- Settles O53: one action's effect, carried along the program by induction. -/
theorem runEndsAfterTheLastAccess : Obligations.RunEndsAfterTheLastAccess := by
  refine ⟨fun s t a rest hp ht => step_takes_oldest hp ht, fun s t u p q ht hu => runProgram_append ht hu,
    fun s a => ?_, fun s p => ?_⟩
  · obtain ⟨t, ht⟩ := step_answers_next { s with pending := [a], responses := [] }
    exact (run_succ ht 0).trans ht.symm
  · obtain ⟨t, answers, hlen, hrun⟩ := run_program p s
    exact ⟨_, (runProgram_eq s p).trans (hrun [] []), rfl, (congrArg List.length (List.append_nil answers)).trans hlen⟩

end Sys2Proof.Machine
end

section
/-! The command word (30_encoding.md R101 to R105): a word is its six fields, a row of R104 is a condition on the fields,
and a word in the row of a command is the word of that command with the immediates the fields name. -/

namespace Sys2Proof

/-! ## Words as fields (R101) -/

theorem fieldOp_lt (w : Word) : fieldOp w < 16 := Nat.mod_lt _ (by decide)

theorem fieldAlg_lt (w : Word) : fieldAlg w < 4 := Nat.mod_lt _ (by decide)

theorem fieldRsv1_lt (w : Word) : fieldRsv1 w < 4 := Nat.mod_lt _ (by decide)

theorem fieldDigits_lt (w : Word) : fieldDigits w < 16 := Nat.mod_lt _ (by decide)

theorem fieldChk_lt (w : Word) : fieldChk w < 2 := Nat.mod_lt _ (by decide)

theorem fieldRsv2_lt (w : Word) : fieldRsv2 w < 2 ^ 19 := Nat.div_lt_of_lt_mul w.isLt

/-- The six fields cover the word. -/
theorem toNat_eq_fields (w : Word) :
    w.toNat = fieldRsv2 w * 8192 + fieldChk w * 4096 + fieldDigits w * 256 + fieldRsv1 w * 64 + fieldAlg w * 16 + fieldOp w := by
  unfold fieldRsv2 fieldChk fieldDigits fieldRsv1 fieldAlg fieldOp
  omega

/-- Words are equal field by field. -/
theorem word_eq_iff_fields (v w : Word) :
    v = w ↔ fieldOp v = fieldOp w ∧ fieldAlg v = fieldAlg w ∧ fieldRsv1 v = fieldRsv1 w ∧ fieldDigits v = fieldDigits w ∧
      fieldChk v = fieldChk w ∧ fieldRsv2 v = fieldRsv2 w := by
  constructor
  · rintro rfl
    exact ⟨rfl, rfl, rfl, rfl, rfl, rfl⟩
  · rintro ⟨hop, halg, hrsv1, hdigits, hchk, hrsv2⟩
    apply BitVec.eq_of_toNat_eq
    rw [toNat_eq_fields v, toNat_eq_fields w, hop, halg, hrsv1, hdigits, hchk, hrsv2]

/-- The bits `start + n - 1` to `start` of an `and` are the `and` of these bits. -/
theorem and_div_mod (v w : Word) (start n : Nat) :
    (v &&& w).toNat / 2 ^ start % 2 ^ n = (v.toNat / 2 ^ start % 2 ^ n) &&& (w.toNat / 2 ^ start % 2 ^ n) := by
  rw [BitVec.toNat_and, Nat.and_div_two_pow, Nat.and_mod_two_pow]

theorem hits_iff (r : CommandRow) (w : Word) : r.hits w = true ↔ w &&& r.mask = r.pattern := beq_iff_eq

/-- `and` works field by field, so a row of R104 is a condition on each field. -/
theorem hits_iff_fields (r : CommandRow) (w : Word) :
    r.hits w = true ↔
      fieldOp w &&& fieldOp r.mask = fieldOp r.pattern ∧ fieldAlg w &&& fieldAlg r.mask = fieldAlg r.pattern ∧
      fieldRsv1 w &&& fieldRsv1 r.mask = fieldRsv1 r.pattern ∧
      fieldDigits w &&& fieldDigits r.mask = fieldDigits r.pattern ∧
      fieldChk w &&& fieldChk r.mask = fieldChk r.pattern ∧ fieldRsv2 w &&& fieldRsv2 r.mask = fieldRsv2 r.pattern := by
  have hop : fieldOp (w &&& r.mask) = fieldOp w &&& fieldOp r.mask := by
    simpa [fieldOp] using and_div_mod w r.mask 0 4
  have halg : fieldAlg (w &&& r.mask) = fieldAlg w &&& fieldAlg r.mask := and_div_mod w r.mask 4 2
  have hrsv1 : fieldRsv1 (w &&& r.mask) = fieldRsv1 w &&& fieldRsv1 r.mask := and_div_mod w r.mask 6 2
  have hdigits : fieldDigits (w &&& r.mask) = fieldDigits w &&& fieldDigits r.mask := and_div_mod w r.mask 8 4
  have hchk : fieldChk (w &&& r.mask) = fieldChk w &&& fieldChk r.mask := and_div_mod w r.mask 12 1
  have hrsv2 : fieldRsv2 (w &&& r.mask) = fieldRsv2 w &&& fieldRsv2 r.mask := by
    rw [fieldRsv2, BitVec.toNat_and]
    exact Nat.and_div_two_pow (n := 13)
  rw [hits_iff, word_eq_iff_fields, hop, halg, hrsv1, hdigits, hchk, hrsv2]

/-! ## The rows of R104 by their fields

A mask shows a field whole or not at all, so that each row fixes `OP`, the reserved fields and the fields its command does
not use. -/

theorem fieldOp_and_mask (w : Word) : fieldOp w &&& 15 = fieldOp w :=
  Nat.and_two_pow_sub_one_of_lt_two_pow (n := 4) (fieldOp_lt w)

theorem fieldAlg_and_mask (w : Word) : fieldAlg w &&& 3 = fieldAlg w :=
  Nat.and_two_pow_sub_one_of_lt_two_pow (n := 2) (fieldAlg_lt w)

theorem fieldRsv1_and_mask (w : Word) : fieldRsv1 w &&& 3 = fieldRsv1 w :=
  Nat.and_two_pow_sub_one_of_lt_two_pow (n := 2) (fieldRsv1_lt w)

theorem fieldDigits_and_mask (w : Word) : fieldDigits w &&& 15 = fieldDigits w :=
  Nat.and_two_pow_sub_one_of_lt_two_pow (n := 4) (fieldDigits_lt w)

theorem fieldChk_and_mask (w : Word) : fieldChk w &&& 1 = fieldChk w :=
  Nat.and_two_pow_sub_one_of_lt_two_pow (n := 1) (fieldChk_lt w)

theorem fieldRsv2_and_mask (w : Word) : fieldRsv2 w &&& 0x7FFFF = fieldRsv2 w :=
  Nat.and_two_pow_sub_one_of_lt_two_pow (n := 19) (fieldRsv2_lt w)

/-- Every row of R104 fixes `OP` and the reserved fields, and asks zero of each other field that its mask shows. -/
theorem hits_iff_of_mem {r : CommandRow} (hr : r ∈ commandRows) (w : Word) :
    r.hits w = true ↔
      fieldRsv1 w = 0 ∧ fieldRsv2 w = 0 ∧ fieldOp w = fieldOp r.pattern ∧
      fieldAlg w &&& fieldAlg r.mask = 0 ∧ fieldDigits w &&& fieldDigits r.mask = 0 ∧ fieldChk w &&& fieldChk r.mask = 0 := by
  have hmask : ∀ r ∈ commandRows, fieldOp r.mask = 15 ∧ fieldRsv1 r.mask = 3 ∧ fieldRsv2 r.mask = 0x7FFFF := by decide
  have hpattern : ∀ r ∈ commandRows, fieldAlg r.pattern = 0 ∧ fieldRsv1 r.pattern = 0 ∧ fieldDigits r.pattern = 0 ∧
      fieldChk r.pattern = 0 ∧ fieldRsv2 r.pattern = 0 := by decide
  obtain ⟨hop, hrsv1, hrsv2⟩ := hmask r hr
  obtain ⟨palg, prsv1, pdigits, pchk, prsv2⟩ := hpattern r hr
  rw [hits_iff_fields, hop, hrsv1, hrsv2, palg, prsv1, pdigits, pchk, prsv2, fieldOp_and_mask, fieldRsv1_and_mask,
    fieldRsv2_and_mask]
  tauto

theorem op_of_hits {r : CommandRow} (hr : r ∈ commandRows) {w : Word} (h : r.hits w = true) :
    fieldOp w = fieldOp r.pattern := by
  obtain ⟨-, -, hop, -⟩ := (hits_iff_of_mem hr w).1 h
  exact hop

theorem rowNop_hits_iff (w : Word) :
    rowNop.hits w = true ↔
      fieldRsv1 w = 0 ∧ fieldRsv2 w = 0 ∧ fieldOp w = 0 ∧ fieldAlg w = 0 ∧ fieldDigits w = 0 ∧ fieldChk w = 0 := by
  rw [hits_iff_of_mem (by decide)]
  change _ ∧ _ ∧ fieldOp w = 0 ∧ fieldAlg w &&& 3 = 0 ∧ fieldDigits w &&& 15 = 0 ∧ fieldChk w &&& 1 = 0 ↔ _
  rw [fieldAlg_and_mask, fieldDigits_and_mask, fieldChk_and_mask]

theorem rowHmac_hits_iff (w : Word) :
    rowHmac.hits w = true ↔ fieldRsv1 w = 0 ∧ fieldRsv2 w = 0 ∧ fieldOp w = 1 ∧ fieldDigits w = 0 ∧ fieldChk w = 0 := by
  rw [hits_iff_of_mem (by decide)]
  change _ ∧ _ ∧ fieldOp w = 1 ∧ fieldAlg w &&& 0 = 0 ∧ fieldDigits w &&& 15 = 0 ∧ fieldChk w &&& 1 = 0 ↔ _
  simp only [fieldDigits_and_mask, fieldChk_and_mask, Nat.and_zero, true_and]

theorem rowHotpGen_hits_iff (w : Word) :
    rowHotpGen.hits w = true ↔ fieldRsv1 w = 0 ∧ fieldRsv2 w = 0 ∧ fieldOp w = 2 ∧ fieldAlg w = 0 := by
  rw [hits_iff_of_mem (by decide)]
  change _ ∧ _ ∧ fieldOp w = 2 ∧ fieldAlg w &&& 3 = 0 ∧ fieldDigits w &&& 0 = 0 ∧ fieldChk w &&& 0 = 0 ↔ _
  simp only [fieldAlg_and_mask, Nat.and_zero, and_true]

theorem rowHotpVal_hits_iff (w : Word) :
    rowHotpVal.hits w = true ↔ fieldRsv1 w = 0 ∧ fieldRsv2 w = 0 ∧ fieldOp w = 3 ∧ fieldAlg w = 0 ∧ fieldDigits w = 0 := by
  rw [hits_iff_of_mem (by decide)]
  change _ ∧ _ ∧ fieldOp w = 3 ∧ fieldAlg w &&& 3 = 0 ∧ fieldDigits w &&& 15 = 0 ∧ fieldChk w &&& 0 = 0 ↔ _
  simp only [fieldAlg_and_mask, fieldDigits_and_mask, Nat.and_zero, and_true]

theorem rowTotpGen_hits_iff (w : Word) :
    rowTotpGen.hits w = true ↔ fieldRsv1 w = 0 ∧ fieldRsv2 w = 0 ∧ fieldOp w = 4 ∧ fieldChk w = 0 := by
  rw [hits_iff_of_mem (by decide)]
  change _ ∧ _ ∧ fieldOp w = 4 ∧ fieldAlg w &&& 0 = 0 ∧ fieldDigits w &&& 0 = 0 ∧ fieldChk w &&& 1 = 0 ↔ _
  simp only [fieldChk_and_mask, Nat.and_zero, true_and]

theorem rowTotpVal_hits_iff (w : Word) :
    rowTotpVal.hits w = true ↔ fieldRsv1 w = 0 ∧ fieldRsv2 w = 0 ∧ fieldOp w = 5 ∧ fieldDigits w = 0 ∧ fieldChk w = 0 := by
  rw [hits_iff_of_mem (by decide)]
  change _ ∧ _ ∧ fieldOp w = 5 ∧ fieldAlg w &&& 0 = 0 ∧ fieldDigits w &&& 15 = 0 ∧ fieldChk w &&& 1 = 0 ↔ _
  simp only [fieldDigits_and_mask, fieldChk_and_mask, Nat.and_zero, true_and]

/-! ## The decoder by rows -/

theorem rowOf_mem (i : Instr) : rowOf i ∈ commandRows := by
  cases i <;> simp [rowOf, commandRows]

/-- The command `OP` names, with the immediates that the other fields name (R101). It means something only for words in a
row of R104, where it is what the decoder answers (`decodeWord_of_hits`). -/
def commandOf (w : Word) : Instr :=
  match fieldOp w with
  | 0 => .nop
  | 1 => .hmac (.ofField (fieldAlg w))
  | 2 => .hotpGen (fieldDigits w) (fieldChk w == 1)
  | 3 => .hotpVal (fieldChk w == 1)
  | 4 => .totpGen (.ofField (fieldAlg w)) (fieldDigits w)
  | _ => .totpVal (.ofField (fieldAlg w))

section
variable {w : Word}

theorem commandOf_nop (h : rowNop.hits w = true) : commandOf w = .nop := by
  rw [commandOf, op_of_hits (by decide) h]
  rfl

theorem commandOf_hmac (h : rowHmac.hits w = true) : commandOf w = .hmac (.ofField (fieldAlg w)) := by
  rw [commandOf, op_of_hits (by decide) h]
  rfl

theorem commandOf_hotpGen (h : rowHotpGen.hits w = true) :
    commandOf w = .hotpGen (fieldDigits w) (fieldChk w == 1) := by
  rw [commandOf, op_of_hits (by decide) h]
  rfl

theorem commandOf_hotpVal (h : rowHotpVal.hits w = true) : commandOf w = .hotpVal (fieldChk w == 1) := by
  rw [commandOf, op_of_hits (by decide) h]
  rfl

theorem commandOf_totpGen (h : rowTotpGen.hits w = true) :
    commandOf w = .totpGen (.ofField (fieldAlg w)) (fieldDigits w) := by
  rw [commandOf, op_of_hits (by decide) h]
  rfl

theorem commandOf_totpVal (h : rowTotpVal.hits w = true) : commandOf w = .totpVal (.ofField (fieldAlg w)) := by
  rw [commandOf, op_of_hits (by decide) h]
  rfl

/-- A word that decodes stands in the row of its command, which its fields name. -/
theorem hits_of_decodeWord {i : Instr} (h : decodeWord w = .ok i) : (rowOf i).hits w = true ∧ commandOf w = i := by
  unfold decodeWord at h
  split_ifs at h with h0 h1 h2 h3 h4 h5 <;> cases h
  · exact ⟨h0, commandOf_nop h0⟩
  · exact ⟨h1, commandOf_hmac h1⟩
  · exact ⟨h2, commandOf_hotpGen h2⟩
  · exact ⟨h3, commandOf_hotpVal h3⟩
  · exact ⟨h4, commandOf_totpGen h4⟩
  · exact ⟨h5, commandOf_totpVal h5⟩

/-- A word is rejected when it is in no row. -/
theorem not_hits_of_decodeWord_error {e : DecodeReject} (h : decodeWord w = .error e) :
    ∀ r ∈ commandRows, r.hits w = false := by
  unfold decodeWord at h
  split_ifs at h with h0 h1 h2 h3 h4 h5
  simp [commandRows, h0, h1, h2, h3, h4, h5]

/-- A word in a row of R104 decodes to the command its fields name. -/
theorem decodeWord_of_hits {r : CommandRow} (hr : r ∈ commandRows) (h : r.hits w = true) :
    decodeWord w = .ok (commandOf w) := by
  cases hd : decodeWord w with
  | error e => exact absurd h (ne_true_of_eq_false (not_hits_of_decodeWord_error hd r hr))
  | ok i => rw [(hits_of_decodeWord hd).2]

/-- The decoder without its order of rows. -/
theorem decodeWord_eq_ok_iff {i : Instr} : decodeWord w = .ok i ↔ (rowOf i).hits w = true ∧ commandOf w = i := by
  constructor
  · exact hits_of_decodeWord
  · rintro ⟨h, rfl⟩
    exact decodeWord_of_hits (rowOf_mem _) h

end

/-! ## The encoder by fields (R101) -/

section
variable {chk digits alg op : Nat} (hchk : chk < 2) (hdigits : digits < 16) (halg : alg < 4) (hop : op < 16)
include hchk hdigits halg hop

theorem commandWord_toNat : (commandWord chk digits alg op).toNat = chk * 4096 + digits * 256 + alg * 16 + op :=
  Nat.mod_eq_of_lt (by omega)

theorem fieldAlg_commandWord : fieldAlg (commandWord chk digits alg op) = alg := by
  rw [fieldAlg, commandWord_toNat hchk hdigits halg hop]
  omega

theorem fieldDigits_commandWord : fieldDigits (commandWord chk digits alg op) = digits := by
  rw [fieldDigits, commandWord_toNat hchk hdigits halg hop]
  omega

theorem fieldChk_commandWord : fieldChk (commandWord chk digits alg op) = chk := by
  rw [fieldChk, commandWord_toNat hchk hdigits halg hop]
  omega

end

/-- A word without reserved bits is the command word of its fields. -/
theorem commandWord_fields {w : Word} (hrsv1 : fieldRsv1 w = 0) (hrsv2 : fieldRsv2 w = 0) :
    commandWord (fieldChk w) (fieldDigits w) (fieldAlg w) (fieldOp w) = w := by
  apply BitVec.eq_of_toNat_eq
  rw [commandWord_toNat (fieldChk_lt w) (fieldDigits_lt w) (fieldAlg_lt w) (fieldOp_lt w), toNat_eq_fields w, hrsv1, hrsv2]
  omega

theorem HashSel.field_lt (alg : HashSel) : alg.field < 4 := by
  rcases alg with (_ | _ | _) | _ <;> decide

theorem HashSel.ofField_field (alg : HashSel) : HashSel.ofField alg.field = alg := by
  rcases alg with (_ | _ | _) | _ <;> rfl

theorem HashSel.field_ofField {n : Nat} (h : n < 4) : (HashSel.ofField n).field = n := by
  revert n
  decide

theorem toNat_beq_one {n : Nat} (h : n < 2) : (n == 1).toNat = n := by
  revert n
  decide

theorem toNat_beq_one_self (b : Bool) : (b.toNat == 1) = b := by cases b <;> rfl

/-- The word of a well-formed command stands in the command's row: R104 command by command. -/
theorem hits_encode {i : Instr} (h : i.wf = true) : (rowOf i).hits (encode i) = true := by
  cases i with
  | nop => exact (Laws.InItsRow.nop h).1
  | hmac alg => exact (Laws.InItsRow.hmac alg h).1
  | hotpGen digits chk => exact (Laws.InItsRow.hotpGen digits chk h).1
  | hotpVal chk => exact (Laws.InItsRow.hotpVal chk h).1
  | totpGen alg digits => exact (Laws.InItsRow.totpGen alg digits h).1
  | totpVal alg => exact (Laws.InItsRow.totpVal alg h).1

/-- The fields of the word of a well-formed command name the command. -/
theorem commandOf_encode {i : Instr} (h : i.wf = true) : commandOf (encode i) = i := by
  have hrow := hits_encode h
  cases i with
  | nop => exact commandOf_nop hrow
  | hmac alg =>
    rw [commandOf_hmac hrow, encode, fieldAlg_commandWord (by decide) (by decide) alg.field_lt (by decide), alg.ofField_field]
  | hotpGen digits chk =>
    have hd : digits < 16 := of_decide_eq_true h
    rw [commandOf_hotpGen hrow, encode, fieldDigits_commandWord chk.toNat_lt hd (by decide) (by decide),
      fieldChk_commandWord chk.toNat_lt hd (by decide) (by decide), toNat_beq_one_self]
  | hotpVal chk =>
    rw [commandOf_hotpVal hrow, encode, fieldChk_commandWord chk.toNat_lt (by decide) (by decide) (by decide),
      toNat_beq_one_self]
  | totpGen alg digits =>
    have hd : digits < 16 := of_decide_eq_true h
    rw [commandOf_totpGen hrow, encode, fieldAlg_commandWord (by decide) hd alg.field_lt (by decide), alg.ofField_field,
      fieldDigits_commandWord (by decide) hd alg.field_lt (by decide)]
  | totpVal alg =>
    rw [commandOf_totpVal hrow, encode, fieldAlg_commandWord (by decide) (by decide) alg.field_lt (by decide),
      alg.ofField_field]

theorem decodeWord_encode {i : Instr} (h : i.wf = true) : decodeWord (encode i) = .ok i := by
  rw [decodeWord_of_hits (rowOf_mem i) (hits_encode h), commandOf_encode h]

/-- Settles O2: the word stands in its command's row, and its fields name the command. -/
theorem decodeOfEncodeIsTheCommand : Obligations.DecodeOfEncodeIsTheCommand :=
  fun i h => ⟨decodeWord_encode h, (decodeBytes_word (encode i)).trans (decodeWord_encode h)⟩

/-- The word of the command that a word's fields name: in each row the fields that stay zero are those the row asks for. -/
theorem encode_commandOf {r : CommandRow} (hr : r ∈ commandRows) {w : Word} (h : r.hits w = true) :
    encode (commandOf w) = commandWord (fieldChk w) (fieldDigits w) (fieldAlg w) (fieldOp w) := by
  have halg := HashSel.field_ofField (fieldAlg_lt w)
  have hchk := toNat_beq_one (fieldChk_lt w)
  simp only [commandRows, List.mem_cons, List.not_mem_nil, or_false] at hr
  rcases hr with rfl | rfl | rfl | rfl | rfl | rfl
  · obtain ⟨-, -, hop, ha, hd, hc⟩ := (rowNop_hits_iff w).1 h
    rw [commandOf_nop h, encode, hop, ha, hd, hc]
  · obtain ⟨-, -, hop, hd, hc⟩ := (rowHmac_hits_iff w).1 h
    rw [commandOf_hmac h, encode, halg, hop, hd, hc]
  · obtain ⟨-, -, hop, ha⟩ := (rowHotpGen_hits_iff w).1 h
    rw [commandOf_hotpGen h, encode, hchk, hop, ha]
  · obtain ⟨-, -, hop, ha, hd⟩ := (rowHotpVal_hits_iff w).1 h
    rw [commandOf_hotpVal h, encode, hchk, hop, ha, hd]
  · obtain ⟨-, -, hop, hc⟩ := (rowTotpGen_hits_iff w).1 h
    rw [commandOf_totpGen h, encode, halg, hop, hc]
  · obtain ⟨-, -, hop, hd, hc⟩ := (rowTotpVal_hits_iff w).1 h
    rw [commandOf_totpVal h, encode, halg, hop, hd, hc]

/-- Immediates read from the fields of a word fit their fields. -/
theorem commandOf_wf (w : Word) : (commandOf w).wf = true := by
  unfold commandOf
  split
  · rfl
  · rfl
  · exact decide_eq_true (fieldDigits_lt w)
  · rfl
  · exact decide_eq_true (fieldDigits_lt w)
  · rfl

/-- Settles O3: the word is made of its fields, and the fields its command does not name are zero. -/
theorem encodeOfDecodeIsTheWord : Obligations.EncodeOfDecodeIsTheWord := by
  intro w i h
  obtain ⟨hrow, rfl⟩ := hits_of_decodeWord h
  obtain ⟨hrsv1, hrsv2, -⟩ := (hits_iff_of_mem (rowOf_mem _) w).1 hrow
  exact ⟨commandOf_wf w, (encode_commandOf (rowOf_mem _) hrow).trans (commandWord_fields hrsv1 hrsv2)⟩

/-! ## The legal words (R104) -/

/-- The legal words are the words of the well-formed commands. -/
theorem decodes_iff_encode (w : Word) : (∃ i, decodeWord w = .ok i) ↔ ∃ i : Instr, i.wf = true ∧ encode i = w := by
  constructor
  · rintro ⟨i, h⟩
    exact ⟨i, encodeOfDecodeIsTheWord w i h⟩
  · rintro ⟨i, h, rfl⟩
    exact ⟨i, decodeWord_encode h⟩

/-- The legal words are those of the rows. -/
theorem decodes_iff_hits (w : Word) : (∃ i, decodeWord w = .ok i) ↔ ∃ r ∈ commandRows, r.hits w = true := by
  constructor
  · rintro ⟨i, h⟩
    exact ⟨rowOf i, rowOf_mem i, (hits_of_decodeWord h).1⟩
  · rintro ⟨r, hr, h⟩
    exact ⟨_, decodeWord_of_hits hr h⟩

/-- A bit slice of a word, as a number. -/
theorem extractLsb'_eq_iff (w : Word) (start n : Nat) (x : BitVec n) :
    w.extractLsb' start n = x ↔ w.toNat / 2 ^ start % 2 ^ n = x.toNat := by
  rw [← BitVec.toNat_inj, BitVec.extractLsb'_toNat, Nat.shiftRight_eq_div_pow]

theorem extractLsb'_op_eq_iff (w : Word) (x : BitVec 4) : w.extractLsb' 0 4 = x ↔ fieldOp w = x.toNat := by
  rw [extractLsb'_eq_iff, pow_zero, Nat.div_one]
  rfl

theorem extractLsb'_alg_eq_iff (w : Word) (x : BitVec 2) : w.extractLsb' 4 2 = x ↔ fieldAlg w = x.toNat :=
  extractLsb'_eq_iff w 4 2 x

theorem extractLsb'_rsv1_eq_iff (w : Word) (x : BitVec 2) : w.extractLsb' 6 2 = x ↔ fieldRsv1 w = x.toNat :=
  extractLsb'_eq_iff w 6 2 x

theorem extractLsb'_digits_eq_iff (w : Word) (x : BitVec 4) : w.extractLsb' 8 4 = x ↔ fieldDigits w = x.toNat :=
  extractLsb'_eq_iff w 8 4 x

theorem extractLsb'_chk_eq_iff (w : Word) (x : BitVec 1) : w.extractLsb' 12 1 = x ↔ fieldChk w = x.toNat :=
  extractLsb'_eq_iff w 12 1 x

theorem extractLsb'_rsv2_eq_iff (w : Word) (x : BitVec 19) : w.extractLsb' 13 19 = x ↔ fieldRsv2 w = x.toNat := by
  rw [extractLsb'_eq_iff]
  exact Eq.congr_left (Nat.mod_eq_of_lt (fieldRsv2_lt w))

/-- R104 by fields: the reserved fields are zero, and one of the six rows holds. -/
theorem decodes_iff_fields (w : Word) : (∃ i, decodeWord w = .ok i) ↔
    fieldRsv1 w = 0 ∧ fieldRsv2 w = 0 ∧
    ((fieldOp w = 0 ∧ fieldAlg w = 0 ∧ fieldDigits w = 0 ∧ fieldChk w = 0) ∨
     (fieldOp w = 1 ∧ fieldDigits w = 0 ∧ fieldChk w = 0) ∨ (fieldOp w = 2 ∧ fieldAlg w = 0) ∨
     (fieldOp w = 3 ∧ fieldAlg w = 0 ∧ fieldDigits w = 0) ∨ (fieldOp w = 4 ∧ fieldChk w = 0) ∨
     (fieldOp w = 5 ∧ fieldDigits w = 0 ∧ fieldChk w = 0)) := by
  rw [decodes_iff_hits]
  simp only [commandRows, List.exists_mem_cons_iff, List.not_mem_nil, false_and, exists_false, or_false, rowNop_hits_iff,
    rowHmac_hits_iff, rowHotpGen_hits_iff, rowHotpVal_hits_iff, rowTotpGen_hits_iff, rowTotpVal_hits_iff, ← and_or_left]

/-- The values of the field `ALG`. -/
def hashSelectors : List HashSel := [.use .sha1, .use .sha256, .use .sha512, .reserved]

/-- The well-formed commands, row by row of R104: 1, 4, 32, 2, 64 and 4. -/
def wfCommands : List Instr :=
  [Instr.nop] ++ hashSelectors.map Instr.hmac ++
  ((List.range 16).product [false, true]).map (fun p => Instr.hotpGen p.1 p.2) ++
  [false, true].map Instr.hotpVal ++
  (hashSelectors.product (List.range 16)).map (fun p => Instr.totpGen p.1 p.2) ++
  hashSelectors.map Instr.totpVal

theorem wfCommands_length : wfCommands.length = 107 := rfl

theorem mem_hashSelectors (alg : HashSel) : alg ∈ hashSelectors := by
  rcases alg with (_ | _ | _) | _ <;> decide

theorem mem_wfCommands (i : Instr) : i ∈ wfCommands ↔ i.wf = true := by
  cases i with
  | hotpGen digits chk => cases chk <;> simp [wfCommands, Instr.wf]
  | _ => simp [wfCommands, Instr.wf, mem_hashSelectors]

theorem hashSelectors_nodup : hashSelectors.Nodup := by decide

/-- Within a row the immediates tell the commands apart, between rows the constructor. -/
theorem wfCommands_nodup : wfCommands.Nodup := by
  have hbools : [false, true].Nodup := by decide
  have hhotpGen : (((List.range 16).product [false, true]).map fun p => Instr.hotpGen p.1 p.2).Nodup :=
    (List.nodup_range.product hbools).map fun _ _ h => Prod.ext_iff.2 (Instr.hotpGen.inj h)
  have htotpGen : ((hashSelectors.product (List.range 16)).map fun p => Instr.totpGen p.1 p.2).Nodup :=
    (hashSelectors_nodup.product List.nodup_range).map fun _ _ h => Prod.ext_iff.2 (Instr.totpGen.inj h)
  have hhmac : (hashSelectors.map Instr.hmac).Nodup := hashSelectors_nodup.map fun _ _ => Instr.hmac.inj
  have htotpVal : (hashSelectors.map Instr.totpVal).Nodup := hashSelectors_nodup.map fun _ _ => Instr.totpVal.inj
  have hhotpVal : ([false, true].map Instr.hotpVal).Nodup := hbools.map fun _ _ => Instr.hotpVal.inj
  simp only [wfCommands, List.nodup_append, List.nodup_singleton, List.forall_mem_append, List.forall_mem_singleton,
    List.forall_mem_map, hhmac, hhotpGen, hhotpVal, htotpGen, htotpVal, ne_eq, reduceCtorEq, not_false_eq_true, implies_true,
    and_true]

/-- No two well-formed commands have the same word. -/
theorem encode_injective_of_wf {i j : Instr} (hi : i.wf = true) (hj : j.wf = true) (h : encode i = encode j) : i = j :=
  (commandOf_encode hi).symm.trans ((congrArg commandOf h).trans (commandOf_encode hj))

/-- There are 107 legal words: one for each well-formed command. -/
theorem legal_words_count :
    ∃ legal : List Word, legal.Nodup ∧ legal.length = 107 ∧ ∀ w, w ∈ legal ↔ ∃ i, decodeWord w = .ok i := by
  refine ⟨wfCommands.map encode, wfCommands_nodup.map_on fun i hi j hj => ?_, ?_, fun w => ?_⟩
  · exact encode_injective_of_wf ((mem_wfCommands i).1 hi) ((mem_wfCommands j).1 hj)
  · rw [List.length_map, wfCommands_length]
  · simp only [List.mem_map, mem_wfCommands, decodes_iff_encode]

/-- Settles O4: the rows by their fields, the rows by mask and pattern, and the words of the well-formed commands. -/
theorem legalWordsAreThoseOfTheTable : Obligations.LegalWordsAreThoseOfTheTable := by
  refine ⟨fun w => ?_, fun w => ⟨?_, ?_, ?_, ?_, ?_, ?_⟩, legal_words_count⟩
  · rw [decodes_iff_fields]
    simp only [extractLsb'_op_eq_iff, extractLsb'_alg_eq_iff, extractLsb'_rsv1_eq_iff, extractLsb'_digits_eq_iff,
      extractLsb'_chk_eq_iff, extractLsb'_rsv2_eq_iff]
    rfl
  · exact (hits_iff rowNop w).symm.trans
      ⟨fun h => decodeWord_eq_ok_iff.2 ⟨h, commandOf_nop h⟩, fun h => (hits_of_decodeWord h).1⟩
  · exact (hits_iff rowHmac w).symm.trans
      ⟨fun h => ⟨_, decodeWord_eq_ok_iff.2 ⟨h, commandOf_hmac h⟩⟩,
        fun ⟨_, h⟩ => (hits_of_decodeWord h).1⟩
  · exact (hits_iff rowHotpGen w).symm.trans
      ⟨fun h => ⟨_, _, decodeWord_eq_ok_iff.2 ⟨h, commandOf_hotpGen h⟩⟩,
        fun ⟨_, _, h⟩ => (hits_of_decodeWord h).1⟩
  · exact (hits_iff rowHotpVal w).symm.trans
      ⟨fun h => ⟨_, decodeWord_eq_ok_iff.2 ⟨h, commandOf_hotpVal h⟩⟩,
        fun ⟨_, h⟩ => (hits_of_decodeWord h).1⟩
  · exact (hits_iff rowTotpGen w).symm.trans
      ⟨fun h => ⟨_, _, decodeWord_eq_ok_iff.2 ⟨h, commandOf_totpGen h⟩⟩,
        fun ⟨_, _, h⟩ => (hits_of_decodeWord h).1⟩
  · exact (hits_iff rowTotpVal w).symm.trans
      ⟨fun h => ⟨_, decodeWord_eq_ok_iff.2 ⟨h, commandOf_totpVal h⟩⟩,
        fun ⟨_, h⟩ => (hits_of_decodeWord h).1⟩

/-- Settles O1: the legal words are those of their commands, and the decoder names why it rejects the others. -/
theorem specWordsDecodeAsListed : Obligations.SpecWordsDecodeAsListed :=
  ⟨decodeWord_encode (i := .nop) rfl,
    decodeWord_encode (i := .hmac (.use .sha512)) rfl,
    decodeWord_encode (i := .hmac .reserved) rfl,
    decodeWord_encode (i := .hotpGen 6 false) rfl,
    decodeWord_encode (i := .hotpGen 8 true) rfl,
    decodeWord_encode (i := .hotpVal true) rfl,
    decodeWord_encode (i := .totpGen (.use .sha256) 8) rfl,
    decodeWord_encode (i := .totpVal (.use .sha1)) rfl,
    by decide, by decide, by decide, by decide⟩

end Sys2Proof
end

section
/-! The frame of a command word (40_command_frame.md R130 to R135, R138): which command a write to `CMD` runs, when its
length is refused, and what no command changes. -/

namespace Sys2Proof.Machine

/-! ## The command a word runs -/

/-- The write of a legal word to `CMD` runs the word's command (R131). -/
theorem step_legal_word {s : State} {w : Word} {rest : List HostAction} {i : Instr} (hp : NextIsCommand s w rest)
    (hi : decodeWord w = .ok i) : step s = exec i (withCommand s w rest) :=
  (step_cmd_write hp).trans (runCommand_ok _ i hi)

theorem nextIsCommand_withFetchWord (s : State) (w : Word) : NextIsCommand (s.withFetchWord 32 w.toNat) w s.pending := by
  rw [NextIsCommand, State.withFetchWord_pending, Nat.mod_eq_of_lt w.isLt, BitVec.ofNat_toNat, BitVec.setWidth_eq]
  rfl

/-- Settles O5: the word stored is the word decoded. -/
theorem stepOfACommandWriteRunsTheDecodedCommand : Obligations.StepOfACommandWriteRunsTheDecodedCommand :=
  ⟨fun _ _ _ _ => step_legal_word, fun s w _ => step_legal_word (nextIsCommand_withFetchWord s w)⟩

/-- Settles O6: the frame of a word that decodes to no command. -/
theorem illegalWordSetsIllcmdAndNothingElse : Obligations.IllegalWordSetsIllcmdAndNothingElse :=
  fun _ _ _ hp hw => (step_cmd_write hp).trans (runCommand_illegal _ hw)

theorem decodeWord_eq_nop_iff (w : Word) : decodeWord w = .ok .nop ↔ w = 0x00000000#32 := by
  constructor
  · exact fun h => (encodeOfDecodeIsTheWord w .nop h).2.symm
  · rintro rfl
    exact decodeWord_encode (i := .nop) rfl

/-- Settles O10: the arm of `NOP`, reached from its one word. -/
theorem nopChangesNothingButCmd : Obligations.NopChangesNothingButCmd := by
  have hnop := (decodeWord_eq_nop_iff 0).2 rfl
  exact ⟨fun _ => rfl, decodeWord_eq_nop_iff, fun _ _ hp => step_legal_word hp hnop,
    fun c => step_legal_word (nextIsCommand_withFetchWord (State.resetWith c) 0) hnop⟩

/-! ## The length check (R133) -/

/-- `NOP` is never refused. -/
theorem LengthRefusedFor.ne_nop {i : Instr} {s : State} (h : LengthRefusedFor i s) : i ≠ .nop := by
  rcases h with ⟨hi, -⟩ | ⟨⟨alg, rfl⟩, -⟩
  · exact hi
  · exact Instr.noConfusion

/-- Settles O7: the model's length check is the rule's. -/
theorem lengthRefusalSetsIlllenAndNothingElse : Obligations.LengthRefusalSetsIlllenAndNothingElse := by
  refine fun i s => ⟨fun h => exec_refused i s h.ne_nop ((lengthRefused_iff i s h.ne_nop).2 h), fun h t ht => ?_⟩
  rcases exec_status ht with hsame | ⟨hrefused, -⟩
  · exact hsame
  · exact absurd hrefused h

/-! ## What no command changes (R135) -/

/-- A command changes `STATUS`, `RC` and the results, and nothing else. -/
theorem exec_frame {i : Instr} {s t : State} (ht : exec i s = .next t) :
    ∃ (x y : Word) (r : Results), t = { s with status := x, rc := y, res := r } := by
  rcases exec_cases i s with ⟨-, hnop⟩ | ⟨-, -, hrefused⟩ | ⟨-, -, e, -, herror⟩ | ⟨-, -, r, -, hok⟩
  · rw [hnop] at ht; cases ht; exact ⟨s.status, s.rc, s.res, rfl⟩
  · rw [hrefused] at ht; cases ht; exact ⟨_, s.rc, s.res, rfl⟩
  · rw [herror] at ht; cases ht; exact ⟨s.status, _, _, rfl⟩
  · rw [hok] at ht; cases ht; exact ⟨s.status, _, _, rfl⟩

/-- The registers and buffers a command can change: `STATUS`, `RC` and the results. -/
def Place.isOutput : Place → Bool
  | .reg g => g ∈ [.status, .rc, .pos, .matchCtr, .tctr, .binCode, .otpVal, .offset, .otpLen, .tagLen]
  | .buf b => b ∈ [.otp, .tag]

/-- Where the rows of the outputs lie (R72). -/
theorem output_row {c : Config} {r : Region} (hr : r ∈ memoryMap c) (h : r.place.isOutput = true) :
    (0x4 ≤ r.base ∧ r.base + r.size ≤ 0xC) ∨ (0x50 ≤ r.base ∧ r.base + r.size ≤ 0x90) ∨
    (0xC0 ≤ r.base ∧ r.base + r.size ≤ 0x10000) := by
  have hrows : ∀ r ∈ memoryMap c, r.place.isOutput = true → (0x4 ≤ r.base ∧ r.base + r.size ≤ 0xC) ∨
      (0x50 ≤ r.base ∧ r.base + r.size ≤ 0x90) ∨ (0xC0 ≤ r.base ∧ r.base + r.size ≤ 0x10000) := by
    simp [memoryMap, Place.isOutput]
  exact hrows r hr h

section
variable (s : State) (x y : Word) (res : Results)

/-- The bytes of every other row do not depend on the outputs. -/
theorem regionByte_withOutputs {r : Region} (h : r.place.isOutput = false) (i : Nat) :
    ({ s with status := x, rc := y, res := res } : State).regionByte r i = s.regionByte r i := by
  cases hplace : r.place with
  | reg g =>
    rw [regionByte_reg hplace, regionByte_reg hplace]
    rw [hplace] at h
    cases g <;> first | rfl | cases h
  | buf b =>
    rw [regionByte_buf hplace, regionByte_buf hplace]
    rw [hplace] at h
    cases b <;> first | rfl | cases h

/-- Outside the rows of the outputs the space holds what it held. -/
theorem contentAt_withOutputs {a : Nat} (ha : a < 0x4 ∨ (0xC ≤ a ∧ a < 0x50) ∨ (0x90 ≤ a ∧ a < 0xC0) ∨ 0x10000 ≤ a) :
    ({ s with status := x, rc := y, res := res } : State).contentAt a = s.contentAt a := by
  refine Option.map_congr fun r hr => ?_
  obtain ⟨hmem, hlow, hhigh⟩ := regionAt_some hr
  refine regionByte_withOutputs s x y res (Bool.eq_false_iff.2 fun hout => ?_) _
  have hrow := output_row hmem hout
  omega

end

/-- Settles O9: the frame of a command, and the rows of what it can change. -/
theorem commandsNeverChangeTheirInputs : Obligations.CommandsNeverChangeTheirInputs := by
  intro i s t ht
  have hstatus := (lengthRefusalSetsIlllenAndNothingElse i s).2
  obtain ⟨x, y, r, rfl⟩ := exec_frame ht
  exact ⟨rfl, rfl, rfl, rfl, rfl, rfl, rfl, rfl, fun hl => hstatus hl _ ht, fun _ => contentAt_withOutputs s x y r⟩

end Sys2Proof.Machine
end

section
/-! What a command answers past the length check (40_command_frame.md R134 to R137; 60_exceptions.md R282): one equation
per body with its checks in the order of the rule, and from these the return codes, the results written, and the operands
they depend on. -/

namespace Sys2Proof.Machine

/-! ## The outcome of a body -/

/-- `s` after a command whose body answered `o` (R134). -/
def State.afterBody (s : State) : Except ErrorKind Results → State
  | .error e => withOutcome s e.rcBits Results.zero
  | .ok r => withOutcome s 0 r

/-- The return code of a command whose body answered `o` (R25, R134). -/
def returnCode : Except ErrorKind Results → Int
  | .error e => e.code
  | .ok _ => 0

/-- Past the length check a command is its body. -/
theorem exec_eq_afterBody {i : Instr} {s : State} (hi : i ≠ .nop) (hl : ¬ LengthRefusedFor i s) :
    exec i s = .next (s.afterBody (bodyOf i s)) := by
  have hl : lengthRefused (readsMsg i) s = false := Bool.eq_false_iff.2 fun h => hl ((lengthRefused_iff i s hi).1 h)
  cases hb : bodyOf i s with
  | error e => exact exec_error i s e hi hl hb
  | ok r => exact exec_ok i s r hi hl hb

/-- `RC` holds the code in two's complement (R25). -/
theorem rcBits_toInt (e : ErrorKind) : e.rcBits.toInt = e.code := by cases e <;> decide

theorem afterBody_rc_toInt (s : State) (o : Except ErrorKind Results) : (s.afterBody o).rc.toInt = returnCode o := by
  cases o with
  | error e => exact rcBits_toInt e
  | ok r => rfl

theorem rc_toInt_of_exec {i : Instr} {s t : State} (hi : i ≠ .nop) (hl : ¬ LengthRefusedFor i s) (ht : exec i s = .next t) :
    t.rc.toInt = returnCode (bodyOf i s) := by
  rw [exec_eq_afterBody hi hl] at ht
  cases ht
  exact afterBody_rc_toInt s _

/-! ## The bodies, check by check -/

/-- The submitted string has no legal digit count (R250). -/
abbrev DigitCountWrong (chk : Bool) (s : State) : Prop :=
  s.ops.subLen.toNat < 6 + chk.toNat ∨ 8 + chk.toNat < s.ops.subLen.toNat

/-- A submitted character is no digit (R250). -/
abbrev HasNonDigit (s : State) : Prop :=
  ∃ j < s.ops.subLen.toNat, (s.sub.read j).toNat < 0x30 ∨ 0x39 < (s.sub.read j).toNat

theorem hasNonDigit_iff (s : State) : HasNonDigit s ↔ s.submitted.all isDigit = false := by
  rw [Bool.eq_false_iff, ne_eq, submitted_all_digits]
  push Not
  simp only [HasNonDigit, or_iff_not_imp_left, not_lt]

theorem parseSubmitted_eq (chk : Bool) (s : State) :
    parseSubmitted chk s =
      if DigitCountWrong chk s then .error .invalidDigits
      else if HasNonDigit s then .error .invalidOtp
      else .ok (s.ops.subLen.toNat - chk.toNat, s.submitted) := by
  rcases parseSubmitted_cases chk s with ⟨hlen, hp⟩ | ⟨hlow, hhigh, hall, hp⟩ | ⟨hlow, hhigh, hall, hp⟩
  · rw [hp, if_pos hlen]
  · rw [hp, if_neg (by omega), if_pos ((hasNonDigit_iff s).2 hall)]
  · rw [hp, if_neg (by omega), if_neg]
    rw [hasNonDigit_iff, hall]
    exact Bool.noConfusion

/-- What `HOTP.VAL` answers past its operand checks: its search (R253). -/
def hotpValFound (chk : Bool) (s : State) : Except ErrorKind Results :=
  (hotpSearch (candidateMatches .sha1 s.secret (s.ops.subLen.toNat - chk.toNat) chk s.submitted) s.ops.ctr.toNat
    (s.ops.window.toNat + 1) 0).map hotpValResults

/-- The checks of `HOTP.VAL` in their order, then its search (R253). -/
theorem hotpValBody_eq (chk : Bool) (s : State) :
    hotpValBody chk s =
      if DigitCountWrong chk s then .error .invalidDigits
      else if HasNonDigit s then .error .invalidOtp
      else if 2 ^ 63 ≤ s.ops.window.toNat then .error .invalidCounter
      else hotpValFound chk s := by
  rw [hotpValBody, parseSubmitted_eq]
  by_cases hlen : DigitCountWrong chk s
  · rw [if_pos hlen, if_pos hlen]
  · by_cases hchar : HasNonDigit s
    · rw [if_neg hlen, if_neg hlen, if_pos hchar, if_pos hchar]
    · rw [if_neg hlen, if_neg hlen, if_neg hchar, if_neg hchar]
      simp only [windowTooLarge, decide_eq_true_eq, hotpValFound]
      cases hotpSearch _ _ _ _ <;> rfl

/-- What `TOTP.VAL` answers past its operand checks: the reserved hash, then the search (R258). -/
def totpValFound : HashSel → State → Except ErrorKind Results
  | .reserved, _ => .error .cryptoError
  | .use a, s =>
    match totpSearch (candidateMatches a s.secret s.ops.subLen.toNat false s.submitted) (timeCounter s)
        s.ops.window.toNat with
    | none => .error .invalidOtp
    | some m => .ok (totpValResults (timeCounter s) m)

/-- The checks of `TOTP.VAL` in their order, then its search (R258). -/
theorem totpValBody_eq (alg : HashSel) (s : State) :
    totpValBody alg s =
      if s.ops.subLen.toNat < 6 ∨ 8 < s.ops.subLen.toNat then .error .invalidDigits
      else if HasNonDigit s then .error .invalidOtp
      else if s.ops.step = 0 ∨ s.ops.now.toInt < s.ops.start.toInt then .error .invalidTimestamp
      else if 2 ^ 63 ≤ s.ops.window.toNat then .error .invalidCounter
      else totpValFound alg s := by
  have hcount : DigitCountWrong false s ↔ s.ops.subLen.toNat < 6 ∨ 8 < s.ops.subLen.toNat := Iff.rfl
  rw [totpValBody, parseSubmitted_eq]
  simp only [hcount]
  by_cases hlen : s.ops.subLen.toNat < 6 ∨ 8 < s.ops.subLen.toNat
  · rw [if_pos hlen, if_pos hlen]
  · by_cases hchar : HasNonDigit s
    · rw [if_neg hlen, if_neg hlen, if_pos hchar, if_pos hchar]
    · rw [if_neg hlen, if_neg hlen, if_neg hchar, if_neg hchar]
      simp only [timestampInvalid, windowTooLarge, decide_eq_true_eq]
      cases alg <;> rfl

/-! ## Return codes (R137, R282) -/

theorem hmacBody_returnCode (alg : HashSel) (s : State) :
    returnCode (hmacBody alg s) = if alg = .reserved then -1 else 0 := by
  cases alg <;> rfl

theorem hotpGenBody_returnCode (d : Nat) (chk : Bool) (s : State) :
    returnCode (hotpGenBody d chk s) = if d < 6 ∨ 8 < d then -2 else 0 := by
  unfold hotpGenBody
  split <;> rfl

theorem totpGenBody_returnCode (alg : HashSel) (d : Nat) (s : State) :
    returnCode (totpGenBody alg d s) =
      if d < 6 ∨ 8 < d then -2
      else if s.ops.step = 0 ∨ s.ops.now.toInt < s.ops.start.toInt then -10
      else if alg = .reserved then -1
      else 0 := by
  unfold totpGenBody
  simp only [timestampInvalid, decide_eq_true_eq]
  split
  · rfl
  · split
    · rfl
    · cases alg <;> rfl

/-- Past the checks of `HOTP.VAL` the search finds a match, runs out of counters, or finds none (R253, R254). -/
theorem hotpValFound_returnCode (chk : Bool) (s : State) :
    returnCode (hotpValFound chk s) = -9 ∨ returnCode (hotpValFound chk s) = 0 ∨ returnCode (hotpValFound chk s) = -6 := by
  rw [hotpValFound]
  cases hsearch : hotpSearch _ _ _ _ with
  | ok m => exact .inr (.inl rfl)
  | error e =>
    rcases hotpSearch_error _ _ _ _ _ hsearch with rfl | rfl
    · exact .inl rfl
    · exact .inr (.inr rfl)

theorem totpValFound_use_returnCode (a : HashAlg) (s : State) :
    returnCode (totpValFound (.use a) s) = 0 ∨ returnCode (totpValFound (.use a) s) = -6 := by
  rw [totpValFound]
  split
  · exact .inr rfl
  · exact .inl rfl

/-- Settles O11: the checks of each body, in their order. -/
theorem firstFailingCheckIsReported : Obligations.FirstFailingCheckIsReported := by
  refine fun s t => ⟨fun alg hl ht => ?_, fun d chk hl ht => ?_, fun alg d hl ht => ?_, fun chk hl ht => ?_,
    fun alg hl ht => ?_⟩
  · rw [rc_toInt_of_exec Instr.noConfusion hl ht]
    exact hmacBody_returnCode alg s
  · rw [rc_toInt_of_exec Instr.noConfusion hl ht]
    exact hotpGenBody_returnCode d chk s
  · rw [rc_toInt_of_exec Instr.noConfusion hl ht]
    exact totpGenBody_returnCode alg d s
  · rw [rc_toInt_of_exec Instr.noConfusion hl ht, bodyOf, hotpValBody_eq]
    split_ifs
    · rfl
    · rfl
    · rfl
    · exact hotpValFound_returnCode chk s
  · rw [rc_toInt_of_exec Instr.noConfusion hl ht, bodyOf, totpValBody_eq]
    split_ifs with hlen hchar htime hwindow halg
    · rfl
    · rfl
    · rfl
    · rfl
    · rw [halg]
      rfl
    · cases alg with
      | reserved => exact absurd rfl halg
      | use a => exact totpValFound_use_returnCode a s

/-! ## Results (R134, R136) -/

/-- What R134 and R136 ask of the answer of the command's body: an error with a negative code, or results that hold what
the command's rule gives, and zero where it defines nothing. -/
def AllOrNothing (i : Instr) (s : State) : Except ErrorKind Results → Prop
  | .error e => e.code < 0
  | .ok r => DefinedResultsWritten i s r ∧ UnwrittenResultsZero i r

theorem hmacBody_allOrNothing (alg : HashSel) (s : State) : AllOrNothing (.hmac alg) s (hmacBody alg s) := by
  cases alg with
  | reserved => exact (by decide : ErrorKind.cryptoError.code < 0)
  | use a =>
    have hlen : (BitVec.ofNat 32 (hashLen a)).toNat = hashLen a := by cases a <;> rfl
    exact ⟨⟨a, rfl, Memory.read_ofBytes _, hlen⟩, rfl, rfl, rfl, rfl, rfl, rfl, rfl, rfl⟩

/-- The registers are wide enough for what `OTPGEN` returns (R48 to R53). -/
theorem holdsGenerated (a : HashAlg) (s : State) (c : Nat) (tr : Option DWord) {digits : Nat} (chk : Bool)
    (hd : ¬ (digits < 6 ∨ 8 < digits)) :
    HoldsGenerated (otpGen a s.secret c tr digits chk).results a s c tr digits chk := by
  have hfits : ∀ v, v < 2 ^ 32 → (BitVec.ofNat 32 v).toNat = v := fun v hv => Nat.mod_eq_of_lt hv
  have htag : (otpGen a s.secret c tr digits chk).tag.length = hashLen a := hmac_length _ _ _
  have hhash : hashLen a < 2 ^ 32 := by cases a <;> decide
  have hoffset : (otpGen a s.secret c tr digits chk).offset < 16 := selectOffset_lt _ _
  have hbin : (otpGen a s.secret c tr digits chk).binCode < 2 ^ 31 := extractBinCode_lt _ _
  have hotp : (otpGen a s.secret c tr digits chk).otp ≤ (otpGen a s.secret c tr digits chk).binCode := Nat.mod_le _ _
  have hstr : (otpGen a s.secret c tr digits chk).str.length = digits + chk.toNat := otpString_length _ _ _
  have hchk := chk.toNat_le
  exact ⟨Memory.read_ofBytes _, (hfits _ (htag ▸ hhash)).trans htag, hfits _ (by omega), hfits _ (by omega),
    hfits _ (by omega), Memory.read_ofBytes _, (hfits _ (by omega)).trans hstr⟩

theorem hotpGenBody_allOrNothing (digits : Nat) (chk : Bool) (s : State) :
    AllOrNothing (.hotpGen digits chk) s (hotpGenBody digits chk s) := by
  unfold hotpGenBody
  split
  · exact (by decide : ErrorKind.invalidDigits.code < 0)
  · rename_i hd
    exact ⟨holdsGenerated _ s _ _ chk hd, rfl, rfl, rfl⟩

/-- With `NOW` not below `START` the time-derived counter is that of R219. -/
theorem timeCounter_eq_centerOf {s : State} (h : s.ops.start.toInt ≤ s.ops.now.toInt) : (timeCounter s : Int) = centerOf s :=
  Int.toNat_of_nonneg (Int.ediv_nonneg (by omega) (Int.natCast_nonneg _))

/-- The time-derived counter fits in 64 bits (R219). -/
theorem timeCounter_lt {s : State} (h : s.ops.start.toInt ≤ s.ops.now.toInt) : timeCounter s < 2 ^ 64 := by
  have hcenter := timeCounter_eq_centerOf h
  have hle : centerOf s ≤ s.ops.now.toInt - s.ops.start.toInt := Int.ediv_le_self _ (by omega)
  have hnow := s.ops.now.toInt_lt
  have hstart := s.ops.start.le_toInt
  omega

theorem totpGenBody_allOrNothing (alg : HashSel) (digits : Nat) (s : State) :
    AllOrNothing (.totpGen alg digits) s (totpGenBody alg digits s) := by
  unfold totpGenBody
  split
  · exact (by decide : ErrorKind.invalidDigits.code < 0)
  · rename_i hd
    split
    · exact (by decide : ErrorKind.invalidTimestamp.code < 0)
    · rename_i htime
      obtain ⟨-, horder⟩ := (timestampInvalid_eq_false s).1 (Bool.eq_false_iff.2 htime)
      cases alg with
      | reserved => exact (by decide : ErrorKind.cryptoError.code < 0)
      | use a =>
        have htctr : (BitVec.ofNat 64 (timeCounter s)).toNat = timeCounter s := Nat.mod_eq_of_lt (timeCounter_lt horder)
        refine ⟨⟨a, rfl, ?_, ?_⟩, rfl, rfl⟩
        · exact (congrArg Nat.cast htctr).trans (timeCounter_eq_centerOf horder)
        · show HoldsGenerated _ a s (BitVec.ofNat 64 (timeCounter s)).toNat none digits false
          rw [htctr]
          exact holdsGenerated a s _ none false hd

/-- The match reported is in the window, and `POS` and `MATCHCTR` hold it. -/
theorem hotpValFound_allOrNothing (chk : Bool) {s : State} (hwindow : s.ops.window.toNat < 2 ^ 63) :
    AllOrNothing (.hotpVal chk) s (hotpValFound chk s) := by
  rw [hotpValFound]
  cases hsearch : hotpSearch _ _ _ _ with
  | error e =>
    rcases hotpSearch_error _ _ _ _ _ hsearch with rfl | rfl
    · exact (by decide : ErrorKind.invalidCounter.code < 0)
    · exact (by decide : ErrorKind.invalidOtp.code < 0)
  | ok m =>
    obtain ⟨-, hin, hctr, hmax, hhit⟩ := hotpSearch_sound _ _ _ _ _ hsearch
    have hpos : (BitVec.ofNat 64 m.1).toNat = m.1 := Nat.mod_eq_of_lt (by omega)
    have hmatch : (BitVec.ofNat 64 m.2).toNat = m.2 := Nat.mod_eq_of_lt (Nat.lt_succ_of_le hmax)
    refine ⟨⟨?_, ?_, ?_⟩, rfl, rfl, rfl, rfl, rfl, rfl, rfl, rfl⟩
    · exact (congrArg _ hmatch).trans (eq_of_beq hhit)
    · exact hmatch.trans (hctr.trans (congrArg _ hpos.symm))
    · exact hpos.trans_le (by omega)

theorem hotpValBody_allOrNothing (chk : Bool) (s : State) : AllOrNothing (.hotpVal chk) s (hotpValBody chk s) := by
  rw [hotpValBody_eq]
  split_ifs with hlen hchar hwindow
  · exact (by decide : ErrorKind.invalidDigits.code < 0)
  · exact (by decide : ErrorKind.invalidOtp.code < 0)
  · exact (by decide : ErrorKind.invalidCounter.code < 0)
  · exact hotpValFound_allOrNothing chk (Nat.lt_of_not_le hwindow)

/-- The match reported is in the window around the time-derived counter, and the three registers hold it. -/
theorem totpValFound_allOrNothing (alg : HashSel) {s : State} (horder : s.ops.start.toInt ≤ s.ops.now.toInt)
    (hwindow : s.ops.window.toNat < 2 ^ 63) : AllOrNothing (.totpVal alg) s (totpValFound alg s) := by
  cases alg with
  | reserved => exact (by decide : ErrorKind.cryptoError.code < 0)
  | use a =>
    rw [totpValFound]
    split
    · exact (by decide : ErrorKind.invalidOtp.code < 0)
    · rename_i m hsearch
      obtain ⟨htry, habs⟩ := totpSearch_sound _ _ _ _ hsearch
      obtain ⟨-, hctr, hmax, hhit⟩ := (totpTry_eq_some _ _ _ _).1 htry
      have hpos : (BitVec.ofInt 64 m.1).toInt = m.1 := BitVec.toInt_ofInt_eq_self (by decide) (by omega) (by omega)
      have hmatch : (BitVec.ofNat 64 m.2).toNat = m.2 := Nat.mod_eq_of_lt (Nat.lt_succ_of_le hmax)
      have htctr : (BitVec.ofNat 64 (timeCounter s)).toNat = timeCounter s := Nat.mod_eq_of_lt (timeCounter_lt horder)
      refine ⟨⟨a, rfl, ?_, ?_, ?_, ?_⟩, rfl, rfl, rfl, rfl, rfl, rfl, rfl⟩
      · exact (congrArg _ hmatch).trans (eq_of_beq hhit)
      · exact (congrArg Nat.cast htctr).trans (timeCounter_eq_centerOf horder)
      · show ((BitVec.ofNat 64 m.2).toNat : Int) = (BitVec.ofNat 64 (timeCounter s)).toNat + (BitVec.ofInt 64 m.1).toInt
        rw [hmatch, htctr, hpos, hctr]
      · exact (congrArg Int.natAbs hpos).trans_le habs

theorem totpValBody_allOrNothing (alg : HashSel) (s : State) : AllOrNothing (.totpVal alg) s (totpValBody alg s) := by
  rw [totpValBody_eq]
  split_ifs with hlen hchar htime hwindow
  · exact (by decide : ErrorKind.invalidDigits.code < 0)
  · exact (by decide : ErrorKind.invalidOtp.code < 0)
  · exact (by decide : ErrorKind.invalidTimestamp.code < 0)
  · exact (by decide : ErrorKind.invalidCounter.code < 0)
  · exact totpValFound_allOrNothing alg (by omega) (Nat.lt_of_not_le hwindow)

theorem bodyOf_allOrNothing (i : Instr) (s : State) (h : i ≠ .nop) : AllOrNothing i s (bodyOf i s) := by
  cases i with
  | nop => exact absurd rfl h
  | hmac alg => exact hmacBody_allOrNothing alg s
  | hotpGen digits chk => exact hotpGenBody_allOrNothing digits chk s
  | hotpVal chk => exact hotpValBody_allOrNothing chk s
  | totpGen alg digits => exact totpGenBody_allOrNothing alg digits s
  | totpVal alg => exact totpValBody_allOrNothing alg s

/-- Settles O8: what each body answers, error or results, is the whole outcome. -/
theorem resultsAreAllOrNothing : Obligations.ResultsAreAllOrNothing := by
  intro i s t hi hl ht
  have hbody := bodyOf_allOrNothing i s hi
  rw [exec_eq_afterBody hi hl] at ht
  cases ht
  cases hb : bodyOf i s with
  | error e =>
    rw [hb] at hbody
    exact .inr ⟨e, hbody, rfl⟩
  | ok r =>
    rw [hb] at hbody
    exact .inl ⟨r, rfl, hbody⟩

/-! ## What a body depends on (R136) -/

section
variable {s u : State}

theorem secret_congr (hlen : s.ops.keyLen = u.ops.keyLen) (h : ∀ k < s.ops.keyLen.toNat, s.key.read k = u.key.read k) :
    s.secret = u.secret := by
  rw [State.secret, State.secret, ← hlen]
  exact Memory.slice_congr _ _ _ h

theorem message_congr (hlen : s.ops.msgLen = u.ops.msgLen) (h : ∀ k < s.ops.msgLen.toNat, s.msg.read k = u.msg.read k) :
    s.message = u.message := by
  rw [State.message, State.message, ← hlen]
  exact Memory.slice_congr _ _ _ h

/-- A submitted string longer than the 9 characters that are read has no legal digit count (R250). -/
theorem parseSubmitted_congr (chk : Bool) (hlen : s.ops.subLen = u.ops.subLen)
    (h : ∀ k < 9, k < s.ops.subLen.toNat → s.sub.read k = u.sub.read k) : parseSubmitted chk s = parseSubmitted chk u := by
  have hdigits : submittedDigits chk s = submittedDigits chk u := by rw [submittedDigits, submittedDigits, hlen]
  rw [parseSubmitted, parseSubmitted, ← hdigits]
  by_cases hbad : submittedDigits chk s < 6 ∨ 8 < submittedDigits chk s
  · rw [if_pos hbad, if_pos hbad]
  · have hchk := chk.toNat_le
    have hsubmitted : s.submitted = u.submitted := by
      rw [State.submitted, State.submitted, ← hlen]
      refine Memory.slice_congr _ _ _ fun k hk => h k ?_ hk
      rw [submittedDigits] at hbad
      omega
    rw [hsubmitted]

theorem timestamp_congr (hnow : s.ops.now = u.ops.now) (hstart : s.ops.start = u.ops.start)
    (hstep : s.ops.step = u.ops.step) : timestampInvalid s = timestampInvalid u ∧ timeCounter s = timeCounter u := by
  simp only [timestampInvalid, timeCounter, hnow, hstart, hstep, and_self]

theorem windowTooLarge_congr (h : s.ops.window = u.ops.window) : windowTooLarge s = windowTooLarge u := by
  rw [windowTooLarge, windowTooLarge, h]

end

/-- Settles O12: a body reads the operands through the secret, the message, the parse of the submitted string and the
timestamp checks. -/
theorem outcomeDependsOnlyOnTheOperandsRead : Obligations.OutcomeDependsOnlyOnTheOperandsRead := by
  intro i s u t v hi hls hlu hkeyLen hkey hread ht hv
  have hsecret := secret_congr hkeyLen hkey
  have hbody : bodyOf i s = bodyOf i u := by
    cases i with
    | nop => exact absurd rfl hi
    | hmac alg =>
      obtain ⟨hlen, hmsg⟩ := hread
      simp only [bodyOf, hmacBody, hsecret, message_congr hlen hmsg]
    | hotpGen digits chk =>
      obtain ⟨hctr, htrunc⟩ := hread
      simp only [bodyOf, hotpGenBody, hsecret, hctr, htrunc]
    | hotpVal chk =>
      obtain ⟨hctr, hwindow, hlen, hsub⟩ := hread
      simp only [bodyOf, hotpValBody, hsecret, parseSubmitted_congr chk hlen hsub, windowTooLarge_congr hwindow, hctr, hwindow]
    | totpGen alg digits =>
      obtain ⟨hnow, hstart, hstep⟩ := hread
      obtain ⟨hinvalid, hcenter⟩ := timestamp_congr hnow hstart hstep
      simp only [bodyOf, totpGenBody, hsecret, hinvalid, hcenter]
    | totpVal alg =>
      obtain ⟨hnow, hstart, hstep, hwindow, hlen, hsub⟩ := hread
      obtain ⟨hinvalid, hcenter⟩ := timestamp_congr hnow hstart hstep
      simp only [bodyOf, totpValBody, hsecret, parseSubmitted_congr false hlen hsub, hinvalid, hcenter,
        windowTooLarge_congr hwindow, hwindow]
  rw [exec_eq_afterBody hi hls, hbody] at ht
  rw [exec_eq_afterBody hi hlu] at hv
  cases ht
  cases hv
  cases bodyOf i u <;> exact ⟨rfl, rfl⟩

end Sys2Proof.Machine
end

section
/-! Hashes and their padding (41_sha.md R150, R152, R176): the zero bytes fill the last block and no fewer would, and the
blocks are the padded message cut in order. -/

namespace Sys2Proof.Machine

/-! ## The padding -/

/-- `padZeros` is `z` of R152 as an integer: the residue is not negative. -/
theorem padZeros_cast {B : Nat} (hB : 0 < B) (F l : Nat) : (padZeros B F l : Int) = ((B : Int) - F - 1 - l) % B :=
  Int.toNat_of_nonneg (Int.emod_nonneg _ (by omega))

theorem padZeros_lt {B : Nat} (hB : 0 < B) (F l : Nat) : padZeros B F l < B := by
  have hlt : ((B : Int) - F - 1 - l) % B < B := Int.emod_lt_of_pos _ (by omega)
  rw [← padZeros_cast hB] at hlt
  exact_mod_cast hlt

/-- Among the numbers of zero bytes below a block, only `padZeros` makes whole blocks. -/
theorem fills_iff_eq_padZeros {B y : Nat} (hy : y < B) (F l : Nat) :
    (l + 1 + y + F) % B = 0 ↔ y = padZeros B F l := by
  have hmod : (y : Int) % B = y := Int.emod_eq_of_lt (by omega) (by omega)
  calc (l + 1 + y + F) % B = 0
      ↔ (B : Int) ∣ ((l + 1 + y + F : Nat) : Int) := by rw [← Nat.dvd_iff_mod_eq_zero, Int.natCast_dvd_natCast]
    _ ↔ (B : Int) ∣ y - ((B : Int) - F - 1 - l) + B := by push_cast; ring_nf
    _ ↔ (B : Int) ∣ y - ((B : Int) - F - 1 - l) := dvd_add_self_right
    _ ↔ (y : Int) % B = ((B : Int) - F - 1 - l) % B := by rw [← Int.modEq_iff_dvd, Int.modEq_comm, Int.ModEq]
    _ ↔ y = padZeros B F l := by rw [hmod, ← padZeros_cast (by omega), Int.natCast_inj]

@[simp] theorem padMessage_length (B F : Nat) (m : List Byte) :
    (padMessage B F m).length = m.length + 1 + padZeros B F m.length + F := by
  simp only [padMessage, List.length_append, List.length_singleton, List.length_replicate, beBytes_length]

theorem padMessage_fills {B : Nat} (hB : 0 < B) (F : Nat) (m : List Byte) : (padMessage B F m).length % B = 0 := by
  rw [padMessage_length]
  exact (fills_iff_eq_padZeros (padZeros_lt hB F m.length) F m.length).2 rfl

/-- No number of zero bytes below `padZeros` fills the last block. -/
theorem fewer_zeros_do_not_fill {B y : Nat} (hB : 0 < B) (F l : Nat) (hy : y < padZeros B F l) :
    (l + 1 + y + F) % B ≠ 0 :=
  fun h => hy.ne ((fills_iff_eq_padZeros (hy.trans (padZeros_lt hB F l)) F l).1 h)

/-! ## The cut into blocks -/

/-- Enough pieces, put together again, are the sequence. -/
theorem flatten_pieces {k : Nat} (n : Nat) {bs : List Byte} (h : bs.length ≤ k * n) : (pieces k n bs).flatten = bs := by
  induction n generalizing bs with
  | zero => exact (List.eq_nil_of_length_eq_zero (Nat.le_zero.1 h)).symm
  | succ n ih =>
    have hrest : (bs.drop k).length ≤ k * n := by rw [List.length_drop, Nat.sub_le_iff_le_add]; exact h
    rw [pieces, List.flatten_cons, ih hrest, List.take_append_drop]

/-- Pieces that the sequence is long enough for are full. -/
theorem length_of_mem_pieces {k : Nat} (n : Nat) {bs b : List Byte} (h : k * n ≤ bs.length) (hb : b ∈ pieces k n bs) :
    b.length = k := by
  induction n generalizing bs with
  | zero => cases hb
  | succ n ih =>
    rw [Nat.mul_succ] at h
    rcases List.mem_cons.1 hb with rfl | hb
    · exact List.length_take_of_le (by omega)
    · exact ih (by rw [List.length_drop]; omega) hb

theorem flatten_blocksOf {B : Nat} (hB : 0 < B) (F : Nat) (m : List Byte) : (blocksOf B F m).flatten = padMessage B F m :=
  flatten_pieces _ (Nat.mul_div_cancel' (Nat.dvd_of_mod_eq_zero (padMessage_fills hB F m))).ge

theorem length_of_mem_blocksOf {B F : Nat} {m b : List Byte} (hb : b ∈ blocksOf B F m) : b.length = B :=
  length_of_mem_pieces _ (Nat.mul_div_le _ B) hb

/-- Settles O14: the number of zero bytes is the only one below a block that makes whole blocks, for every block size. -/
theorem paddingFillsWholeBlocks : Obligations.PaddingFillsWholeBlocks := by
  refine ⟨fun B F m hBF => ?_, by decide⟩
  have hB : 0 < B := by omega
  exact ⟨⟨padZeros B F m.length, rfl, padZeros_cast hB F m.length, padMessage_fills hB F m,
    fun _ hy => fewer_zeros_do_not_fill hB F m.length hy⟩, flatten_blocksOf hB F m,
    fun _ hb => length_of_mem_blocksOf hb⟩

/-- Settles O13: each digest is its state's words as bytes. -/
theorem hashOutputLengths : Obligations.HashOutputLengths :=
  ⟨fun m => ⟨hash_length .sha1 m, hash_length .sha256 m, hash_length .sha512 m⟩, fun _ => ⟨rfl, rfl, rfl⟩,
    ⟨rfl, rfl, rfl⟩, ⟨rfl, rfl, rfl⟩⟩

end Sys2Proof.Machine
end

section
/-! The HMAC composition (42_hmac.md R191, R192, R195): the key block fills a block of the hash exactly, the masks go over
the block byte by byte, and the command `HMAC` writes the tag. -/

namespace Sys2Proof.Machine

/-! ## The key block (R191) -/

theorem hashLen_le_hashBlock (a : HashAlg) : hashLen a ≤ hashBlock a := by cases a <;> decide

/-- A key longer than the block is hashed first. -/
theorem keyBlock_of_lt {a : HashAlg} {k : List Byte} (h : hashBlock a < k.length) :
    keyBlock a k = hash a k ++ List.replicate (hashBlock a - hashLen a) 0x00#8 := by
  rw [keyBlock, if_pos h, hash_length]

/-- A key up to the block size is used as it is. -/
theorem keyBlock_of_le {a : HashAlg} {k : List Byte} (h : k.length ≤ hashBlock a) :
    keyBlock a k = k ++ List.replicate (hashBlock a - k.length) 0x00#8 := by
  rw [keyBlock, if_neg (Nat.not_lt.2 h)]

@[simp] theorem keyBlock_length (a : HashAlg) (k : List Byte) : (keyBlock a k).length = hashBlock a := by
  rcases Nat.lt_or_ge (hashBlock a) k.length with h | h
  · rw [keyBlock_of_lt h, List.length_append, hash_length, List.length_replicate,
      Nat.add_sub_cancel' (hashLen_le_hashBlock a)]
  · rw [keyBlock_of_le h, List.length_append, List.length_replicate, Nat.add_sub_cancel' h]

/-- Settles O15: a digest is no longer than a block, so in both cases the zeros fill the block exactly. -/
theorem keyBlockHasTheBlockSize : Obligations.KeyBlockHasTheBlockSize :=
  fun a k => ⟨keyBlock_length a k, keyBlock_of_lt, keyBlock_of_le⟩

/-! ## The tag (R192) -/

/-- A mask byte by byte, as R192 has it. -/
theorem maskWith_eq_map_range (pad : Byte) (bs : List Byte) :
    maskWith pad bs = (List.range bs.length).map fun i => bs.getD i 0 ^^^ pad := by
  refine List.ext_getElem (by simp [maskWith]) fun i hi _ => ?_
  have hi : i < bs.length := by simpa [maskWith] using hi
  simp [maskWith, List.getElem?_eq_getElem hi]

/-- The masked key block, over the indices of the block. -/
theorem maskWith_keyBlock (pad : Byte) (a : HashAlg) (k : List Byte) :
    maskWith pad (keyBlock a k) = (List.range (hashBlock a)).map fun i => (keyBlock a k).getD i 0 ^^^ pad := by
  rw [maskWith_eq_map_range, keyBlock_length]

/-- Settles O16: the key block has the block size, so masking its list of bytes is masking each byte of the block. -/
theorem hmacIsTheNestedHash : Obligations.HmacIsTheNestedHash := by
  refine fun a k m => ⟨?_, hmac_length a k m⟩
  rw [hmac, hmacInner, maskWith_keyBlock, maskWith_keyBlock]

/-! ## The command `HMAC` (R195) -/

/-- `HMAC` with a hash completes with the tag of the secret and the message, and no other result. -/
theorem exec_hmac_use (a : HashAlg) {s : State} (hl : ¬ LengthRefusedFor (.hmac (.use a)) s) :
    ∃ r, exec (.hmac (.use a)) s = .next (withOutcome s 0 r) ∧ HoldsBytes r.tag (hmac a s.secret s.message) ∧
      r.tagLen.toNat = hashLen a ∧ { r with tag := [], tagLen := 0 } = Results.zero := by
  obtain ⟨⟨a', ha, htag, hlen⟩, -⟩ := hmacBody_allOrNothing (.use a) s
  cases ha
  exact ⟨_, exec_eq_afterBody (by simp) hl, htag, hlen, rfl⟩

/-- `HMAC` with the reserved hash raises `CRYPTO_ERROR` (R194). -/
theorem exec_hmac_reserved {s : State} (hl : ¬ LengthRefusedFor (.hmac .reserved) s) :
    exec (.hmac .reserved) s = .next (withOutcome s 0xFFFFFFFF#32 Results.zero) :=
  exec_eq_afterBody (by simp) hl

theorem encode_hmac (alg : HashSel) : encode (.hmac alg) = 0x00000001#32 + 0x10#32 * BitVec.ofNat 32 alg.field := by
  rcases alg with (_ | _ | _) | _ <;> rfl

/-- The example of R195. -/
theorem hmac_sha1_hi_there :
    hmac .sha1 (List.replicate 20 0x0B#8) (ascii ['H', 'i', ' ', 'T', 'h', 'e', 'r', 'e']) =
      beBytes 20 0xb617318655057264e28bc0b6fb378c8ef146be00 := by decide +kernel

/-- Settles O17: past the length check the command is its body, which writes the tag or raises the error. -/
theorem hmacCommandWritesTheTag : Obligations.HmacCommandWritesTheTag :=
  ⟨fun a _ hl => exec_hmac_use a hl, fun _ hl => exec_hmac_reserved hl, encode_hmac, hmac_sha1_hi_there⟩

end Sys2Proof.Machine
end

section
/-! The datapath from a counter to an OTP string (43_otp_generate.md R210 to R218): the counter's bytes, the offset and
the code taken from the tag, the decimal digits and the check digit, each as the arithmetic its rule writes. -/

namespace Sys2Proof.Machine

/-! ## The counter (R210) -/

theorem be8_getD {c i : Nat} (hi : i < 8) : ((be8 c).getD i 0).toNat = c / 256 ^ (7 - i) % 256 :=
  congrArg BitVec.toNat (beBytes_getD 8 c i hi)

theorem beValue_be8 {c : Nat} (hc : c < 2 ^ 64) : beValue (be8 c) = c :=
  (beValue_beBytes 8 c).trans (Nat.mod_eq_of_lt hc)

/-- Settles O18: eight big-endian bytes stand for the counter modulo `2^64`, and generation uses it through them only. -/
theorem counterIsSerialisedBigEndian : Obligations.CounterIsSerialisedBigEndian :=
  ⟨fun c hc => ⟨beBytes_length 8 c, fun _ => be8_getD, beValue_be8 hc⟩, fun _ _ _ _ _ _ => rfl,
    by decide, by decide, by decide, by decide⟩

/-! ## The offset (R212, R214) -/

theorem dynamicOffset_eq (tag : List Byte) : dynamicOffset tag = (tag.getD (tag.length - 1) 0).toNat % 16 := by
  rw [dynamicOffset, BitVec.toNat_and]
  exact Nat.and_two_pow_sub_one_eq_mod _ 4

/-- On the signed and on the unsigned content, the operands that fix the offset are the same (R17). -/
theorem truncation_dynamic_iff (tr : DWord) : (tr.toInt < 0 ∨ 16 ≤ tr.toInt) ↔ 16 ≤ tr.toNat := by
  have hlt := tr.isLt
  rw [BitVec.toInt_eq_toNat_cond]
  split <;> omega

/-- Offset selection on the unsigned content (R212). -/
theorem selectOffset_some (tag : List Byte) (tr : DWord) :
    selectOffset tag (some tr) =
      if tr.toNat < 16 then tr.toNat else (tag.getD (tag.length - 1) 0).toNat % 16 := by
  by_cases hfixed : tr.toNat < 16
  · rw [selectOffset, if_neg ((truncation_dynamic_iff tr).not.2 (Nat.not_le.2 hfixed)), if_pos hfixed]
  · rw [selectOffset, if_pos ((truncation_dynamic_iff tr).2 (Nat.le_of_not_lt hfixed)), if_neg hfixed, dynamicOffset_eq]

/-- Settles O19: the signed range 0 to 15 is the unsigned one, and the mask of the last byte is its residue. -/
theorem offsetIsFixedOrTheLastNibble : Obligations.OffsetIsFixedOrTheLastNibble := by
  intro tag tr
  have hdynamic (h : 16 ≤ tr.toNat) : selectOffset tag (some tr) = (tag.getD (tag.length - 1) 0).toNat % 16 := by
    rw [selectOffset_some, if_neg (Nat.not_lt.2 h)]
  have hfixed (h : tr.toNat < 16) : selectOffset tag (some tr) = tr.toNat := by
    rw [selectOffset_some, if_pos h]
  refine ⟨fun h => hdynamic ((truncation_dynamic_iff tr).1 h), fun hlow hhigh => ?_, hfixed, hdynamic, dynamicOffset_eq tag⟩
  have hsmall : tr.toNat < 16 := Nat.lt_of_not_le fun h => by
    have := (truncation_dynamic_iff tr).2 h
    omega
  rw [hfixed hsmall, BitVec.toInt_eq_toNat_of_lt (by omega)]

/-- Settles O21: the shortest tag has 20 bytes, and an offset is at most 15. -/
theorem selectedBytesLieInsideTheTag : Obligations.SelectedBytesLieInsideTheTag := by
  intro a k m tr
  have hoffset := selectOffset_lt (hmac a k m) tr
  have hlen : 20 ≤ hashLen a := by cases a <;> decide
  rw [hmac_length]
  omega

/-! ## The code (R213) -/

theorem extractBinCode_eq (tag : List Byte) (offset : Nat) :
    extractBinCode tag offset =
      (tag.getD offset 0).toNat % 128 * 2 ^ 24 + (tag.getD (offset + 1) 0).toNat * 2 ^ 16 +
        (tag.getD (offset + 2) 0).toNat * 2 ^ 8 + (tag.getD (offset + 3) 0).toNat := by
  have hmask (b : Byte) : (b &&& 0x7F#8).toNat = b.toNat % 128 := by
    rw [BitVec.toNat_and]
    exact Nat.and_two_pow_sub_one_eq_mod _ 7
  rw [extractBinCode, hmask]

/-- Settles O20: the mask of the first byte is its residue modulo 128. -/
theorem binCodeIsFourBytesWithoutTheTopBit : Obligations.BinCodeIsFourBytesWithoutTheTopBit :=
  ⟨fun tag offset => ⟨extractBinCode_eq tag offset, Nat.le_sub_one_of_lt (extractBinCode_lt tag offset)⟩, by decide⟩

/-! ## The decimal digits (R216) -/

theorem decimal_getD (v : Nat) {n j : Nat} (hj : j < n) :
    ((decimal v n).getD j 0).toNat = 0x30 + v / 10 ^ (n - 1 - j) % 10 := by
  have hdigit : (decimal v n).getD j 0 = digitByte (v / 10 ^ (n - 1 - j) % 10) := by
    simp [decimal, List.getD_eq_getElem?_getD, hj]
  rw [hdigit, digitByte_toNat _ (Nat.mod_lt _ (by decide))]

/-- Reading the digits back gives the value modulo `10^n`. -/
theorem foldl_decimal (v n : Nat) : (decimal v n).foldl (fun x b => 10 * x + (b.toNat - 0x30)) 0 = v % 10 ^ n := by
  induction n generalizing v with
  | zero => simp [decimal, Nat.mod_one]
  | succ n ih =>
    have hlast : (digitByte (v % 10)).toNat = 0x30 + v % 10 := digitByte_toNat _ (Nat.mod_lt _ (by decide))
    rw [decimal_succ, List.foldl_append, ih, List.foldl_cons, List.foldl_nil, hlast, Nat.add_sub_cancel_left,
      pow_succ', Nat.mod_mul, Nat.add_comm]

/-- Settles O22: the digits one by one, and their value by induction on their number. -/
theorem decimalDigitsAreTheValue : Obligations.DecimalDigitsAreTheValue :=
  ⟨fun v n hv => ⟨decimal_length v n, fun _ => decimal_getD v, (foldl_decimal v n).trans (Nat.mod_eq_of_lt hv)⟩,
    by decide⟩

/-! ## The check digit (R218) -/

theorem luhn_lt (v n : Nat) : luhn v n < 10 := Nat.mod_lt _ (by decide)

/-- Appending a digit moves every digit of `v` one place up: the test doubles those that `LUHN` doubles, and counts the
appended digit once. -/
theorem luhnTestSum_append (v n : Nat) {c : Nat} (hc : c < 10) :
    luhnTestSum (10 * v + c) (n + 1) = c + luhnTotal v n := by
  have hdigit (j : Nat) : (10 * v + c) / 10 ^ (j + 1) % 10 = v / 10 ^ j % 10 := by
    rw [pow_succ', ← Nat.div_div_eq_div_mul, show (10 * v + c) / 10 = v by omega]
  have hplace (j : Nat) : (j + 1) % 2 = 1 ↔ j % 2 = 0 := by omega
  have hlast : (10 * v + c) % 10 = c := by omega
  rw [luhnTestSum, luhnTotal, List.range_succ_eq_map, List.map_cons, List.sum_cons, List.map_map]
  congr 1
  · simp [hlast]
  · refine congrArg List.sum (List.map_congr_left fun j _ => ?_)
    simp only [Function.comp_apply, Nat.succ_eq_add_one, hdigit, hplace, luhnTerm]

/-- Settles O23: the check digit completes the total to a multiple of 10. -/
theorem luhnDigitPassesTheLuhnTest : Obligations.LuhnDigitPassesTheLuhnTest := by
  refine ⟨fun v n => ⟨luhn_lt v n, ?_⟩, by decide, by decide, by decide, by decide⟩
  rw [luhnTestSum_append v n (luhn_lt v n), luhn]
  omega

end Sys2Proof.Machine
end

section
/-! The generation commands (43_otp_generate.md R219, R225, R227): the time-derived counter, and `HOTP.GEN` and `TOTP.GEN`
as their checks followed by one `OTPGEN`. -/

namespace Sys2Proof.Machine

/-! ## The time-derived counter (R219) -/

/-- The time-derived counter is the floor of the quotient (R219). -/
theorem timeCounter_floor {s : State} (h : TimestampOk s) :
    (timeCounter s : Int) * s.ops.step.toNat ≤ s.ops.now.toInt - s.ops.start.toInt ∧
      s.ops.now.toInt - s.ops.start.toInt < ((timeCounter s : Int) + 1) * s.ops.step.toNat := by
  obtain ⟨hstep, horder⟩ := h
  have hne : s.ops.step.toNat ≠ 0 := fun h0 => hstep (BitVec.eq_of_toNat_eq h0)
  have hpos : (0 : Int) < s.ops.step.toNat := by omega
  rw [timeCounter_eq_centerOf horder, centerOf]
  exact ⟨Int.ediv_mul_le _ hpos.ne', Int.lt_ediv_add_one_mul_self _ hpos⟩

/-- With a legal digit count, `TOTP.GEN` answers `INVALID_TIMESTAMP` for an invalid timestamp only (R219, R227). -/
theorem totpGen_rc_eq_invalidTimestamp_iff {s t : State} {alg : HashSel} {d : Nat}
    (hl : ¬ LengthRefusedFor (.totpGen alg d) s) (hlow : 6 ≤ d) (hhigh : d ≤ 8)
    (ht : exec (.totpGen alg d) s = .next t) :
    t.rc = 0xFFFFFFF6#32 ↔ s.ops.step = 0 ∨ s.ops.now.toInt < s.ops.start.toInt := by
  have hcode : t.rc = 0xFFFFFFF6#32 ↔ t.rc.toInt = -10 := (BitVec.toInt_inj (y := 0xFFFFFFF6#32)).symm
  rw [hcode, rc_toInt_of_exec Instr.noConfusion hl ht, bodyOf, totpGenBody_returnCode, if_neg (by omega)]
  split_ifs with htime halg
  · exact ⟨fun _ => htime, fun _ => rfl⟩
  · exact ⟨fun h => absurd h (by decide), fun h => absurd h htime⟩
  · exact ⟨fun h => absurd h (by decide), fun h => absurd h htime⟩

/-- Settles O24: the quotient's two inequalities, the bound from the range of the timestamps, and the check of `TOTP.GEN`. -/
theorem timeStepIsTheFlooredQuotient : Obligations.TimeStepIsTheFlooredQuotient := by
  have hvalue {s : State} {start now : Int} {step : Word} (hstep : s.ops.step = step)
      (hstart : s.ops.start.toInt = start) (hnow : s.ops.now.toInt = now) :
      timeCounter s = ((now - start) / (step.toNat : Int)).toNat := by
    rw [timeCounter, hstep, hstart, hnow]
  exact ⟨fun s h => ⟨timeCounter_floor h, Nat.le_sub_one_of_lt (timeCounter_lt h.2)⟩,
    fun s t alg d hl hlow hhigh ht => totpGen_rc_eq_invalidTimestamp_iff hl hlow hhigh ht,
    fun s hstep => ⟨hvalue hstep, hvalue hstep, hvalue hstep, hvalue hstep⟩, fun s => hvalue⟩

/-! ## What a generation command answers (R225, R227) -/

/-- The results of `HOTP.GEN`: what `OTPGEN` returns at `CTR` (R225). -/
def hotpGenResults (digits : Nat) (chk : Bool) (s : State) : Results :=
  (otpGen .sha1 s.secret s.ops.ctr.toNat (some s.ops.trunc) digits chk).results

/-- The results of `TOTP.GEN`: what `OTPGEN` returns at the time-derived counter, and that counter (R227). -/
def totpGenResults (a : HashAlg) (digits : Nat) (s : State) : Results :=
  { (otpGen a s.secret (timeCounter s) none digits false).results with tctr := BitVec.ofNat 64 (timeCounter s) }

section
variable {s : State} {digits : Nat}

/-- A digit count outside 6 to 8 ends `HOTP.GEN` with `INVALID_DIGITS`. -/
theorem exec_hotpGen_digits {chk : Bool} (hl : ¬ LengthRefusedFor (.hotpGen digits chk) s)
    (hd : digits < 6 ∨ 8 < digits) :
    exec (.hotpGen digits chk) s = .next (withOutcome s 0xFFFFFFFE#32 Results.zero) := by
  have hbody : bodyOf (.hotpGen digits chk) s = .error .invalidDigits := if_pos hd
  rw [exec_eq_afterBody Instr.noConfusion hl, hbody]; rfl

theorem exec_hotpGen {chk : Bool} (hl : ¬ LengthRefusedFor (.hotpGen digits chk) s) (hd : ¬ (digits < 6 ∨ 8 < digits)) :
    exec (.hotpGen digits chk) s = .next (withOutcome s 0 (hotpGenResults digits chk s)) := by
  have hbody : bodyOf (.hotpGen digits chk) s = .ok (hotpGenResults digits chk s) := if_neg hd
  rw [exec_eq_afterBody Instr.noConfusion hl, hbody]; rfl

/-- A digit count outside 6 to 8 ends `TOTP.GEN` with `INVALID_DIGITS`, whatever the timestamp and the hash. -/
theorem exec_totpGen_digits {alg : HashSel} (hl : ¬ LengthRefusedFor (.totpGen alg digits) s)
    (hd : digits < 6 ∨ 8 < digits) :
    exec (.totpGen alg digits) s = .next (withOutcome s 0xFFFFFFFE#32 Results.zero) := by
  have hbody : bodyOf (.totpGen alg digits) s = .error .invalidDigits := if_pos hd
  rw [exec_eq_afterBody Instr.noConfusion hl, hbody]; rfl

theorem timestampInvalid_eq_true (s : State) : timestampInvalid s = true ↔ ¬ TimestampOk s := by
  rw [← Bool.not_eq_false, timestampInvalid_eq_false]; rfl

/-- An invalid timestamp is reported before the hash is looked at. -/
theorem exec_totpGen_timestamp {alg : HashSel} (hl : ¬ LengthRefusedFor (.totpGen alg digits) s)
    (hd : ¬ (digits < 6 ∨ 8 < digits)) (htime : ¬ TimestampOk s) :
    exec (.totpGen alg digits) s = .next (withOutcome s 0xFFFFFFF6#32 Results.zero) := by
  have hbody : bodyOf (.totpGen alg digits) s = .error .invalidTimestamp :=
    (if_neg hd).trans (if_pos ((timestampInvalid_eq_true s).2 htime))
  rw [exec_eq_afterBody Instr.noConfusion hl, hbody]; rfl

theorem exec_totpGen_reserved (hl : ¬ LengthRefusedFor (.totpGen .reserved digits) s)
    (hd : ¬ (digits < 6 ∨ 8 < digits)) (htime : TimestampOk s) :
    exec (.totpGen .reserved digits) s = .next (withOutcome s 0xFFFFFFFF#32 Results.zero) := by
  have hbody : bodyOf (.totpGen .reserved digits) s = .error .cryptoError :=
    (if_neg hd).trans (if_neg fun h => (timestampInvalid_eq_true s).1 h htime)
  rw [exec_eq_afterBody Instr.noConfusion hl, hbody]; rfl

theorem exec_totpGen {a : HashAlg} (hl : ¬ LengthRefusedFor (.totpGen (.use a) digits) s)
    (hd : ¬ (digits < 6 ∨ 8 < digits)) (htime : TimestampOk s) :
    exec (.totpGen (.use a) digits) s = .next (withOutcome s 0 (totpGenResults a digits s)) := by
  have hbody : bodyOf (.totpGen (.use a) digits) s = .ok (totpGenResults a digits s) :=
    (if_neg hd).trans (if_neg fun h => (timestampInvalid_eq_true s).1 h htime)
  rw [exec_eq_afterBody Instr.noConfusion hl, hbody]; rfl

end

/-- What is generated, from the offset selected and the code at that offset (R212 to R217). -/
theorem HoldsGenerated.at_offset {r : Results} {a : HashAlg} {s : State} {c digits offset binCode : Nat}
    {tr : Option DWord} {chk : Bool} (h : HoldsGenerated r a s c tr digits chk)
    (hoffset : selectOffset (hmac a s.secret (be8 c)) tr = offset)
    (hbin : extractBinCode (hmac a s.secret (be8 c)) offset = binCode) :
    HoldsBytes r.tag (hmac a s.secret (be8 c)) ∧ r.tagLen.toNat = hashLen a ∧ r.offset.toNat = offset ∧
      r.binCode.toNat = binCode ∧ r.otpVal.toNat = binCode % 10 ^ digits ∧
      HoldsBytes r.otp (decimal (binCode % 10 ^ digits) digits ++
        if chk then decimal (luhn (binCode % 10 ^ digits) digits) 1 else []) ∧
      r.otpLen.toNat = digits + chk.toNat := by
  subst hoffset hbin
  rw [← otpString_eq]
  exact h

/-! ## `HOTP.GEN` (R225) -/

theorem encode_hotpGen_toNat {digits : Nat} (chk : Bool) (hd : digits < 16) :
    (encode (.hotpGen digits chk)).toNat = 0x00000002 + 0x100 * digits + 0x1000 * chk.toNat := by
  have hchk := chk.toNat_lt
  rw [encode, commandWord_toNat hchk hd (by decide) (by decide)]
  omega

/-- The results of the example of R225: the vector secret at counter 0. -/
def hotpGenExample : Results :=
  { Results.zero with
    tag := Memory.ofBytes (beBytes 20 0xcc93cf18508d94934c64b65d8ba7667fb7cde4b0)
    tagLen := 20, offset := 0, binCode := 0x4C93CF18#32, otpVal := 755224
    otp := Memory.ofBytes (ascii ['7', '5', '5', '2', '2', '4']), otpLen := 6 }

theorem exec_hotpGen_example :
    exec (.hotpGen 6 false) stateK20 = .next (withOutcome stateK20 0 hotpGenExample) :=
  exec_ok _ _ _ (by decide) (by decide) (by decide +kernel)

/-- Settles O25: the results are what `OTPGEN` returns, whose offset and code the datapath laws give. -/
theorem hotpGenWritesTheOtp : Obligations.HotpGenWritesTheOtp := by
  refine ⟨fun s digits chk hl hlow hhigh => ?_, fun s digits chk => exec_hotpGen_digits,
    fun digits chk => encode_hotpGen_toNat chk, hotpGenExample, exec_hotpGen_example, Memory.read_ofBytes _, rfl, rfl, rfl,
    Memory.read_ofBytes _, rfl⟩
  intro tag offset binCode otp
  have hd : ¬ (digits < 6 ∨ 8 < digits) := by omega
  have hselect : selectOffset tag (some s.ops.trunc) = offset := by
    rw [selectOffset_some, hmac_length]; rfl
  obtain ⟨htag, htagLen, hoffset, hbin, hotp, hstr, hlen⟩ :=
    (holdsGenerated .sha1 s s.ops.ctr.toNat (some s.ops.trunc) chk hd).at_offset hselect (extractBinCode_eq tag offset)
  exact ⟨hotpGenResults digits chk s, exec_hotpGen hl hd, htag, BitVec.eq_of_toNat_eq htagLen, hoffset, hbin, hotp, hstr,
    hlen, rfl, rfl, rfl⟩

/-! ## `TOTP.GEN` (R227) -/

theorem encode_totpGen_toNat {digits : Nat} (alg : HashSel) (hd : digits < 16) :
    (encode (.totpGen alg digits)).toNat = 0x00000004 + 0x10 * alg.field + 0x100 * digits := by
  rw [encode, commandWord_toNat (by decide) hd (HashSel.field_lt alg) (by decide)]
  omega

/-- The state of the example of R227: the vector secret at `NOW = 59`. -/
def stateAt59 : State := { stateK20 with ops := { stateK20.ops with now := 59 } }

/-- The results of the example of R227. -/
def totpGenExample : Results :=
  { Results.zero with
    tag := Memory.ofBytes (beBytes 20 0x75a48a19d4cbe100644e8ac1397eea747a2d33ab)
    tagLen := 20, offset := 11, binCode := 1094287082, otpVal := 94287082
    otp := Memory.ofBytes (ascii ['9', '4', '2', '8', '7', '0', '8', '2']), otpLen := 8, tctr := 1 }

theorem exec_totpGen_example :
    exec (.totpGen (.use .sha1) 8) stateAt59 = .next (withOutcome stateAt59 0 totpGenExample) :=
  exec_ok _ _ _ (by decide) (by decide) (by decide +kernel)

/-- Settles O26: as for `HOTP.GEN`, at the time-derived counter and with the dynamic offset. -/
theorem totpGenWritesTheOtp : Obligations.TotpGenWritesTheOtp := by
  refine ⟨fun s a digits hl hlow hhigh htime => ?_, fun s alg digits hl => ⟨exec_totpGen_digits hl, ?_, ?_⟩,
    fun alg digits => encode_totpGen_toNat alg, totpGenExample, exec_totpGen_example, rfl, rfl, rfl,
    Memory.read_ofBytes _⟩
  · intro tag offset binCode otp
    have hd : ¬ (digits < 6 ∨ 8 < digits) := by omega
    have htctr : (BitVec.ofNat 64 (timeCounter s)).toNat = timeCounter s := Nat.mod_eq_of_lt (timeCounter_lt htime.2)
    have hselect : selectOffset tag none = offset := by
      rw [selectOffset, dynamicOffset_eq, hmac_length]
    obtain ⟨htag, htagLen, hoffset, hbin, hotp, hstr, hlen⟩ :=
      (holdsGenerated a s (timeCounter s) none false hd).at_offset hselect (extractBinCode_eq tag offset)
    rw [if_neg Bool.false_ne_true, List.append_nil] at hstr
    exact ⟨totpGenResults a digits s, exec_totpGen hl hd htime,
      (congrArg Nat.cast htctr).trans (timeCounter_eq_centerOf htime.2), htag, htagLen, hoffset, hbin, hotp, hstr, hlen,
      rfl, rfl⟩
  · exact fun hlow hhigh => exec_totpGen_timestamp hl (by omega)
  · rintro hlow hhigh htime rfl
    exact exec_totpGen_reserved hl (by omega) htime

/-! ## One `OTPGEN` behind both commands, and one HMAC behind it -/

/-- For `HOTP.GEN` the length check looks at `KEYLEN` alone, which it shares with every command but `NOP` (R133). -/
theorem hotpGen_not_refused {i : Instr} {s u : State} {digits : Nat} {chk : Bool} (hi : i ≠ .nop)
    (hl : ¬ LengthRefusedFor i u) (hparams : u.params = s.params) (hkeyLen : u.ops.keyLen = s.ops.keyLen) :
    ¬ LengthRefusedFor (.hotpGen digits chk) s := by
  rintro (⟨-, hlong⟩ | ⟨⟨alg, halg⟩, -⟩)
  · exact hl (.inl ⟨hi, by rwa [hparams, hkeyLen]⟩)
  · cases halg

/-- A truncation operand of all ones is negative, so the offset is dynamic. -/
theorem otpGen_trunc_ones (a : HashAlg) (k : List Byte) (c digits : Nat) (chk : Bool) :
    otpGen a k c (some 0xFFFFFFFFFFFFFFFF#64) digits chk = otpGen a k c none digits chk := by
  have hoffset (tag : List Byte) : selectOffset tag (some 0xFFFFFFFFFFFFFFFF#64) = selectOffset tag none := by
    rw [selectOffset_some, if_neg (by decide), ← dynamicOffset_eq]; rfl
  simp only [otpGen, hoffset]

theorem Generated.results_withTctr (g : Generated) (x : DWord) :
    { { g.results with tctr := x } with tctr := 0 } = g.results := rfl

/-- The state in which `HOTP.GEN` does what `TOTP.GEN` does in `s`: the time-derived counter in `CTR` and a truncation
operand that selects the dynamic offset. -/
def State.atTimeCounter (s : State) : State :=
  { s with ops := { s.ops with ctr := BitVec.ofInt 64 (centerOf s), trunc := 0xFFFFFFFFFFFFFFFF#64 } }

theorem atTimeCounter_ctr_toNat {s : State} (horder : s.ops.start.toInt ≤ s.ops.now.toInt) :
    s.atTimeCounter.ops.ctr.toNat = timeCounter s := by
  show (BitVec.ofInt 64 (centerOf s)).toNat = timeCounter s
  rw [← timeCounter_eq_centerOf horder, BitVec.ofInt_natCast]
  exact Nat.mod_eq_of_lt (timeCounter_lt horder)

theorem hotpGenResults_atTimeCounter {s : State} (digits : Nat) (horder : s.ops.start.toInt ≤ s.ops.now.toInt) :
    hotpGenResults digits false s.atTimeCounter = { totpGenResults .sha1 digits s with tctr := 0 } := by
  have htrunc : s.atTimeCounter.ops.trunc = 0xFFFFFFFFFFFFFFFF#64 := rfl
  have hsecret : s.atTimeCounter.secret = s.secret := rfl
  rw [hotpGenResults, hsecret, htrunc, atTimeCounter_ctr_toNat horder, otpGen_trunc_ones]
  exact (Generated.results_withTctr _ _).symm

/-- Settles O27: both commands check the digit count first; past it the results agree but for `TCTR`. -/
theorem totpGenIsHotpGenAtTheTimeCounter : Obligations.TotpGenIsHotpGenAtTheTimeCounter := by
  intro s t u digits hl htime ht hu
  change exec (.hotpGen digits false) s.atTimeCounter = .next u at hu
  have hlu : ¬ LengthRefusedFor (.hotpGen digits false) s.atTimeCounter :=
    hotpGen_not_refused Instr.noConfusion hl rfl rfl
  by_cases hd : digits < 6 ∨ 8 < digits
  · rw [exec_totpGen_digits hl hd] at ht
    rw [exec_hotpGen_digits hlu hd] at hu
    cases ht
    cases hu
    exact ⟨rfl, rfl⟩
  · rw [exec_totpGen hl hd htime] at ht
    rw [exec_hotpGen hlu hd] at hu
    cases ht
    cases hu
    exact ⟨rfl, (hotpGenResults_atTimeCounter digits htime.2).symm⟩

/-- Eight message bytes that are the digits of `c` to base 256 are `be8(c)` (R210). -/
theorem message_eq_be8 {u : State} {c : Nat} (hlen : u.ops.msgLen = 8)
    (hbytes : ∀ i < 8, (u.msg.read i).toNat = c / 256 ^ (7 - i) % 256) : u.message = be8 c := by
  rw [State.message, hlen, Memory.slice, be8, beBytes]
  refine List.map_congr_left fun i hi => BitVec.eq_of_toNat_eq ?_
  rw [hbytes i (List.mem_range.1 hi), BitVec.toNat_ofNat]

theorem exec_hmac_tag {a : HashAlg} {u v : State} (hl : ¬ LengthRefusedFor (.hmac (.use a)) u)
    (hv : exec (.hmac (.use a)) u = .next v) :
    v.res.tag = Memory.ofBytes (hmac a u.secret u.message) ∧ v.res.tagLen = BitVec.ofNat 32 (hashLen a) := by
  rw [exec_eq_afterBody Instr.noConfusion hl] at hv
  cases hv
  exact ⟨rfl, rfl⟩

theorem otpGen_results_tag (a : HashAlg) (k : List Byte) (c : Nat) (tr : Option DWord) (digits : Nat) (chk : Bool) :
    (otpGen a k c tr digits chk).results.tag = Memory.ofBytes (hmac a k (be8 c)) ∧
      (otpGen a k c tr digits chk).results.tagLen = BitVec.ofNat 32 (hashLen a) :=
  ⟨rfl, congrArg (BitVec.ofNat 32) (hmac_length a k (be8 c))⟩

/-- Settles O28: the two commands hash the same key with the same eight bytes. -/
theorem hotpGenTagIsHmacOfTheCounterBytes : Obligations.HotpGenTagIsHmacOfTheCounterBytes := by
  intro s t u v digits chk hlow hhigh hl hkey hkeyLen hparams hmsgLen hbytes ht hv
  have hsecret : u.secret = s.secret := by rw [State.secret, State.secret, hkey, hkeyLen]
  obtain ⟨htag, htagLen⟩ := otpGen_results_tag .sha1 s.secret s.ops.ctr.toNat (some s.ops.trunc) digits chk
  obtain ⟨hvtag, hvtagLen⟩ := exec_hmac_tag hl hv
  rw [hsecret, message_eq_be8 hmsgLen hbytes] at hvtag
  rw [exec_hotpGen (hotpGen_not_refused Instr.noConfusion hl hparams hkeyLen) (by omega)] at ht
  cases ht
  exact ⟨htag.trans hvtag.symm, htagLen.trans hvtagLen.symm⟩

end Sys2Proof.Machine
end

section
/-! The operand checks of the validation commands (44_otp_validate.md R250, R251): which check ends `HOTP.VAL` and
`TOTP.VAL`, in their order, and what a command that ends with `RC = 0` was. -/

namespace Sys2Proof.Machine

/-! ## The checks as conditions -/

/-- The submitted string is legal when it passes the two checks of its parse (R250). -/
theorem submittedOk_iff (chk : Bool) (s : State) : SubmittedOk chk s ↔ ¬ DigitCountWrong chk s ∧ ¬ HasNonDigit s := by
  rw [hasNonDigit_iff, Bool.not_eq_false, submitted_all_digits, SubmittedOk, not_or, not_lt, not_lt, and_assoc]

/-- With a legal digit count, only a character that is no digit makes the string illegal. -/
theorem hasNonDigit_of_not_submittedOk {chk : Bool} {s : State} (hlen : ¬ DigitCountWrong chk s)
    (h : ¬ SubmittedOk chk s) : HasNonDigit s :=
  by_contra fun hchar => h ((submittedOk_iff chk s).2 ⟨hlen, hchar⟩)

theorem not_timestampOk_iff (s : State) : ¬ TimestampOk s ↔ s.ops.step = 0 ∨ s.ops.now.toInt < s.ops.start.toInt := by
  rw [← timestampInvalid_eq_true, timestampInvalid, decide_eq_true_eq]

theorem TimestampOk.checked {s : State} (h : TimestampOk s) : ¬ (s.ops.step = 0 ∨ s.ops.now.toInt < s.ops.start.toInt) :=
  fun hbad => (not_timestampOk_iff s).2 hbad h

/-! ## `HOTP.VAL`, check by check -/

section
variable {s : State} {chk : Bool} (hl : ¬ LengthRefusedFor (.hotpVal chk) s)
include hl

theorem exec_hotpVal_of_body {o : Except ErrorKind Results} (hbody : hotpValBody chk s = o) :
    exec (.hotpVal chk) s = .next (s.afterBody o) :=
  hbody ▸ exec_eq_afterBody Instr.noConfusion hl

theorem exec_hotpVal_digits (h : DigitCountWrong chk s) :
    exec (.hotpVal chk) s = .next (withOutcome s 0xFFFFFFFE#32 Results.zero) :=
  exec_hotpVal_of_body (o := .error .invalidDigits) hl (by rw [hotpValBody_eq, if_pos h])

theorem exec_hotpVal_nonDigit (hlen : ¬ DigitCountWrong chk s) (h : HasNonDigit s) :
    exec (.hotpVal chk) s = .next (withOutcome s 0xFFFFFFFA#32 Results.zero) :=
  exec_hotpVal_of_body (o := .error .invalidOtp) hl (by rw [hotpValBody_eq, if_neg hlen, if_pos h])

theorem exec_hotpVal_window (hsub : SubmittedOk chk s) (h : 2 ^ 63 ≤ s.ops.window.toNat) :
    exec (.hotpVal chk) s = .next (withOutcome s 0xFFFFFFF7#32 Results.zero) := by
  obtain ⟨hlen, hchar⟩ := (submittedOk_iff chk s).1 hsub
  exact exec_hotpVal_of_body (o := .error .invalidCounter) hl
    (by rw [hotpValBody_eq, if_neg hlen, if_neg hchar, if_pos h])

/-- Past its checks `HOTP.VAL` answers what its search finds. -/
theorem exec_hotpVal_found (hsub : SubmittedOk chk s) (h : s.ops.window.toNat < 2 ^ 63) :
    exec (.hotpVal chk) s = .next (s.afterBody (hotpValFound chk s)) := by
  obtain ⟨hlen, hchar⟩ := (submittedOk_iff chk s).1 hsub
  exact exec_hotpVal_of_body hl (by rw [hotpValBody_eq, if_neg hlen, if_neg hchar, if_neg (Nat.not_le.2 h)])

/-- Past the parse `INVALID_DIGITS` is not raised any more. -/
theorem exec_hotpVal_rc_ne_invalidDigits (hsub : SubmittedOk chk s) {t : State} (ht : exec (.hotpVal chk) s = .next t) :
    t.rc ≠ 0xFFFFFFFE#32 := by
  obtain ⟨hlen, hchar⟩ := (submittedOk_iff chk s).1 hsub
  obtain ⟨-, -, -, hcode, -⟩ := firstFailingCheckIsReported s t
  have hcode := hcode chk hl ht
  rw [if_neg hlen, if_neg hchar] at hcode
  intro hrc
  rw [hrc] at hcode
  revert hcode
  split_ifs <;> decide

end

/-! ## `TOTP.VAL`, check by check -/

/-- Past the parse the body goes on with the timestamp, the window, and its search (R258). -/
theorem totpValBody_of_submittedOk {alg : HashSel} {s : State} (hsub : SubmittedOk false s) :
    totpValBody alg s =
      if s.ops.step = 0 ∨ s.ops.now.toInt < s.ops.start.toInt then .error .invalidTimestamp
      else if 2 ^ 63 ≤ s.ops.window.toNat then .error .invalidCounter
      else totpValFound alg s := by
  obtain ⟨hlen, hchar⟩ := (submittedOk_iff false s).1 hsub
  exact (totpValBody_eq alg s).trans ((if_neg hlen).trans (if_neg hchar))

section
variable {s : State} {alg : HashSel} (hl : ¬ LengthRefusedFor (.totpVal alg) s)
include hl

theorem exec_totpVal_of_body {o : Except ErrorKind Results} (hbody : totpValBody alg s = o) :
    exec (.totpVal alg) s = .next (s.afterBody o) :=
  hbody ▸ exec_eq_afterBody Instr.noConfusion hl

theorem exec_totpVal_digits (h : DigitCountWrong false s) :
    exec (.totpVal alg) s = .next (withOutcome s 0xFFFFFFFE#32 Results.zero) :=
  exec_totpVal_of_body (o := .error .invalidDigits) hl ((totpValBody_eq alg s).trans (if_pos h))

theorem exec_totpVal_nonDigit (hlen : ¬ DigitCountWrong false s) (h : HasNonDigit s) :
    exec (.totpVal alg) s = .next (withOutcome s 0xFFFFFFFA#32 Results.zero) :=
  exec_totpVal_of_body (o := .error .invalidOtp) hl
    ((totpValBody_eq alg s).trans ((if_neg hlen).trans (if_pos h)))

variable (hsub : SubmittedOk false s)
include hsub

theorem exec_totpVal_timestamp (h : ¬ TimestampOk s) :
    exec (.totpVal alg) s = .next (withOutcome s 0xFFFFFFF6#32 Results.zero) :=
  exec_totpVal_of_body (o := .error .invalidTimestamp) hl
    (by rw [totpValBody_of_submittedOk hsub, if_pos ((not_timestampOk_iff s).1 h)])

theorem exec_totpVal_window (htime : TimestampOk s) (h : 2 ^ 63 ≤ s.ops.window.toNat) :
    exec (.totpVal alg) s = .next (withOutcome s 0xFFFFFFF7#32 Results.zero) :=
  exec_totpVal_of_body (o := .error .invalidCounter) hl
    (by rw [totpValBody_of_submittedOk hsub, if_neg htime.checked, if_pos h])

/-- Past its checks `TOTP.VAL` answers for the reserved hash, or what its search finds. -/
theorem exec_totpVal_found (htime : TimestampOk s) (h : s.ops.window.toNat < 2 ^ 63) :
    exec (.totpVal alg) s = .next (s.afterBody (totpValFound alg s)) :=
  exec_totpVal_of_body hl
    (by rw [totpValBody_of_submittedOk hsub, if_neg htime.checked, if_neg (Nat.not_le.2 h)])

/-- Past the parse `INVALID_DIGITS` is not raised any more. -/
theorem exec_totpVal_rc_ne_invalidDigits {t : State} (ht : exec (.totpVal alg) s = .next t) : t.rc ≠ 0xFFFFFFFE#32 := by
  obtain ⟨hlen, hchar⟩ := (submittedOk_iff false s).1 hsub
  obtain ⟨-, -, -, -, hcode⟩ := firstFailingCheckIsReported s t
  have hcode := hcode alg hl ht
  replace hlen : ¬ (s.ops.subLen.toNat < 6 ∨ 8 < s.ops.subLen.toNat) := hlen
  rw [if_neg hlen, if_neg hchar] at hcode
  intro hrc
  rw [hrc] at hcode
  revert hcode
  split_ifs <;> decide

end

/-- Settles O29: the parse comes first in both bodies, and its digit count is an integer. -/
theorem submittedStringIsParsedFirst : Obligations.SubmittedStringIsParsedFirst :=
  ⟨fun _ _ hl => ⟨fun h => exec_hotpVal_digits hl (by omega),
      fun hlow hhigh => exec_hotpVal_nonDigit hl (by omega), fun hsub _ => exec_hotpVal_rc_ne_invalidDigits hl hsub⟩,
    fun _ _ hl => ⟨exec_totpVal_digits hl,
      fun hlow hhigh => exec_totpVal_nonDigit hl (not_or.2 ⟨hlow.not_gt, hhigh.not_gt⟩),
      fun hsub _ => exec_totpVal_rc_ne_invalidDigits hl hsub⟩⟩

/-! ## Commands that end with `RC = 0` -/

/-- Every error but `OK` shows in `RC`. -/
theorem rcBits_ne_zero {e : ErrorKind} (h : e.code < 0) : e.rcBits ≠ 0 := by
  intro h0
  rw [← rcBits_toInt, h0] at h
  exact absurd h (by decide)

/-- A command that ends with `RC = 0` has completed: its body answered the results it left (R134). -/
theorem bodyOf_of_rc_eq_zero {i : Instr} {s t : State} (hi : i ≠ .nop) (hl : ¬ LengthRefusedFor i s)
    (ht : exec i s = .next t) (hrc : t.rc = 0) : ∃ r, bodyOf i s = .ok r ∧ t = withOutcome s 0 r := by
  have hbody := bodyOf_allOrNothing i s hi
  rw [exec_eq_afterBody hi hl] at ht
  cases hb : bodyOf i s with
  | error e =>
    rw [hb] at ht hbody
    cases ht
    exact absurd hrc (rcBits_ne_zero hbody)
  | ok r =>
    rw [hb] at ht
    cases ht
    exact ⟨r, rfl, rfl⟩

/-- Settles O36: the results a completed validation leaves are those of its rule. -/
theorem reportedMatchGeneratesTheSubmittedString : Obligations.ReportedMatchGeneratesTheSubmittedString := by
  refine ⟨fun s t chk hl ht hrc => ?_, fun s t alg hl ht hrc => ?_⟩
  · have hbody := hotpValBody_allOrNothing chk s
    obtain ⟨r, hb, rfl⟩ := bodyOf_of_rc_eq_zero Instr.noConfusion hl ht hrc
    rw [show hotpValBody chk s = .ok r from hb] at hbody
    exact hbody.1
  · have hbody := totpValBody_allOrNothing alg s
    obtain ⟨r, hb, rfl⟩ := bodyOf_of_rc_eq_zero Instr.noConfusion hl ht hrc
    rw [show totpValBody alg s = .ok r from hb] at hbody
    obtain ⟨⟨a, halg, hstr, hcenter, hctr, habs⟩, -⟩ := hbody
    exact ⟨a, halg, hstr, hctr, hcenter, habs⟩

end Sys2Proof.Machine
end

section
/-! The search of `TOTP.VAL` (44_otp_validate.md R257, R261): it is the first match over the offsets in their order, so what
it finds does not depend on the window, as long as the offset found lies in it. -/

namespace Sys2Proof.Machine

/-! ## The offsets in order -/

/-- An offset is tried as R257 says. -/
theorem totpTry_eq_ite (hit : Nat → Bool) (center : Nat) (p : Int) :
    totpTry hit center p =
      if 0 ≤ (center : Int) + p ∧ (center : Int) + p ≤ 2 ^ 64 - 1 ∧ hit ((center : Int) + p).toNat = true
      then some (p, ((center : Int) + p).toNat) else none := by
  have hmax : (maxCounter : Int) = 2 ^ 64 - 1 := by decide
  rw [totpTry, hmax]
  by_cases hrange : 0 ≤ (center : Int) + p ∧ (center : Int) + p ≤ 2 ^ 64 - 1
  · rw [if_pos hrange]
    simp only [hrange.1, hrange.2, true_and]
  · rw [if_neg hrange, if_neg fun h => hrange ⟨h.1, h.2.1⟩]

/-- The distances `k`, ..., `k + n - 1`, plus before minus. -/
theorem totpSearchFrom_eq_findSome? (hit : Nat → Bool) (center n k : Nat) :
    totpSearchFrom hit center n k =
      ((List.range n).flatMap fun j => [((k + j : Nat) : Int), -((k + j : Nat) : Int)]).findSome? (totpTry hit center) := by
  induction n generalizing k with
  | zero => rfl
  | succ n ih =>
    rw [totpSearchFrom, ih, List.range_succ_eq_map, List.flatMap_cons, List.flatMap_map]
    simp only [List.cons_append, List.nil_append, List.findSome?_cons, Nat.add_zero, Nat.succ_eq_add_one,
      Nat.add_right_comm k 1, Nat.add_assoc]
    cases totpTry hit center (k : Int) with
    | some m => rfl
    | none => cases totpTry hit center (-(k : Int)) <;> rfl

theorem totpSearch_eq_findSome? (hit : Nat → Bool) (center w : Nat) :
    totpSearch hit center w = (offsetsInOrder w).findSome? (totpTry hit center) := by
  rw [totpSearch, totpSearchFrom_eq_findSome?, offsetsInOrder, List.findSome?_cons]
  simp only [Nat.add_comm 1]
  cases totpTry hit center 0 <;> rfl

/-- Settles O32: the recursion over the distances is the list of offsets, and each is tried as the rule says. -/
theorem totpSearchFollowsTheOrder : Obligations.TotpSearchFollowsTheOrder := by
  intro hit center w
  rw [totpSearch_eq_findSome?]
  exact congrArg (List.findSome? · _) (funext (totpTry_eq_ite hit center))

/-! ## The first match -/

theorem mem_offsetsInOrder {w : Nat} {p : Int} : p ∈ offsetsInOrder w ↔ p.natAbs ≤ w := by
  simp only [offsetsInOrder, List.mem_cons, List.mem_flatMap, List.mem_range, List.not_mem_nil, or_false]
  constructor
  · rintro (rfl | ⟨k, hk, rfl | rfl⟩) <;> omega
  · intro h
    rcases Nat.eq_zero_or_pos p.natAbs with h0 | hpos
    · exact .inl (Int.natAbs_eq_zero.1 h0)
    · exact .inr ⟨p.natAbs - 1, by omega, by omega⟩

/-- The list of offsets rises in the search rank. -/
theorem offsetsInOrder_pairwise (w : Nat) : (offsetsInOrder w).Pairwise fun p q => searchRank p < searchRank q := by
  have hpos (k : Nat) : searchRank ((k + 1 : Nat) : Int) = 2 * k + 1 := by rw [searchRank, if_pos] <;> omega
  have hneg (k : Nat) : searchRank (-((k + 1 : Nat) : Int)) = 2 * k + 2 := by rw [searchRank, if_neg] <;> omega
  have hzero : searchRank 0 = 0 := rfl
  refine List.pairwise_cons.2 ⟨fun q hq => ?_, List.pairwise_flatMap.2 ⟨fun k _ => ?_, ?_⟩⟩
  · obtain ⟨k, -, hq⟩ := List.mem_flatMap.1 hq
    simp only [List.mem_cons, List.not_mem_nil, or_false] at hq
    rcases hq with rfl | rfl
    · rw [hzero, hpos]; omega
    · rw [hzero, hneg]; omega
  · rw [List.pairwise_pair, hpos, hneg]; omega
  · refine List.pairwise_lt_range.imp fun {j k} hjk => ?_
    simp only [List.mem_cons, List.not_mem_nil, or_false, forall_eq_or_imp, forall_eq, hpos, hneg]
    omega

/-- A search over a list that rises in `rank` answers at the match of least rank. -/
theorem findSome?_eq_some_iff_of_pairwise {α β : Type} {rank : α → Int} {f : α → Option β} {b : β} {l : List α}
    (hl : l.Pairwise fun x y => rank x < rank y) :
    l.findSome? f = some b ↔ ∃ a ∈ l, f a = some b ∧ ∀ x ∈ l, rank x < rank a → f x = none := by
  induction l with
  | nil => simp
  | cons c l ih =>
    obtain ⟨hc, hl⟩ := List.pairwise_cons.1 hl
    cases hfc : f c with
    | some b' =>
      rw [List.findSome?_cons_of_isSome (by simp [hfc]), hfc]
      constructor
      · rintro hb
        refine ⟨c, List.mem_cons_self, hfc.trans hb, fun x hx hlt => ?_⟩
        rcases List.mem_cons.1 hx with rfl | hx
        · exact absurd hlt (lt_irrefl _)
        · exact absurd hlt (hc x hx).not_gt
      · rintro ⟨a, ha, hfa, hfirst⟩
        rcases List.mem_cons.1 ha with rfl | ha
        · exact hfc.symm.trans hfa
        · have := hfirst c List.mem_cons_self (hc a ha)
          rw [hfc] at this
          cases this
    | none =>
      rw [List.findSome?_cons_of_isNone (by simp [hfc]), ih hl]
      simp [hfc]

/-- The rank orders the offsets by their distance first. -/
theorem natAbs_le_of_searchRank_lt {p q : Int} (h : searchRank q < searchRank p) : q.natAbs ≤ p.natAbs := by
  unfold searchRank at h
  split_ifs at h <;> omega

/-- The search finds the match of least rank, if it lies in the window; nothing else depends on the window. -/
theorem totpSearch_eq_some_iff (hit : Nat → Bool) (center w : Nat) (m : Int × Nat) :
    totpSearch hit center w = some m ↔
      m.1.natAbs ≤ w ∧ totpTry hit center m.1 = some m ∧
        ∀ q, searchRank q < searchRank m.1 → totpTry hit center q = none := by
  rw [totpSearch_eq_findSome?, findSome?_eq_some_iff_of_pairwise (offsetsInOrder_pairwise w)]
  simp only [mem_offsetsInOrder]
  constructor
  · rintro ⟨p, habs, htry, hfirst⟩
    obtain ⟨rfl, -⟩ := (totpTry_eq_some hit center p m).1 htry
    exact ⟨habs, htry, fun q hq => hfirst q ((natAbs_le_of_searchRank_lt hq).trans habs) hq⟩
  · exact fun ⟨habs, htry, hfirst⟩ => ⟨m.1, habs, htry, fun q _ hq => hfirst q hq⟩

/-- What `TOTP.VAL` was when it ended with `RC = 0`: past its checks, with a match found. -/
theorem totpVal_of_rc_eq_zero {alg : HashSel} {s t : State} (hl : ¬ LengthRefusedFor (.totpVal alg) s)
    (ht : exec (.totpVal alg) s = .next t) (hrc : t.rc = 0) :
    ∃ a m, alg = .use a ∧ SubmittedOk false s ∧ TimestampOk s ∧ s.ops.window.toNat < 2 ^ 63 ∧
      totpSearch (candidateMatches a s.secret s.ops.subLen.toNat false s.submitted) (timeCounter s)
        s.ops.window.toNat = some m ∧
      t = withOutcome s 0 (totpValResults (timeCounter s) m) := by
  obtain ⟨r, hb, rfl⟩ := bodyOf_of_rc_eq_zero Instr.noConfusion hl ht hrc
  rw [bodyOf, totpValBody_eq] at hb
  split_ifs at hb with hlen hchar htime hwindow
  cases alg with
  | reserved => cases hb
  | use a =>
    rw [totpValFound] at hb
    split at hb
    · cases hb
    · rename_i m hsearch
      cases hb
      exact ⟨a, m, rfl, (submittedOk_iff false s).2 ⟨hlen, hchar⟩, not_not.1 (mt (not_timestampOk_iff s).1 htime),
        Nat.lt_of_not_le hwindow, hsearch, rfl⟩

/-- `TOTP.VAL` completes with the match its search finds. -/
theorem exec_totpVal_of_search {a : HashAlg} {s : State} (hl : ¬ LengthRefusedFor (.totpVal (.use a)) s)
    (hsub : SubmittedOk false s) (htime : TimestampOk s) (hwindow : s.ops.window.toNat < 2 ^ 63) {m : Int × Nat}
    (hsearch : totpSearch (candidateMatches a s.secret s.ops.subLen.toNat false s.submitted) (timeCounter s)
      s.ops.window.toNat = some m) :
    exec (.totpVal (.use a)) s = .next (withOutcome s 0 (totpValResults (timeCounter s) m)) := by
  rw [exec_totpVal_found hl hsub htime hwindow, totpValFound, hsearch]
  rfl

/-- Settles O35: the match reported is the first one around the centre, so it is found in every window it lies in. -/
theorem totpWindowSymmetry : Obligations.TotpWindowSymmetry := by
  intro s t alg w hl ht hrc hpos hw
  obtain ⟨a, m, rfl, hsub, htime, hwindow, hsearch, rfl⟩ := totpVal_of_rc_eq_zero hl ht hrc
  obtain ⟨habs, hfirst⟩ := (totpSearch_eq_some_iff _ _ _ m).1 hsearch
  have hm : (BitVec.ofInt 64 m.1).toInt = m.1 := BitVec.toInt_ofInt_eq_self (by decide) (by omega) (by omega)
  have hpos : m.1.natAbs ≤ w.toNat := (congrArg Int.natAbs hm).symm.trans_le hpos
  have hw : w.toNat < 2 ^ 63 := by omega
  exact exec_totpVal_of_search (s := { s with ops := { s.ops with window := w } }) hl hsub htime hw
    ((totpSearch_eq_some_iff _ _ _ m).2 ⟨hpos, hfirst⟩)

end Sys2Proof.Machine
end

section
/-! The validation commands (44_otp_validate.md R251 to R260): what `HOTP.VAL` and `TOTP.VAL` answer past their checks, by
what the candidates of the window generate, and the round trip from `HOTP.GEN` to `HOTP.VAL`. -/

namespace Sys2Proof.Machine

/-! ## Candidates (R252) -/

/-- The candidate `c` of `HOTP.VAL` generates the submitted string (R252, R253). -/
abbrev HotpMatch (chk : Bool) (s : State) (c : Nat) : Prop :=
  candidateString .sha1 s (s.ops.subLen.toNat - chk.toNat) chk c = s.submitted

theorem candidateMatches_eq_true {a : HashAlg} {s : State} {digits : Nat} {chk : Bool} {c : Nat} :
    candidateMatches a s.secret digits chk s.submitted c = true ↔ candidateString a s digits chk c = s.submitted :=
  beq_iff_eq

theorem candidateMatches_eq_false {a : HashAlg} {s : State} {digits : Nat} {chk : Bool} {c : Nat} :
    candidateMatches a s.secret digits chk s.submitted c = false ↔ candidateString a s digits chk c ≠ s.submitted :=
  beq_eq_false_iff_ne

/-! ## `HOTP.VAL` (R253, R254) -/

section
variable {s : State} {chk : Bool} (hl : ¬ LengthRefusedFor (.hotpVal chk) s) (hsub : SubmittedOk chk s)
  (hwindow : s.ops.window.toNat < 2 ^ 63)
include hl hsub hwindow

theorem exec_hotpVal_of_search {o : Except ErrorKind (Nat × Nat)}
    (hsearch : hotpSearch (candidateMatches .sha1 s.secret (s.ops.subLen.toNat - chk.toNat) chk s.submitted)
      s.ops.ctr.toNat (s.ops.window.toNat + 1) 0 = o) :
    exec (.hotpVal chk) s = .next (s.afterBody (o.map hotpValResults)) := by
  rw [exec_hotpVal_found hl hsub hwindow, hotpValFound, hsearch]

/-- The first match of the window is reported (R253). -/
theorem exec_hotpVal_match {i : Nat} (hi : i ≤ s.ops.window.toNat) (hmax : s.ops.ctr.toNat + i ≤ 2 ^ 64 - 1)
    (hmatch : HotpMatch chk s (s.ops.ctr.toNat + i)) (hfirst : ∀ j < i, ¬ HotpMatch chk s (s.ops.ctr.toNat + j)) :
    exec (.hotpVal chk) s = .next (withOutcome s 0
      { Results.zero with pos := BitVec.ofNat 64 i, matchCtr := BitVec.ofNat 64 (s.ops.ctr.toNat + i) }) := by
  have hsearch := hotpSearch_hit
    (candidateMatches .sha1 s.secret (s.ops.subLen.toNat - chk.toNat) chk s.submitted) s.ops.ctr.toNat
    (s.ops.window.toNat + 1) 0 i (Nat.lt_succ_of_le hi)
  simp only [Nat.zero_add] at hsearch
  exact exec_hotpVal_of_search hl hsub hwindow
    (hsearch hmax (fun j hj => candidateMatches_eq_false.2 (hfirst j hj)) (candidateMatches_eq_true.2 hmatch))

/-- A window of legal counters without a match (R253). -/
theorem exec_hotpVal_noMatch (hmax : s.ops.ctr.toNat + s.ops.window.toNat ≤ 2 ^ 64 - 1)
    (hno : ∀ j ≤ s.ops.window.toNat, ¬ HotpMatch chk s (s.ops.ctr.toNat + j)) :
    exec (.hotpVal chk) s = .next (withOutcome s 0xFFFFFFFA#32 Results.zero) := by
  have hmax : s.ops.ctr.toNat + (0 + (s.ops.window.toNat + 1)) ≤ maxCounter + 1 := by rw [maxCounter]; omega
  refine exec_hotpVal_of_search (o := .error .invalidOtp) hl hsub hwindow
    (hotpSearch_none _ _ _ _ hmax fun j hj => candidateMatches_eq_false.2 ?_)
  rw [Nat.zero_add]
  exact hno j (Nat.le_of_lt_succ hj)

/-- A window that goes beyond the last counter, without a match up to it (R254). -/
theorem exec_hotpVal_overflow (hmax : 2 ^ 64 - 1 < s.ops.ctr.toNat + s.ops.window.toNat)
    (hno : ∀ j, s.ops.ctr.toNat + j ≤ 2 ^ 64 - 1 → ¬ HotpMatch chk s (s.ops.ctr.toNat + j)) :
    exec (.hotpVal chk) s = .next (withOutcome s 0xFFFFFFF7#32 Results.zero) := by
  have hmax : maxCounter < s.ops.ctr.toNat + (0 + s.ops.window.toNat) := by rw [maxCounter]; omega
  refine exec_hotpVal_of_search (o := .error .invalidCounter) hl hsub hwindow
    (hotpSearch_overflow _ _ _ _ _ (Nat.lt_succ_self _) hmax fun j _ hj => candidateMatches_eq_false.2 ?_)
  rw [Nat.zero_add] at hj ⊢
  exact hno j hj

end

section
variable {s : State} {chk : Bool} (hl : ¬ LengthRefusedFor (.hotpVal chk) s) (hsub : SubmittedOk chk s)
  (hwindow : s.ops.window = 0)
include hl hsub hwindow

/-- With a window of zero the only candidate is `CTR`, and it matches (R251). -/
theorem exec_hotpVal_window_zero_match (hmatch : HotpMatch chk s s.ops.ctr.toNat) :
    exec (.hotpVal chk) s = .next (withOutcome s 0 { Results.zero with matchCtr := s.ops.ctr }) := by
  have hzero : s.ops.window.toNat = 0 := by rw [hwindow]; rfl
  have h := exec_hotpVal_match hl hsub (by omega) (Nat.zero_le _) (Nat.le_sub_one_of_lt s.ops.ctr.isLt) hmatch
    fun j hj => absurd hj (Nat.not_lt_zero j)
  rw [Nat.add_zero, BitVec.ofNat_toNat, BitVec.setWidth_eq] at h
  exact h

/-- With a window of zero the only candidate is `CTR`, and it does not match (R251). -/
theorem exec_hotpVal_window_zero_noMatch (hno : ¬ HotpMatch chk s s.ops.ctr.toNat) :
    exec (.hotpVal chk) s = .next (withOutcome s 0xFFFFFFFA#32 Results.zero) := by
  have hzero : s.ops.window.toNat = 0 := by rw [hwindow]; rfl
  have hctr := s.ops.ctr.isLt
  refine exec_hotpVal_noMatch hl hsub (by omega) (by omega) fun j hj => ?_
  obtain rfl : j = 0 := by omega
  exact hno

end

theorem encode_hotpVal_toNat (chk : Bool) : (encode (.hotpVal chk)).toNat = 0x00000003 + 0x1000 * chk.toNat := by
  have hchk := chk.toNat_lt
  rw [encode, commandWord_toNat hchk (by decide) (by decide) (by decide)]
  omega

/-- The state of the example of R253, with window `w`: the string submitted is the one of counter 9. -/
def hotpValExample (w : DWord) : State :=
  { stateK20 with
    sub := Memory.ofBytes (ascii ['5', '2', '0', '4', '8', '9'])
    ops := { stateK20.ops with window := w, subLen := 6 } }

theorem exec_hotpVal_example_inside :
    exec (.hotpVal false) (hotpValExample 9) =
      .next (withOutcome (hotpValExample 9) 0 { Results.zero with pos := 9, matchCtr := 9 }) :=
  exec_ok _ _ _ (by decide) (by decide) (by decide +kernel)

theorem exec_hotpVal_example_outside :
    exec (.hotpVal false) (hotpValExample 8) = .next (withOutcome (hotpValExample 8) 0xFFFFFFFA#32 Results.zero) :=
  exec_error _ _ .invalidOtp (by decide) (by decide) (by decide +kernel)

/-- Settles O31: the three ends of the search, and before it the checks of the operands. -/
theorem hotpValReportsTheFirstMatch : Obligations.HotpValReportsTheFirstMatch := by
  refine ⟨fun s chk hl hsub hwindow => ⟨fun i hi => exec_hotpVal_match hl hsub hwindow hi,
      exec_hotpVal_noMatch hl hsub hwindow, exec_hotpVal_overflow hl hsub hwindow⟩,
    fun s chk hl => ⟨exec_hotpVal_digits hl, fun hlow hhigh hsub => ?_, exec_hotpVal_window hl⟩,
    encode_hotpVal_toNat, ?_⟩
  · have hlen : ¬ DigitCountWrong chk s := not_or.2 ⟨hlow.not_gt, hhigh.not_gt⟩
    exact exec_hotpVal_nonDigit hl hlen (hasNonDigit_of_not_submittedOk hlen hsub)
  · rintro w (rfl | rfl)
    · exact exec_hotpVal_example_inside
    · exact exec_hotpVal_example_outside

/-! ## `TOTP.VAL` (R257, R258) -/

section
variable {a : HashAlg} {s : State} (htime : TimestampOk s)
include htime

/-- Trying an offset in the search of `TOTP.VAL` succeeds at the hits of R258. -/
theorem totpTry_eq_some_of_totpHit {p : Int} (h : TotpHit a s p) :
    totpTry (candidateMatches a s.secret s.ops.subLen.toNat false s.submitted) (timeCounter s) p =
      some (p, (centerOf s + p).toNat) := by
  obtain ⟨hlow, hhigh, hstr⟩ := h
  have hcenter := timeCounter_eq_centerOf htime.2
  refine (totpTry_eq_some _ _ _ _).2 ⟨rfl, ?_, ?_, candidateMatches_eq_true.2 hstr⟩
  · rw [Int.toNat_of_nonneg hlow, hcenter]
  · rw [maxCounter]; omega

theorem totpTry_eq_none_of_not_totpHit {p : Int} (h : ¬ TotpHit a s p) :
    totpTry (candidateMatches a s.secret s.ops.subLen.toNat false s.submitted) (timeCounter s) p = none := by
  refine Option.eq_none_iff_forall_ne_some.2 fun m hm => h ?_
  obtain ⟨-, hctr, hmax, hhit⟩ := (totpTry_eq_some _ _ _ _).1 hm
  rw [timeCounter_eq_centerOf htime.2] at hctr
  have hle : m.2 ≤ 2 ^ 64 - 1 := hmax
  refine ⟨by omega, by omega, ?_⟩
  rw [← hctr]
  exact candidateMatches_eq_true.1 hhit

/-- The results of a match at offset `p`, in the integers of the rule (R258). -/
theorem totpValResults_at (p : Int) (h : 0 ≤ centerOf s + p) :
    totpValResults (timeCounter s) (p, (centerOf s + p).toNat) =
      { Results.zero with
        pos := BitVec.ofInt 64 p, matchCtr := BitVec.ofInt 64 (centerOf s + p), tctr := BitVec.ofInt 64 (centerOf s) } := by
  have hctr : BitVec.ofInt 64 (centerOf s + p) = BitVec.ofNat 64 (centerOf s + p).toNat := by
    rw [← BitVec.ofInt_natCast, Int.toNat_of_nonneg h]
  have htctr : BitVec.ofInt 64 (centerOf s) = BitVec.ofNat 64 (timeCounter s) := by
    rw [← BitVec.ofInt_natCast, timeCounter_eq_centerOf htime.2]
  rw [hctr, htctr]
  rfl

variable (hl : ¬ LengthRefusedFor (.totpVal (.use a)) s) (hsub : SubmittedOk false s)
  (hwindow : s.ops.window.toNat < 2 ^ 63)
include hl hsub hwindow

/-- The first hit of the search order is reported (R258). -/
theorem exec_totpVal_match {p : Int} (habs : p.natAbs ≤ s.ops.window.toNat) (hhit : TotpHit a s p)
    (hfirst : ∀ q : Int, q.natAbs ≤ s.ops.window.toNat → searchRank q < searchRank p → ¬ TotpHit a s q) :
    exec (.totpVal (.use a)) s = .next (withOutcome s 0
      { Results.zero with
        pos := BitVec.ofInt 64 p, matchCtr := BitVec.ofInt 64 (centerOf s + p), tctr := BitVec.ofInt 64 (centerOf s) }) := by
  rw [← totpValResults_at htime p hhit.1]
  refine exec_totpVal_of_search hl hsub htime hwindow ((totpSearch_eq_some_iff _ _ _ _).2
    ⟨habs, totpTry_eq_some_of_totpHit htime hhit, fun q hq => totpTry_eq_none_of_not_totpHit htime ?_⟩)
  exact hfirst q ((natAbs_le_of_searchRank_lt hq).trans habs) hq

/-- A window without a hit (R258). -/
theorem exec_totpVal_noMatch (hno : ∀ q : Int, q.natAbs ≤ s.ops.window.toNat → ¬ TotpHit a s q) :
    exec (.totpVal (.use a)) s = .next (withOutcome s 0xFFFFFFFA#32 Results.zero) := by
  rw [exec_totpVal_found hl hsub htime hwindow, totpValFound,
    totpSearch_none _ _ _ fun q hq => totpTry_eq_none_of_not_totpHit htime (hno q hq)]
  rfl

end

theorem encode_totpVal_toNat (alg : HashSel) : (encode (.totpVal alg)).toNat = 0x00000005 + 0x10 * alg.field := by
  rw [encode, commandWord_toNat (by decide) (by decide) (HashSel.field_lt alg) (by decide)]
  omega

/-- The state of the example of R258: the string submitted is the one of counter 0, the centre is 1. -/
def totpValExample : State :=
  { stateK20 with
    sub := Memory.ofBytes (ascii ['8', '4', '7', '5', '5', '2', '2', '4'])
    ops := { stateK20.ops with now := 59, window := 1, subLen := 8 } }

theorem exec_totpVal_example :
    exec (.totpVal (.use .sha1)) totpValExample =
      .next (withOutcome totpValExample 0 { Results.zero with pos := 0xFFFFFFFFFFFFFFFF#64, tctr := 1 }) :=
  exec_ok _ _ _ (by decide) (by decide) (by decide +kernel)

/-- Settles O33: the two ends of the search, and before it the checks of the operands and of the hash. -/
theorem totpValReportsTheFirstMatch : Obligations.TotpValReportsTheFirstMatch := by
  refine ⟨fun s a hl hsub htime hwindow => ⟨fun p => exec_totpVal_match htime hl hsub hwindow,
      exec_totpVal_noMatch htime hl hsub hwindow⟩,
    fun s alg hl => ⟨exec_totpVal_digits hl, fun hlow hhigh hsub => ?_, exec_totpVal_timestamp hl, exec_totpVal_window hl, ?_⟩,
    encode_totpVal_toNat, exec_totpVal_example⟩
  · have hlen : ¬ DigitCountWrong false s := not_or.2 ⟨hlow.not_gt, hhigh.not_gt⟩
    exact exec_totpVal_nonDigit hl hlen (hasNonDigit_of_not_submittedOk hlen hsub)
  · rintro hsub htime hwindow rfl
    exact exec_totpVal_found hl hsub htime hwindow

/-- With a window of zero the only candidate of `TOTP.VAL` is its centre (R251). -/
theorem totpVal_window_zero {a : HashAlg} {s t : State} (hl : ¬ LengthRefusedFor (.totpVal (.use a)) s)
    (hsub : SubmittedOk false s) (htime : TimestampOk s) (hwindow : s.ops.window = 0)
    (ht : exec (.totpVal (.use a)) s = .next t) :
    (t.rc = 0 ↔ TotpHit a s 0) ∧ (t.rc = 0xFFFFFFFA#32 ↔ ¬ TotpHit a s 0) := by
  have hzero : s.ops.window.toNat = 0 := by rw [hwindow]; rfl
  have honly {q : Int} (hq : q.natAbs ≤ s.ops.window.toNat) : q = 0 := by omega
  by_cases hhit : TotpHit a s 0
  · rw [exec_totpVal_match htime hl hsub (by omega) (Nat.zero_le _) hhit
      fun q hq hrank => by rw [honly hq] at hrank; exact absurd hrank (lt_irrefl _)] at ht
    cases ht
    simp [hhit, withOutcome]
  · rw [exec_totpVal_noMatch htime hl hsub (by omega) fun q hq => honly hq ▸ hhit] at ht
    cases ht
    simp [hhit, withOutcome]

/-- Settles O30: the check of the window, and the searches with a single candidate. -/
theorem windowIsLimitedToTheSignedRange : Obligations.WindowIsLimitedToTheSignedRange := by
  refine ⟨fun s chk hl hsub => ⟨exec_hotpVal_window hl hsub, fun hwindow => ?_⟩,
    fun s a hl hsub htime => ⟨exec_totpVal_window hl hsub htime, fun hwindow t => totpVal_window_zero hl hsub htime hwindow⟩,
    fun s hl hsub htime => exec_totpVal_window hl hsub htime⟩
  split_ifs with hmatch
  · exact exec_hotpVal_window_zero_match hl hsub hwindow hmatch
  · exact exec_hotpVal_window_zero_noMatch hl hsub hwindow hmatch

/-! ## From `HOTP.GEN` to `HOTP.VAL` (R260) -/

/-- A truncation operand outside 0 to 15 generates as the validation does. -/
theorem otpGen_trunc_dynamic (a : HashAlg) (k : List Byte) (c : Nat) {tr : DWord} (h : 16 ≤ tr.toNat) (digits : Nat)
    (chk : Bool) : otpGen a k c (some tr) digits chk = otpGen a k c none digits chk := by
  have hoffset (tag : List Byte) : selectOffset tag (some tr) = selectOffset tag none := by
    rw [selectOffset_some, if_neg (Nat.not_lt.2 h), ← dynamicOffset_eq]; rfl
  simp only [otpGen, hoffset]

/-- The first bytes of a buffer that holds `bs` there are `bs`. -/
theorem slice_eq_of_read {m : Memory} {n : Nat} {bs : List Byte} (hlen : bs.length = n)
    (h : ∀ j < n, m.read j = bs.getD j 0x00#8) : m.slice n = bs := by
  refine List.ext_getElem (by rw [Memory.slice_length, hlen]) fun j hj hjb => ?_
  rw [Memory.slice_length] at hj
  simp [Memory.slice, h j hj, hjb]

/-- The host's copy of what `HOTP.GEN` left: the string in `SUB` as `m`, its length in `SUBLEN`, a window of zero. -/
def State.withCopiedOtp (t : State) (m : Memory) : State :=
  { t with sub := m, ops := { t.ops with subLen := t.res.otpLen, window := 0 } }

/-- `HOTP.GEN` ends with `RC = 0` for a legal digit count only, with the results of R225. -/
theorem hotpGen_of_rc_eq_zero {s t : State} {digits : Nat} {chk : Bool} (hl : ¬ LengthRefusedFor (.hotpGen digits chk) s)
    (ht : exec (.hotpGen digits chk) s = .next t) (hrc : t.rc = 0) :
    ¬ (digits < 6 ∨ 8 < digits) ∧ t = withOutcome s 0 (hotpGenResults digits chk s) := by
  by_cases hd : digits < 6 ∨ 8 < digits
  · rw [exec_hotpGen_digits hl hd] at ht
    cases ht
    exact absurd hrc (rcBits_ne_zero (e := .invalidDigits) (by decide))
  · rw [exec_hotpGen hl hd] at ht
    cases ht
    exact ⟨hd, rfl⟩

/-- The string and its length that `HOTP.GEN` left are read back from their copy. -/
theorem submitted_withCopiedOtp {s : State} {digits : Nat} {chk : Bool} (hd : ¬ (digits < 6 ∨ 8 < digits)) {m : Memory}
    (hm : ∀ j < (hotpGenResults digits chk s).otpLen.toNat, m.read j = (hotpGenResults digits chk s).otp.read j) :
    ((withOutcome s 0 (hotpGenResults digits chk s)).withCopiedOtp m).ops.subLen.toNat = digits + chk.toNat ∧
      ((withOutcome s 0 (hotpGenResults digits chk s)).withCopiedOtp m).submitted =
        (otpGen .sha1 s.secret s.ops.ctr.toNat (some s.ops.trunc) digits chk).str := by
  obtain ⟨-, -, -, -, -, hstr, hlen⟩ := holdsGenerated .sha1 s s.ops.ctr.toNat (some s.ops.trunc) chk hd
  exact ⟨hlen, slice_eq_of_read ((otpString_length _ _ _).trans hlen.symm) fun j hj => (hm j hj).trans (hstr j)⟩

/-- The OTP that `HOTP.GEN` emitted with dynamic truncation validates at its counter. -/
theorem exec_hotpVal_withCopiedOtp {s : State} {digits : Nat} {chk : Bool}
    (hl : ¬ LengthRefusedFor (.hotpGen digits chk) s) (hd : ¬ (digits < 6 ∨ 8 < digits)) (htrunc : 16 ≤ s.ops.trunc.toNat)
    {m : Memory}
    (hm : ∀ j < (hotpGenResults digits chk s).otpLen.toNat, m.read j = (hotpGenResults digits chk s).otp.read j) :
    let u := (withOutcome s 0 (hotpGenResults digits chk s)).withCopiedOtp m
    exec (.hotpVal chk) u = .next (withOutcome u 0 { Results.zero with matchCtr := s.ops.ctr }) := by
  intro u
  obtain ⟨hlen, hstr⟩ : u.ops.subLen.toNat = digits + chk.toNat ∧ u.submitted = _ := submitted_withCopiedOtp hd hm
  have hlu : ¬ LengthRefusedFor (.hotpVal chk) u := by
    rintro (⟨-, hlong⟩ | ⟨⟨alg, halg⟩, -⟩)
    · exact hl (.inl ⟨Instr.noConfusion, hlong⟩)
    · cases halg
  have hsub : SubmittedOk chk u := by
    refine ⟨by omega, by omega, (submitted_all_digits u).1 ?_⟩
    rw [hstr, List.all_eq_true]
    exact fun b => isDigit_of_mem_otpString
  refine exec_hotpVal_window_zero_match hlu hsub rfl ?_
  rw [HotpMatch, hstr, hlen, Nat.add_sub_cancel, otpGen_trunc_dynamic _ _ _ htrunc]
  rfl

/-- The vector secret at counter 0 with the fixed offset 4: the tag's bytes there generate `"455891"`, and the offset of the
validation is 0 (R225). -/
def fixedOffsetExample : State := { stateK20 with ops := { stateK20.ops with trunc := 4 } }

/-- The results of `HOTP.GEN` in that state. -/
def fixedOffsetResults : Results :=
  { Results.zero with
    tag := Memory.ofBytes (beBytes 20 0xcc93cf18508d94934c64b65d8ba7667fb7cde4b0)
    tagLen := 20, offset := 4, binCode := 0x508D9493#32, otpVal := 455891
    otp := Memory.ofBytes (ascii ['4', '5', '5', '8', '9', '1']), otpLen := 6 }

theorem exec_hotpGen_fixedOffset :
    exec (.hotpGen 6 false) fixedOffsetExample = .next (withOutcome fixedOffsetExample 0 fixedOffsetResults) :=
  exec_ok _ _ _ (by decide) (by decide) (by decide +kernel)

/-- The string generated at a fixed offset is not the one the validation generates. -/
theorem exec_hotpVal_fixedOffset :
    let u := (withOutcome fixedOffsetExample 0 fixedOffsetResults).withCopiedOtp fixedOffsetResults.otp
    exec (.hotpVal false) u = .next (withOutcome u 0xFFFFFFFA#32 Results.zero) :=
  exec_error _ _ .invalidOtp (by decide) (by decide) (by decide +kernel)

/-- Settles O34: with dynamic truncation both commands generate the same string; at offset 4 they do not. -/
theorem generatedOtpValidatesAtPositionZero : Obligations.GeneratedOtpValidatesAtPositionZero := by
  refine ⟨fun s t digits chk m hl htrunc ht hrc hm => ?_,
    fixedOffsetExample, _, rfl, exec_hotpGen_fixedOffset, rfl, exec_hotpVal_fixedOffset⟩
  obtain ⟨hd, rfl⟩ := hotpGen_of_rc_eq_zero hl ht hrc
  exact exec_hotpVal_withCopiedOtp hl hd htrunc hm

end Sys2Proof.Machine
end

section
/-! The error taxonomy (60_exceptions.md R281): the codes of the kinds tell them apart, each error is raised by the commands
its row names, and no command leaves another value in `RC`. -/

namespace Sys2Proof.Machine

/-! ## The codes -/

/-- The kinds in the order of the table of R281. -/
def ErrorKind.kinds : List ErrorKind :=
  [.ok, .cryptoError, .invalidDigits, .printfError, .invalidHex, .tooSmallBuffer, .invalidOtp, .badPassword,
    .invalidCounter, .invalidTimestamp, .invalidBase32, .base32Overflow, .mallocError]

theorem ErrorKind.mem_kinds (e : ErrorKind) : e ∈ kinds := by cases e <;> decide

/-- No two kinds share a code. -/
theorem ErrorKind.code_injective : Function.Injective ErrorKind.code := fun e e' h =>
  List.inj_on_of_nodup_map (f := ErrorKind.code) (l := kinds) (by decide) e.mem_kinds e'.mem_kinds h

/-! ## What a command can leave in `RC` -/

/-- The values of R25 are six of the codes. -/
theorem toInt_of_mem_legalRc {w : Word} (h : w ∈ legalRc) : w.toInt ∈ ([0, -1, -2, -6, -9, -10] : List Int) := by
  have hcodes : legalRc.map BitVec.toInt = [0, -1, -2, -6, -9, -10] := by decide
  exact hcodes ▸ List.mem_map_of_mem h

/-- Past the length check a command leaves a legal value in `RC`. -/
theorem rc_mem_legalRc_of_exec {i : Instr} {s t : State} (hi : i ≠ .nop) (hl : ¬ LengthRefusedFor i s)
    (ht : exec i s = .next t) : t.rc ∈ legalRc := by
  have hbody := bodyOf_legal i s hi
  rw [exec_eq_afterBody hi hl] at ht
  cases ht
  cases hb : bodyOf i s with
  | error e => exact (hb ▸ hbody : LegalOutcome (.error e))
  | ok r => exact zero_mem_legalRc

/-- A command leaves `RC` alone or puts a legal value there. -/
theorem exec_rc {i : Instr} {s t : State} (ht : exec i s = .next t) : t.rc = s.rc ∨ t.rc ∈ legalRc := by
  by_cases hi : i = .nop
  · subst hi
    cases ht
    exact .inl rfl
  · by_cases hl : LengthRefusedFor i s
    · rw [exec_refused i s hi ((lengthRefused_iff i s hi).2 hl)] at ht
      cases ht
      exact .inl rfl
    · exact .inr (rc_mem_legalRc_of_exec hi hl ht)

/-! ## Which command raises which error -/

/-- The column "raised in this block by" of R281: in the state `s` the command may raise the error. -/
inductive MayRaise (s : State) : Instr → ErrorKind → Prop
  | hmac_reserved : MayRaise s (.hmac .reserved) .cryptoError
  | totpGen_reserved (d : Nat) : MayRaise s (.totpGen .reserved d) .cryptoError
  | totpVal_reserved : MayRaise s (.totpVal .reserved) .cryptoError
  | hotpGen_digits (d : Nat) (chk : Bool) : MayRaise s (.hotpGen d chk) .invalidDigits
  | totpGen_digits (alg : HashSel) (d : Nat) : MayRaise s (.totpGen alg d) .invalidDigits
  | hotpVal_digits (chk : Bool) : MayRaise s (.hotpVal chk) .invalidDigits
  | totpVal_digits (alg : HashSel) : MayRaise s (.totpVal alg) .invalidDigits
  | hotpVal_otp (chk : Bool) : MayRaise s (.hotpVal chk) .invalidOtp
  | totpVal_otp (alg : HashSel) : MayRaise s (.totpVal alg) .invalidOtp
  | hotpVal_counter (chk : Bool) : MayRaise s (.hotpVal chk) .invalidCounter
  | totpVal_window (alg : HashSel) (h : 2 ^ 63 ≤ s.ops.window.toNat) : MayRaise s (.totpVal alg) .invalidCounter
  | totpGen_timestamp (alg : HashSel) (d : Nat) (h : s.ops.step = 0 ∨ s.ops.now.toInt < s.ops.start.toInt) :
      MayRaise s (.totpGen alg d) .invalidTimestamp
  | totpVal_timestamp (alg : HashSel) (h : s.ops.step = 0 ∨ s.ops.now.toInt < s.ops.start.toInt) :
      MayRaise s (.totpVal alg) .invalidTimestamp

section
variable {s : State} {e : ErrorKind}

theorem mayRaise_of_hmacBody {alg : HashSel} (h : hmacBody alg s = .error e) : MayRaise s (.hmac alg) e := by
  cases alg with
  | reserved => cases h; exact .hmac_reserved
  | use a => cases h

theorem mayRaise_of_hotpGenBody {d : Nat} {chk : Bool} (h : hotpGenBody d chk s = .error e) :
    MayRaise s (.hotpGen d chk) e := by
  unfold hotpGenBody at h
  split_ifs at h
  cases h
  exact .hotpGen_digits d chk

theorem mayRaise_of_totpGenBody {alg : HashSel} {d : Nat} (h : totpGenBody alg d s = .error e) :
    MayRaise s (.totpGen alg d) e := by
  unfold totpGenBody at h
  split_ifs at h with hd htime
  · cases h; exact .totpGen_digits alg d
  · cases h; exact .totpGen_timestamp alg d (of_decide_eq_true htime)
  · cases alg with
    | reserved => cases h; exact .totpGen_reserved d
    | use a => cases h

theorem mayRaise_of_hotpValFound {chk : Bool} (h : hotpValFound chk s = .error e) : MayRaise s (.hotpVal chk) e := by
  revert h
  rw [hotpValFound]
  cases hsearch : hotpSearch _ _ _ _ with
  | ok m => rintro ⟨⟩
  | error e' =>
    rintro ⟨⟩
    rcases hotpSearch_error _ _ _ _ _ hsearch with rfl | rfl
    · exact .hotpVal_counter chk
    · exact .hotpVal_otp chk

theorem mayRaise_of_hotpValBody {chk : Bool} (h : hotpValBody chk s = .error e) : MayRaise s (.hotpVal chk) e := by
  rw [hotpValBody_eq] at h
  split_ifs at h
  · cases h; exact .hotpVal_digits chk
  · cases h; exact .hotpVal_otp chk
  · cases h; exact .hotpVal_counter chk
  · exact mayRaise_of_hotpValFound h

theorem mayRaise_of_totpValFound {alg : HashSel} (h : totpValFound alg s = .error e) : MayRaise s (.totpVal alg) e := by
  cases alg with
  | reserved => cases h; exact .totpVal_reserved
  | use a =>
    rw [totpValFound] at h
    split at h
    · cases h; exact .totpVal_otp (.use a)
    · cases h

theorem mayRaise_of_totpValBody {alg : HashSel} (h : totpValBody alg s = .error e) : MayRaise s (.totpVal alg) e := by
  rw [totpValBody_eq] at h
  split_ifs at h with hlen hchar htime hwindow
  · cases h; exact .totpVal_digits alg
  · cases h; exact .totpVal_otp alg
  · cases h; exact .totpVal_timestamp alg htime
  · cases h; exact .totpVal_window alg hwindow
  · exact mayRaise_of_totpValFound h

/-- Every error a body answers is one its command may raise. -/
theorem mayRaise_of_bodyOf {i : Instr} (h : bodyOf i s = .error e) : MayRaise s i e := by
  cases i with
  | nop => cases h
  | hmac alg => exact mayRaise_of_hmacBody h
  | hotpGen d chk => exact mayRaise_of_hotpGenBody h
  | hotpVal chk => exact mayRaise_of_hotpValBody h
  | totpGen alg d => exact mayRaise_of_totpGenBody h
  | totpVal alg => exact mayRaise_of_totpValBody h

/-- The code in `RC` names the error the command raised. -/
theorem mayRaise_of_rc {i : Instr} {t : State} (hi : i ≠ .nop) (hl : ¬ LengthRefusedFor i s) (ht : exec i s = .next t)
    (he : e ≠ .ok) (hrc : t.rc.toInt = e.code) : MayRaise s i e := by
  rw [rc_toInt_of_exec hi hl ht] at hrc
  cases hb : bodyOf i s with
  | error e' =>
    rw [hb] at hrc
    exact ErrorKind.code_injective hrc ▸ mayRaise_of_bodyOf hb
  | ok r =>
    rw [hb] at hrc
    exact absurd (ErrorKind.code_injective (a₁ := .ok) hrc).symm he

theorem MayRaise.of_cryptoError {i : Instr} (h : MayRaise s i .cryptoError) :
    i = .hmac .reserved ∨ (∃ d, i = .totpGen .reserved d) ∨ i = .totpVal .reserved := by
  cases h with
  | hmac_reserved => exact .inl rfl
  | totpGen_reserved d => exact .inr (.inl ⟨d, rfl⟩)
  | totpVal_reserved => exact .inr (.inr rfl)

theorem MayRaise.ne_hmac_of_invalidDigits {i : Instr} (h : MayRaise s i .invalidDigits) (alg : HashSel) : i ≠ .hmac alg := by
  rintro rfl
  cases h

theorem MayRaise.of_invalidOtp {i : Instr} (h : MayRaise s i .invalidOtp) :
    (∃ chk, i = .hotpVal chk) ∨ ∃ alg, i = .totpVal alg := by
  cases h with
  | hotpVal_otp chk => exact .inl ⟨chk, rfl⟩
  | totpVal_otp alg => exact .inr ⟨alg, rfl⟩

theorem MayRaise.of_invalidCounter {i : Instr} (h : MayRaise s i .invalidCounter) :
    (∃ chk, i = .hotpVal chk) ∨ ∃ alg, i = .totpVal alg := by
  cases h with
  | hotpVal_counter chk => exact .inl ⟨chk, rfl⟩
  | totpVal_window alg hwindow => exact .inr ⟨alg, rfl⟩

/-- `TOTP.VAL` skips a candidate that is no counter (R257), so only its window makes it answer `INVALID_COUNTER`. -/
theorem MayRaise.window_of_totpVal {alg : HashSel} (h : MayRaise s (.totpVal alg) .invalidCounter) :
    2 ^ 63 ≤ s.ops.window.toNat := by
  cases h with
  | totpVal_window _ hwindow => exact hwindow

theorem MayRaise.of_invalidTimestamp {i : Instr} (h : MayRaise s i .invalidTimestamp) :
    ((∃ alg d, i = .totpGen alg d) ∨ ∃ alg, i = .totpVal alg) ∧
      (s.ops.step = 0 ∨ s.ops.now.toInt < s.ops.start.toInt) := by
  cases h with
  | totpGen_timestamp alg d htime => exact ⟨.inl ⟨alg, d, rfl⟩, htime⟩
  | totpVal_timestamp alg htime => exact ⟨.inr ⟨alg, rfl⟩, htime⟩

end

/-- Settles O45: the legal values of `RC`, and for each code the commands that may raise its error. -/
theorem errorCodesAreTheTaxonomy : Obligations.ErrorCodesAreTheTaxonomy := by
  refine ⟨⟨rfl, rfl, rfl, rfl, rfl, rfl, rfl, rfl, rfl, rfl, rfl, rfl, rfl⟩, rcBits_toInt, fun i s t ht => ?_,
    fun i s t hi hl ht => ?_⟩
  · exact (exec_rc ht).imp_right fun h => by simpa using toInt_of_mem_legalRc h
  · have hraise (e : ErrorKind) (he : e ≠ .ok) (hrc : t.rc.toInt = e.code) : MayRaise s i e :=
      mayRaise_of_rc hi hl ht he hrc
    have hcrypto := hraise .cryptoError (by decide)
    have hdigits := hraise .invalidDigits (by decide)
    have hotp := hraise .invalidOtp (by decide)
    have hcounter := hraise .invalidCounter (by decide)
    have htimestamp := hraise .invalidTimestamp (by decide)
    exact ⟨toInt_of_mem_legalRc (rc_mem_legalRc_of_exec hi hl ht), fun h => (hcrypto h).of_cryptoError,
      fun h => (hdigits h).ne_hmac_of_invalidDigits,
      fun h => h.elim (fun h => (hotp h).of_invalidOtp) fun h => (hcounter h).of_invalidCounter,
      fun h alg halg => (halg ▸ hcounter h).window_of_totpVal, fun h => (htimestamp h).of_invalidTimestamp⟩

end Sys2Proof.Machine
end

section
/-! Reset and hazards (70_reset_and_hazards.md R310 to R312, R321): the reset state, what a reset between accesses does, and
that operands outlive the commands and results the accesses that run none. -/

namespace Sys2Proof.Machine

/-! ## Reset -/

/-- Settles O47: the fields of the reset state are the table's, and an empty buffer reads `0x00`. -/
theorem resetValuesAreThoseOfTheTable : Obligations.ResetValuesAreThoseOfTheTable := by
  intro c s
  have hinputs (k : Nat) : s.key.read k = 0x00#8 ∧ s.msg.read k = 0x00#8 ∧ s.sub.read k = 0x00#8 :=
    ⟨Memory.read_nil k, Memory.read_nil k, Memory.read_nil k⟩
  have hresults (k : Nat) : s.res.otp.read k = 0x00#8 ∧ s.res.tag.read k = 0x00#8 :=
    ⟨Memory.read_nil k, Memory.read_nil k⟩
  exact ⟨rfl, rfl, rfl, rfl, rfl, rfl, rfl, rfl, rfl, rfl, rfl, rfl, rfl, rfl, hinputs,
    rfl, rfl, rfl, rfl, rfl, rfl, rfl, rfl, hresults⟩

/-- Settles O48: the step of a pending reset is `hostReset`, which keeps the parameters and the host's side. -/
theorem resetActionGivesTheResetState : Obligations.ResetActionGivesTheResetState :=
  fun s rest hp => step_action s .reset rest hp

/-- Settles O51: `resetWith_inv`, and the default parameters of R10 are legal. -/
theorem resetMeetsTheInvariant : Obligations.ResetMeetsTheInvariant :=
  ⟨fun _ => resetWith_inv, resetWith_inv (by decide)⟩

/-! ## Results and operands persist (R321) -/

/-- The frame of a word, legal or not, changes `STATUS`, `RC` and the results, and nothing else. -/
theorem runCommand_frame {s t : State} (ht : runCommand s = .next t) :
    ∃ (x y : Word) (r : Results), t = { s with status := x, rc := y, res := r } := by
  by_cases hlegal : ∃ i, decodeWord s.cmd = .ok i
  · obtain ⟨i, hi⟩ := hlegal
    rw [runCommand_ok s i hi] at ht
    exact exec_frame ht
  · rw [runCommand_illegal s fun i hi => hlegal ⟨i, hi⟩] at ht
    cases ht
    exact ⟨_, s.rc, s.res, rfl⟩

/-- An access that is neither a reset nor the write of a command word leaves all but operands, input buffers and the
host's side as it was. -/
theorem step_access_same {s t : State} {a : HostAction} {rest : List HostAction} (hp : s.pending = a :: rest)
    (ht : step s = .next t) (hreset : a ≠ .reset) (hcommand : ∀ w : Word, a ≠ .write 0x00000 (beBytes 4 w.toNat)) :
    ∃ u r, t = u.respond r ∧ SameButInputs { s with pending := rest } u := by
  rcases step_cases hp ht with ⟨ha, -⟩ | ⟨w, ha, -⟩ | ⟨-, -, haccess⟩
  · exact absurd ha hreset
  · exact absurd ha (hcommand w)
  · exact haccess

/-- Settles O44: an access that runs no command leaves the results alone, and a command's frame the operands. -/
theorem resultsPersistUntilTheNextCommand : Obligations.ResultsPersistUntilTheNextCommand := by
  refine fun s t a rest hp ht hreset => ⟨fun hcommand => ?_, fun w hw => ?_⟩
  · obtain ⟨u, r, rfl, hu⟩ := step_access_same hp ht hreset hcommand
    exact ⟨hu.res, hu.rc, hu.cmd, hu.status⟩
  · subst hw
    obtain ⟨x, y, r, rfl⟩ := runCommand_frame ((step_cmd_write hp).symm.trans ht)
    exact ⟨rfl, rfl, rfl, rfl⟩

end Sys2Proof.Machine
end
